-- ==== Sys2Proof/Word.lean ====
section
/-! DEFINITION. The word types of the engine: 32-bit registers (spec/00_scope.md R6, `XLEN = 32`) and
8-bit bytes (R7). -/

namespace Sys2Proof

/-- A host-visible register word, 32 bits, bit 0 least significant (R6 `XLEN`, R7). -/
abbrev Word := BitVec 32

/-- A byte, 8 bits (R7). -/
abbrev Byte := BitVec 8

end Sys2Proof
end

