-- ==== Sys2Proof/Syntax.lean ====
section
/-! DEFINITION. The engine's commands: one constructor for each row of spec/opcode_table.json
(spec/30_encoding.md R96), its operands the slot numbers of the command word (R92). -/

namespace Sys2Proof

/-- A pixel slot number, 0 to `NPB - 1 = 7` (R92). -/
abbrev PixelIdx := Fin 8

/-- A stream slot number, 0 to `NBS - 1 = 3` (R92). -/
abbrev StreamIdx := Fin 4

/-- The commands of R96. `a`, `b`, `c` are the slot fields `A`, `B`, `C` of the command word. -/
inductive Instr where
  | nop
  | pbCreate (a : PixelIdx)
  | pbDestroy (a : PixelIdx)
  | pbClone (a b : PixelIdx)
  | pbRedim (a : PixelIdx)
  | pbPitch (a : PixelIdx)
  | pbBlkoff (a : PixelIdx)
  | bsResize (a : StreamIdx)
  | bsDestroy (a : StreamIdx)
  | bsLoad (a : StreamIdx)
  | bsCopy (a b : StreamIdx)
  | bsWbit (a : StreamIdx)
  | bsWbyte (a : StreamIdx)
  | bsWbits (a : StreamIdx)
  | bsWbytes (a : StreamIdx)
  | bsRbit (a : StreamIdx)
  | bsRbyte (a : StreamIdx)
  | bsRbits (a : StreamIdx)
  | bsRbytes (a : StreamIdx)
  | bsSeek (a : StreamIdx)
  | bsEq (a b : StreamIdx)
  | desat (a b : PixelIdx)
  | resize (a b : PixelIdx)
  | dct2d (a b : PixelIdx)
  | qpack (a : StreamIdx) (b : PixelIdx)
  | hash (a : StreamIdx) (b : PixelIdx)
  | hash64 (b : PixelIdx)
  | cmp (b c : PixelIdx)
  | cmp64 (b c : PixelIdx)
  deriving DecidableEq, Repr

end Sys2Proof
end

