-- ==== Sys2Proof/WellFormed.lean ====
section
/-! DEFINITION. The command word's fields (spec/30_encoding.md R91), the formats (R92) and the check that a
word is a legal command word: reserved bits zero, opcode in the table, unused fields zero, slot numbers in
range (R93, R98). -/

namespace Sys2Proof

/-- The five fields of a command word (R91). -/
structure CommandWord where
  /-- bits 7:0 -/
  opc : BitVec 8
  /-- bits 11:8 -/
  a : BitVec 4
  /-- bits 15:12 -/
  b : BitVec 4
  /-- bits 19:16 -/
  c : BitVec 4
  /-- bits 31:20, "must be 0" -/
  rsv : BitVec 12
  deriving DecidableEq, Repr

/-- What a slot field of a format selects (R92). -/
inductive FieldKind where
  | unused
  | pixel
  | stream
  deriving DecidableEq, Repr

/-- "A field of kind *pixel* must hold 0 to 7, a field of kind *stream* must hold 0 to 3; an unused field must
hold 0" (R92). -/
def FieldKind.allows : FieldKind → BitVec 4 → Bool
  | .unused, f => f == 0
  | .pixel, f => f.toNat < 8
  | .stream, f => f.toNat < 4

/-- A format: the kinds of the fields `A`, `B`, `C` (R92). -/
structure Format where
  a : FieldKind
  b : FieldKind
  c : FieldKind
  deriving DecidableEq, Repr

def Format.N : Format := ⟨.unused, .unused, .unused⟩
def Format.P : Format := ⟨.pixel, .unused, .unused⟩
def Format.PP : Format := ⟨.pixel, .pixel, .unused⟩
def Format.S : Format := ⟨.stream, .unused, .unused⟩
def Format.SS : Format := ⟨.stream, .stream, .unused⟩
def Format.SP : Format := ⟨.stream, .pixel, .unused⟩
def Format.xP : Format := ⟨.unused, .pixel, .unused⟩
def Format.xPP : Format := ⟨.unused, .pixel, .pixel⟩

/-- The format of each assigned opcode (R92, R96); `none` for an opcode that is not in the table. -/
def formatOf (opc : BitVec 8) : Option Format :=
  match opc.toNat with
  | 0x00 => some .N
  | 0x01 | 0x02 | 0x04 | 0x05 | 0x06 => some .P
  | 0x03 | 0x20 | 0x21 | 0x22 => some .PP
  | 0x10 | 0x11 | 0x12 | 0x14 | 0x15 | 0x16 | 0x17 | 0x18 | 0x19 | 0x1A | 0x1B | 0x1C => some .S
  | 0x13 | 0x1D => some .SS
  | 0x23 | 0x24 => some .SP
  | 0x25 => some .xP
  | 0x26 | 0x27 => some .xPP
  | _ => none

/-- A legal command word: the complement of R98's illegal words. -/
def CommandWord.wellFormed (w : CommandWord) : Bool :=
  w.rsv == 0 &&
  match formatOf w.opc with
  | none => false
  | some f => f.a.allows w.a && f.b.allows w.b && f.c.allows w.c

end Sys2Proof
end

