-- ==== Sys2Proof/Decode.lean ====
section
/-! DEFINITION. The decoder, total on any 32-bit word and rejecting by name (spec/30_encoding.md R93, R96, R98),
and after it the encoder (R91, R96). -/

namespace Sys2Proof

/-- Why a word is illegal (R98), in the order R93 tests. Every one of them ends the command `InvalidArgument`. -/
inductive DecodeError where
  /-- `RSV != 0` -/
  | reservedBits
  /-- the opcode is not in the table of R96 -/
  | unknownOpcode
  /-- field `A` is unused and non-zero, or no slot's number -/
  | fieldA
  /-- field `B` is unused and non-zero, or no slot's number -/
  | fieldB
  /-- field `C` is unused and non-zero, or no slot's number -/
  | fieldC
  deriving DecidableEq, Repr

/-- The fields of a 32-bit command word (R91). -/
def CommandWord.ofWord (w : Word) : CommandWord where
  opc := w.extractLsb' 0 8
  a := w.extractLsb' 8 4
  b := w.extractLsb' 12 4
  c := w.extractLsb' 16 4
  rsv := w.extractLsb' 20 12

/-- The 32-bit command word of five fields, `OPC` lowest (R91). -/
def CommandWord.toWord (w : CommandWord) : Word := w.rsv ++ w.c ++ w.b ++ w.a ++ w.opc

/-- An unused field "must hold 0" (R92). -/
def needUnused (f : BitVec 4) (e : DecodeError) (k : Except DecodeError Instr) : Except DecodeError Instr :=
  if f = 0 then k else .error e

/-- A pixel field "must hold 0 to 7" (R92). -/
def needPixel (f : BitVec 4) (e : DecodeError) (k : PixelIdx → Except DecodeError Instr) :
    Except DecodeError Instr :=
  if h : f.toNat < 8 then k ⟨f.toNat, h⟩ else .error e

/-- A stream field "must hold 0 to 3" (R92). -/
def needStream (f : BitVec 4) (e : DecodeError) (k : StreamIdx → Except DecodeError Instr) :
    Except DecodeError Instr :=
  if h : f.toNat < 4 then k ⟨f.toNat, h⟩ else .error e

/-- Format `N` (R92). -/
def decodeN (w : CommandWord) (i : Instr) : Except DecodeError Instr :=
  needUnused w.a .fieldA (needUnused w.b .fieldB (needUnused w.c .fieldC (.ok i)))

/-- Format `P` (R92). -/
def decodeP (w : CommandWord) (i : PixelIdx → Instr) : Except DecodeError Instr :=
  needPixel w.a .fieldA fun a => needUnused w.b .fieldB (needUnused w.c .fieldC (.ok (i a)))

/-- Format `PP` (R92). -/
def decodePP (w : CommandWord) (i : PixelIdx → PixelIdx → Instr) : Except DecodeError Instr :=
  needPixel w.a .fieldA fun a => needPixel w.b .fieldB fun b => needUnused w.c .fieldC (.ok (i a b))

/-- Format `S` (R92). -/
def decodeS (w : CommandWord) (i : StreamIdx → Instr) : Except DecodeError Instr :=
  needStream w.a .fieldA fun a => needUnused w.b .fieldB (needUnused w.c .fieldC (.ok (i a)))

/-- Format `SS` (R92). -/
def decodeSS (w : CommandWord) (i : StreamIdx → StreamIdx → Instr) : Except DecodeError Instr :=
  needStream w.a .fieldA fun a => needStream w.b .fieldB fun b => needUnused w.c .fieldC (.ok (i a b))

/-- Format `SP` (R92). -/
def decodeSP (w : CommandWord) (i : StreamIdx → PixelIdx → Instr) : Except DecodeError Instr :=
  needStream w.a .fieldA fun a => needPixel w.b .fieldB fun b => needUnused w.c .fieldC (.ok (i a b))

/-- Format `xP` (R92). -/
def decodeXP (w : CommandWord) (i : PixelIdx → Instr) : Except DecodeError Instr :=
  needUnused w.a .fieldA (needPixel w.b .fieldB fun b => needUnused w.c .fieldC (.ok (i b)))

/-- Format `xPP` (R92). -/
def decodeXPP (w : CommandWord) (i : PixelIdx → PixelIdx → Instr) : Except DecodeError Instr :=
  needUnused w.a .fieldA (needPixel w.b .fieldB fun b => needPixel w.c .fieldC fun c => .ok (i b c))

/-- The opcode map (R96) over the fields of a word, with the tests of R93 in its order: `RSV`, `OPC`, `A`, `B`, `C`. -/
def decodeFields (w : CommandWord) : Except DecodeError Instr :=
  if w.rsv ≠ 0 then .error .reservedBits else
  match w.opc.toNat with
  | 0x00 => decodeN w .nop
  | 0x01 => decodeP w .pbCreate
  | 0x02 => decodeP w .pbDestroy
  | 0x03 => decodePP w .pbClone
  | 0x04 => decodeP w .pbRedim
  | 0x05 => decodeP w .pbPitch
  | 0x06 => decodeP w .pbBlkoff
  | 0x10 => decodeS w .bsResize
  | 0x11 => decodeS w .bsDestroy
  | 0x12 => decodeS w .bsLoad
  | 0x13 => decodeSS w .bsCopy
  | 0x14 => decodeS w .bsWbit
  | 0x15 => decodeS w .bsWbyte
  | 0x16 => decodeS w .bsWbits
  | 0x17 => decodeS w .bsWbytes
  | 0x18 => decodeS w .bsRbit
  | 0x19 => decodeS w .bsRbyte
  | 0x1A => decodeS w .bsRbits
  | 0x1B => decodeS w .bsRbytes
  | 0x1C => decodeS w .bsSeek
  | 0x1D => decodeSS w .bsEq
  | 0x20 => decodePP w .desat
  | 0x21 => decodePP w .resize
  | 0x22 => decodePP w .dct2d
  | 0x23 => decodeSP w .qpack
  | 0x24 => decodeSP w .hash
  | 0x25 => decodeXP w .hash64
  | 0x26 => decodeXPP w .cmp
  | 0x27 => decodeXPP w .cmp64
  | _ => .error .unknownOpcode

/-- The decoder: a command word is a command or is illegal, by name (R93, R98). -/
def decode (w : Word) : Except DecodeError Instr := decodeFields (.ofWord w)

/-- A pixel slot number as a 4-bit field. -/
def pixelField (k : PixelIdx) : BitVec 4 := BitVec.ofNat 4 k.val

/-- A stream slot number as a 4-bit field. -/
def streamField (k : StreamIdx) : BitVec 4 := BitVec.ofNat 4 k.val

/-- The fields of each command's word (R91, R92, R96); unused fields and `RSV` are 0. -/
def Instr.command : Instr → CommandWord
  | .nop => ⟨0x00, 0, 0, 0, 0⟩
  | .pbCreate a => ⟨0x01, pixelField a, 0, 0, 0⟩
  | .pbDestroy a => ⟨0x02, pixelField a, 0, 0, 0⟩
  | .pbClone a b => ⟨0x03, pixelField a, pixelField b, 0, 0⟩
  | .pbRedim a => ⟨0x04, pixelField a, 0, 0, 0⟩
  | .pbPitch a => ⟨0x05, pixelField a, 0, 0, 0⟩
  | .pbBlkoff a => ⟨0x06, pixelField a, 0, 0, 0⟩
  | .bsResize a => ⟨0x10, streamField a, 0, 0, 0⟩
  | .bsDestroy a => ⟨0x11, streamField a, 0, 0, 0⟩
  | .bsLoad a => ⟨0x12, streamField a, 0, 0, 0⟩
  | .bsCopy a b => ⟨0x13, streamField a, streamField b, 0, 0⟩
  | .bsWbit a => ⟨0x14, streamField a, 0, 0, 0⟩
  | .bsWbyte a => ⟨0x15, streamField a, 0, 0, 0⟩
  | .bsWbits a => ⟨0x16, streamField a, 0, 0, 0⟩
  | .bsWbytes a => ⟨0x17, streamField a, 0, 0, 0⟩
  | .bsRbit a => ⟨0x18, streamField a, 0, 0, 0⟩
  | .bsRbyte a => ⟨0x19, streamField a, 0, 0, 0⟩
  | .bsRbits a => ⟨0x1A, streamField a, 0, 0, 0⟩
  | .bsRbytes a => ⟨0x1B, streamField a, 0, 0, 0⟩
  | .bsSeek a => ⟨0x1C, streamField a, 0, 0, 0⟩
  | .bsEq a b => ⟨0x1D, streamField a, streamField b, 0, 0⟩
  | .desat a b => ⟨0x20, pixelField a, pixelField b, 0, 0⟩
  | .resize a b => ⟨0x21, pixelField a, pixelField b, 0, 0⟩
  | .dct2d a b => ⟨0x22, pixelField a, pixelField b, 0, 0⟩
  | .qpack a b => ⟨0x23, streamField a, pixelField b, 0, 0⟩
  | .hash a b => ⟨0x24, streamField a, pixelField b, 0, 0⟩
  | .hash64 b => ⟨0x25, 0, pixelField b, 0, 0⟩
  | .cmp b c => ⟨0x26, 0, pixelField b, pixelField c, 0⟩
  | .cmp64 b c => ⟨0x27, 0, pixelField b, pixelField c, 0⟩

/-- The encoder: the 32-bit word that stands for a command (R91, R100). -/
def encode (i : Instr) : Word := i.command.toWord

/-- An instruction is well-formed when its word's fields are legal (R92). Slot numbers of `Instr` are bounded by
their types, so every instruction is. -/
def Instr.wellFormed (i : Instr) : Bool := i.command.wellFormed

/-- What the decoder reads from an instruction whose bits are `w`: the command word is 32 bits (R91, R99), every
bit above `nbits` is 0. -/
def decodeTableWord (nbits w : Nat) : Option Instr :=
  match decode (BitVec.ofNat 32 (w % 2 ^ nbits)) with
  | .ok i => some i
  | .error _ => none

end Sys2Proof
end

