-- ==== Sys2Proof/Config.lean ====
section
/-! DEFINITION. The implementation parameters of spec/00_scope.md R6: the fixed ones as constants, the three
OPEN ones as a record that a machine carries unchanged (notes/assumptions/3.md). -/

namespace Sys2Proof

/-- Largest legal `thumbSize` (R6 `THUMB_MAX`). -/
def thumbMax : Nat := 2900

/-- What `thumbSize == 0` stands for (R6 `THUMB_DEFAULT`). -/
def thumbDefault : Nat := 16

/-- Largest legal `hashSize` in bytes (R6 `HASHSIZE_MAX`). -/
def hashSizeMax : Nat := 2147483648

/-- What `hashSize == 0` stands for (R6 `HASHSIZE_DEFAULT`). -/
def hashSizeDefault : Nat := 32

/-- Smallest legal width and height of a hashed image (R6 `SRC_MIN_DIM`). -/
def srcMinDim : Nat := 32

/-- The thumbnail's side is `thumbSize * THUMB_SCALE`; the packed block's is `width / THUMB_SCALE` (R6). -/
def thumbScale : Nat := 4

/-- Clamp of the bits per coefficient (R6 `BPP_MAX`). -/
def bppMax : Nat := 32

/-- Largest byte size of one buffer (R6 `BUF_MAX_BYTES`). -/
def bufMaxBytes : Nat := 4294967295

/-- Largest capacity of a bit stream in bits (R6 `BS_MAX_BITS`). -/
def bsMaxBits : Nat := 0xFFFFFFF8

/-- Value of the `ID` register (R6 `ENGINE_ID`). -/
def engineId : Word := 0x494E5331

/-- The OPEN parameter `CMP64_DIV`, "one of 64 or 256" (R6, spec/90_conflicts.md C1). -/
inductive Cmp64Div where
  /-- The divisor 64 of the source's component section. -/
  | div64
  /-- The divisor 256 of the source's design notes. -/
  | div256
  deriving DecidableEq, Repr

/-- The OPEN parameters of R6. They are fixed for a machine: no step changes them. -/
structure Config where
  /-- `POOL_BYTES`: `none` is "unbounded" (R6, spec/10_state.md R46). -/
  poolBytes : Option Nat
  /-- `XBUF_BYTES`, "at least 16" (R6). -/
  xbufBytes : Nat
  /-- `CMP64_DIV` (R6). -/
  cmp64Div : Cmp64Div
  deriving DecidableEq, Repr

/-- The parameters a machine has after `State.reset`: the spec's defaults for `XBUF_BYTES` and `CMP64_DIV` (R6);
`POOL_BYTES` unbounded is DESIGN CHOICE (notes/assumptions/3.md). -/
def Config.default : Config := ⟨none, 256, .div64⟩

end Sys2Proof
end

