-- ==== Sys2Proof/Machine/State.lean ====
section
/-! DEFINITION. The state of the engine as plain data (spec/10_state.md R21), the reasons a step can stop, and the
state after reset (R52). -/

namespace Sys2Proof.Machine

/-- The bytes of one store: (offset, byte) pairs, offsets strictly rising, no byte 0 listed. An offset that is not
listed reads 0 (notes/assumptions/4.md). -/
abbrev Memory := List Host.Cell

/-- The status codes of spec/60_exceptions.md R286, also the values of `SUBCODE` (R288). Numbers 6 to 15 are
"never produced". -/
inductive Status where
  | success
  | invalidArgument
  | outOfMemory
  | invalidResource
  | capacityLimit
  | executionFailure
  deriving DecidableEq, Repr

/-- The fault causes of spec/60_exceptions.md R291. -/
inductive FaultCause where
  | zeroWeight
  | avgEmpty
  | winRange
  deriving DecidableEq, Repr

/-- A pixel slot (R30): the four descriptor registers and the store. -/
structure PixelSlot where
  format : Word
  width : Word
  height : Word
  cap : Word
  data : Memory
  deriving DecidableEq, Repr

/-- A stream slot (R35): capacity and cursors in bits, and the store. -/
structure StreamSlot where
  capbits : Word
  wcur : Word
  rcur : Word
  data : Memory
  deriving DecidableEq, Repr

/-- The empty pixel slot (R31). -/
def PixelSlot.empty : PixelSlot := ⟨0, 0, 0, 0, []⟩

/-- The empty stream slot (R37). -/
def StreamSlot.empty : StreamSlot := ⟨0, 0, 0, []⟩

/-- A move of the host (R20): a register read, a register write, or the platform's hardware reset
(spec/70_reset_and_hazards.md R320). `off` is the byte offset from the engine's base address (R22). -/
inductive HostMove where
  | read (off : Nat)
  | write (off : Nat) (v : Word)
  | reset
  deriving DecidableEq, Repr

/-- The architectural state (R21), and after it the model's own three fields. -/
structure State where
  /-- `STATUS.CODE` (R24) -/
  code : Status
  /-- `STATUS.SUBCODE` (R24); 0 is `success` -/
  subcode : Status
  /-- `STATUS.FAULT` and `STATUS.FCAUSE` (R24): `FAULT` is 1 when a cause is held -/
  fault : Option FaultCause
  /-- `CMD` read-back (R22) -/
  cmd : Word
  /-- `ARG0..ARG3` (R22) -/
  arg : Vector Word 4
  /-- `RES0..RES3` (R22) -/
  res : Vector Word 4
  /-- `WIN_SEL.SLOT` (R22) -/
  winSlot : BitVec 4
  /-- `WIN_SEL.KIND` (R22) -/
  winKind : BitVec 2
  /-- `WIN_OFF` (R22) -/
  winOff : Word
  /-- `PB[0..7]` (R30) -/
  pb : Vector PixelSlot 8
  /-- `BS[0..3]` (R35) -/
  bs : Vector StreamSlot 4
  /-- `XBUF` (R41) -/
  xbuf : Memory
  /-- MODEL's: the open parameters, changed by no step (notes/assumptions/3.md) -/
  cfg : Config
  /-- MODEL's: the host's moves still to come (notes/assumptions/1.md) -/
  pending : List HostMove
  /-- MODEL's: the word the latest host read returned (notes/assumptions/2.md) -/
  rdata : Word
  deriving DecidableEq, Repr

/-- Why the machine stops with a fault. No command does (spec/70_reset_and_hazards.md R325): the engine's own
sticky faults are next states with `State.fault` set. -/
inductive Fault where
  /-- Raised by `step` on a host access at an offset above 0x3FF: the register space is 0x000 to 0x3FF
  (spec/20_memory.md R60). Safe: the spec gives such an access no meaning. -/
  | outsideRegisterSpace (off : Nat)
  deriving DecidableEq, Repr

/-- Why a step has no meaning. -/
inductive Refusal where
  /-- Raised by an arm of `exec` whose command has no meaning yet; no arm answers it in this model. Safe. -/
  | notModelled (mnemonic : String)
  /-- Raised by `step` on a host access at an offset that is no multiple of 4: "byte, halfword and misaligned
  register accesses are not operations of the interface" (spec/20_memory.md R66). Safe. -/
  | notARegisterAccess (off : Nat)
  deriving DecidableEq, Repr

/-- The machine right after reset: every value of the table of R52. The model's own fields hold the default
parameters, no pending move and 0 (notes/assumptions/1.md, 2.md, 3.md). -/
def State.reset : State where
  code := .success
  subcode := .success
  fault := none
  cmd := 0
  arg := .replicate 4 0
  res := .replicate 4 0
  winSlot := 0
  winKind := 0
  winOff := 0
  pb := .replicate 8 .empty
  bs := .replicate 4 .empty
  xbuf := []
  cfg := .default
  pending := []
  rdata := 0

end Sys2Proof.Machine
end

