-- ==== Sys2Proof/Machine/Flags.lean ====
section
/-! DEFINITION. The engine's flags: the `STATUS` word (spec/10_state.md R24, spec/60_exceptions.md R286, R291) and the
`BSk_FLAGS` word (spec/10_state.md R38), both computed from what State holds. -/

namespace Sys2Proof.Machine

/-- The number of a status code (R286). -/
def Status.toField : Status → BitVec 4
  | .success => 0
  | .invalidArgument => 1
  | .outOfMemory => 2
  | .invalidResource => 3
  | .capacityLimit => 4
  | .executionFailure => 5

/-- The number of a fault cause (R291). -/
def FaultCause.toField : FaultCause → BitVec 4
  | .zeroWeight => 1
  | .avgEmpty => 2
  | .winRange => 3

/-- `STATUS.FAULT` (R24). -/
def faultFlag : Option FaultCause → BitVec 1
  | none => 0
  | some _ => 1

/-- `STATUS.FCAUSE`: "cause of the fault while `FAULT = 1`, else 0" (R24). -/
def faultCauseField : Option FaultCause → BitVec 4
  | none => 0
  | some c => c.toField

/-- The `STATUS` word: `CODE` 3:0, `SUBCODE` 7:4, `FAULT` 8, `FCAUSE` 15:12, the other bits 0 (R24). -/
def State.statusWord (s : State) : Word :=
  (0 : BitVec 16) ++ faultCauseField s.fault ++ (0 : BitVec 3) ++ faultFlag s.fault ++ s.subcode.toField ++
    s.code.toField

/-- `EMPTY`: read cursor = write cursor (R38). -/
def StreamSlot.flagEmpty (t : StreamSlot) : Bool := t.rcur == t.wcur

/-- `FULL`: write cursor = capacity (R38). -/
def StreamSlot.flagFull (t : StreamSlot) : Bool := t.wcur == t.capbits

/-- `ALLOC`: capacity is not 0 (R38). -/
def StreamSlot.flagAlloc (t : StreamSlot) : Bool := t.capbits != 0

/-- The `BSk_FLAGS` word: bit 0 `EMPTY`, bit 1 `FULL`, bit 2 `ALLOC`, bits 31:3 zero (R38). -/
def StreamSlot.flagsWord (t : StreamSlot) : Word :=
  (0 : BitVec 29) ++ BitVec.ofBool t.flagAlloc ++ BitVec.ofBool t.flagFull ++ BitVec.ofBool t.flagEmpty

/-- The `WIN_SEL` word: `SLOT` 3:0, `KIND` 9:8, the other bits 0 (R22). -/
def State.winSelWord (s : State) : Word := (0 : BitVec 22) ++ s.winKind ++ (0 : BitVec 4) ++ s.winSlot

end Sys2Proof.Machine
end

