-- ==== Sys2Proof/Machine/Operands.lean ====
section
/-! DEFINITION. Operand forms and integer arithmetic: the operators of spec/00_scope.md R9, R7, R13, the pixel format
descriptor (spec/10_state.md R28, R29), slot predicates (R31, R32, R37), pixel addressing (spec/20_memory.md R62). -/

namespace Sys2Proof.Machine

/-- `tdiv(a, b)`: division truncating toward zero (R9). -/
def tdiv (a b : Int) : Int := a.tdiv b

/-- `lowbits(z, n) = z mod 2^n`, the low `n` bits of the two's-complement form (R7). -/
def lowbits (z : Int) (n : Nat) : Nat := (z % (2 ^ n : Int)).toNat

/-- Integer square root by binary digits: `k` base-4 digits of `n` are consumed. -/
def isqrtDigits : Nat → Nat → Nat
  | 0, _ => 0
  | k + 1, n =>
    let r := 2 * isqrtDigits k (n / 4)
    if (r + 1) * (r + 1) ≤ n then r + 1 else r

/-- The greatest `z` with `z * z ≤ n`. -/
def isqrt (n : Nat) : Nat := isqrtDigits (n.log2 + 1) n

/-- The binary32 pattern `f32(k/256)` for `0 <= k <= 256` (R13). -/
def f32Of256ths (k : Nat) : Word :=
  if k = 0 then 0x00000000
  else if 256 ≤ k then 0x3F800000
  else
    let e := k.log2
    (BitVec.ofNat 32 (e + 119) <<< 23) ||| ((BitVec.ofNat 32 k <<< (23 - e)) &&& 0x7FFFFF#32)

/-- The width field `Wc` of channel `c` of a descriptor (R28). -/
def formatWidth (f : Word) (c : Nat) : Nat := (f.extractLsb' (6 * c) 6).toNat

/-- `wellformed(f)`: the reserved bits are 0 and the non-zero width fields are a prefix (R29). -/
def formatWellformed (f : Word) : Bool :=
  f.extractLsb' 25 7 == 0 &&
  (formatWidth f 0 != 0 || formatWidth f 1 == 0) &&
  (formatWidth f 1 != 0 || formatWidth f 2 == 0) &&
  (formatWidth f 2 != 0 || formatWidth f 3 == 0)

/-- `channels(f)`: the number of non-zero width fields (R29). -/
def formatChannels (f : Word) : Nat :=
  ([0, 1, 2, 3].filter fun c => formatWidth f c != 0).length

/-- `bpp(f) = W0 + W1 + W2 + W3` (R29). -/
def formatBpp (f : Word) : Nat :=
  formatWidth f 0 + formatWidth f 1 + formatWidth f 2 + formatWidth f 3

/-- `R8`: one 8-bit channel (R29). -/
def formatR8 : Word := 0x00000008

/-- `R8G8B8`: three 8-bit channels (R29). -/
def formatR8G8B8 : Word := 0x00008208

/-- `R32S`: one signed 32-bit channel (R29). -/
def formatR32S : Word := 0x01000020

/-- An empty pixel slot: all descriptor fields zero (R31). -/
def PixelSlot.isEmpty (p : PixelSlot) : Bool :=
  p.format == 0 && p.width == 0 && p.height == 0 && p.cap == 0

/-- `valid`: "format ≠ none, bits-per-pixel ≠ 0, width ≠ 0, height ≠ 0" (R32). -/
def PixelSlot.valid (p : PixelSlot) : Bool :=
  p.format != 0 && formatBpp p.format != 0 && p.width != 0 && p.height != 0

/-- A valid slot of one given format, the operand test of the processing commands. -/
def PixelSlot.validAs (p : PixelSlot) (f : Word) : Bool := p.valid && p.format == f

/-- `rowPitch = width * bpp / 8` (R62). -/
def PixelSlot.rowPitch (p : PixelSlot) : Nat := p.width.toNat * formatBpp p.format / 8

/-- `blockOffset(i,j) = rowPitch*j + i*bpp/8` (R62). -/
def PixelSlot.blockOffset (p : PixelSlot) (i j : Nat) : Nat :=
  p.rowPitch * j + i * formatBpp p.format / 8

/-- The byte size of a `w` by `h` buffer of format `f` (R31). -/
def bufferBytes (f : Word) (w h : Nat) : Nat := w * h * formatBpp f / 8

/-- A buffer of `w` by `h` pixels of format `f` over a store (R31). -/
def PixelSlot.buffer (f : Word) (w h : Nat) (data : Memory) : PixelSlot :=
  ⟨f, BitVec.ofNat 32 w, BitVec.ofNat 32 h, BitVec.ofNat 32 (bufferBytes f w h), data⟩

/-- An empty stream slot: capacity and cursors 0 (R37). -/
def StreamSlot.isEmpty (t : StreamSlot) : Bool := t.capbits == 0 && t.wcur == 0 && t.rcur == 0

/-- The bytes of a stream's store, `capbits / 8` (R35). -/
def StreamSlot.capBytes (t : StreamSlot) : Nat := t.capbits.toNat / 8

/-- The bits between read and write cursor. -/
def StreamSlot.remaining (t : StreamSlot) : Nat := t.wcur.toNat - t.rcur.toNat

/-- A stream of `n` zero bytes with both cursors 0 (spec/41_bitstream.md R141, spec/45_hash_quantpack.md R242). -/
def StreamSlot.fresh (n : Nat) : StreamSlot := ⟨BitVec.ofNat 32 (8 * n), 0, 0, []⟩

end Sys2Proof.Machine
end

