-- ==== Sys2Proof/Machine/Ops.lean ====
section
/-! DEFINITION. The named operations every command is built from: stores and bits (spec/20_memory.md R61, R64, R70 to
R72), slots and registers, the pool (spec/10_state.md R45 to R47), how a command ends (spec/00_scope.md R11), taking a
fault (spec/60_exceptions.md R290) and the reset that leaves it (spec/70_reset_and_hazards.md R320). -/

namespace Sys2Proof.Machine

/-! ## Stores -/

/-- The byte at an offset; an offset that is not listed reads 0 (notes/assumptions/4.md). -/
def Memory.read : Memory → Nat → Byte
  | [], _ => 0
  | (k, v) :: m, a => if k = a then v else Memory.read m a

/-- Store one byte, keeping the canonical form: a 0 byte is not listed. -/
def Memory.write : Memory → Nat → Byte → Memory
  | [], a, v => if v = 0 then [] else [(a, v)]
  | (k, w) :: m, a, v =>
    if a < k then (if v = 0 then (k, w) :: m else (a, v) :: (k, w) :: m)
    else if a = k then (if v = 0 then m else (a, v) :: m)
    else (k, w) :: Memory.write m a v

/-- The canonical form from offset `lo` on: offsets at least `lo` and strictly rising, no byte 0 listed. -/
def Memory.wfFrom : Nat → Memory → Bool
  | _, [] => true
  | lo, (k, v) :: m => decide (lo ≤ k) && v != 0 && Memory.wfFrom (k + 1) m

/-- The canonical form of a store. -/
def Memory.wf (m : Memory) : Bool := m.wfFrom 0

/-- Every listed offset is below `n`, the size of the store (R60). -/
def Memory.within (m : Memory) (n : Nat) : Bool := m.all fun c => decide (c.1 < n)

/-- The store that holds the bytes of a list from offset `a` on. -/
def Memory.ofBytesAt : Nat → List Byte → Memory
  | _, [] => []
  | a, v :: vs => if v = 0 then Memory.ofBytesAt (a + 1) vs else (a, v) :: Memory.ofBytesAt (a + 1) vs

/-- The store that holds the bytes of a list from offset 0 on. -/
def Memory.ofBytes (vs : List Byte) : Memory := Memory.ofBytesAt 0 vs

/-- The `n` bytes from offset `a` on. -/
def Memory.bytes (m : Memory) (a n : Nat) : List Byte := (List.range n).map fun i => m.read (a + i)

/-- The first `n` bytes of a store as a store (a deep copy of them, R48). -/
def Memory.take (m : Memory) (n : Nat) : Memory := m.filter fun c => decide (c.1 < n)

/-- `MemRead(store, off, n)`: `n` bytes as an unsigned integer, byte `off` least significant (spec/00_scope.md R10). -/
def Memory.readLE (m : Memory) (off : Nat) : Nat → Nat
  | 0 => 0
  | n + 1 => (m.read off).toNat + 256 * Memory.readLE m (off + 1) n

/-- The signed 32-bit sample at offset `off`: `sext_32(MemRead(S, off, 4))` (R61). -/
def Memory.sample32 (m : Memory) (off : Nat) : Int := (BitVec.ofNat 32 (m.readLE off 4)).toInt

/-- The four bytes `MemWrite(S, o, 4, lowbits(v, 32))` stores, least significant first (R61). -/
def sampleBytes (v : Int) : List Byte :=
  let w := BitVec.ofNat 32 (lowbits v 32)
  [w.extractLsb' 0 8, w.extractLsb' 8 8, w.extractLsb' 16 8, w.extractLsb' 24 8]

/-! ## Bits of a store -/

/-- `GetBit(S, b)`: bit `b mod 8` of byte `b div 8` (R64). -/
def Memory.getBit (m : Memory) (b : Nat) : Bool := (m.read (b / 8)).getLsbD (b % 8)

/-- `SetBit(S, b, v)`: changes exactly that bit (R64). -/
def Memory.setBit (m : Memory) (b : Nat) (v : Bool) : Memory :=
  let old := m.read (b / 8)
  let mask := BitVec.twoPow 8 (b % 8)
  m.write (b / 8) (if v then old ||| mask else old &&& ~~~mask)

/-- Store bits `src 0 .. src (n-1)` at bit `pos` on: bit `pos + k` becomes `src k`, every other bit stays (R70). -/
def Memory.putBits (m : Memory) (pos : Nat) (src : Nat → Bool) : Nat → Memory
  | 0 => m
  | n + 1 => (Memory.putBits m pos src n).setBit (pos + n) (src n)

/-- `CopyBits(dst, dstBit, src, srcBit, n)` (R70). -/
def copyBits (dst : Memory) (dstBit : Nat) (src : Memory) (srcBit n : Nat) : Memory :=
  dst.putBits dstBit (fun k => src.getBit (srcBit + k)) n

/-- The byte whose bit `k` is `f k`, `k = 0..7`. -/
def byteOfBits (f : Nat → Bool) : Byte :=
  (List.range 8).foldl (fun v k => if f k then v ||| BitVec.twoPow 8 k else v) 0

/-- The mask `M` of R72: bit `p` is 1 iff `dstBit <= 8B + p < dstBit + n`. -/
def mergeMask (dstBit n B : Nat) : Byte :=
  byteOfBits fun p => decide (dstBit ≤ 8 * B + p) && decide (8 * B + p < dstBit + n)

/-- `unalignedCopy` by masked merges, one for each destination byte with a bit in the range (R72). -/
def unalignedCopy (dst : Memory) (dstBit : Nat) (src : Memory) (srcBit n : Nat) : Memory :=
  (List.range ((dstBit + n + 7) / 8 - dstBit / 8)).foldl (fun d t =>
    let B := dstBit / 8 + t
    let M := mergeMask dstBit n B
    let V := byteOfBits fun p => src.getBit (srcBit + (8 * B + p) - dstBit)
    d.write B ((d.read B &&& ~~~M) ||| (V &&& M))) dst

/-- `alignedCopy` (R71), for byte-aligned offsets: whole bytes are copied byte for byte, the remaining `n mod 8`
bits through the unaligned path. -/
def alignedCopy (dst : Memory) (dstBit : Nat) (src : Memory) (srcBit n : Nat) : Memory :=
  let whole := (List.range (n / 8)).foldl
    (fun d i => d.write (dstBit / 8 + i) (src.read (srcBit / 8 + i))) dst
  unalignedCopy whole (dstBit + 8 * (n / 8)) src (srcBit + 8 * (n / 8)) (n % 8)

/-! ## Registers and slots -/

/-- The unsigned value of an argument register, `zext_32(ARG[i])` (spec/30_encoding.md R95). -/
def State.argNat (s : State) (i : Fin 4) : Nat := s.arg[i].toNat

/-- Pixel slot `PB[k]`. -/
def State.pixel (s : State) (k : PixelIdx) : PixelSlot := s.pb[k]

/-- Stream slot `BS[k]`. -/
def State.stream (s : State) (k : StreamIdx) : StreamSlot := s.bs[k]

/-- `PB[k] <- p`. -/
def State.setPixel (s : State) (k : PixelIdx) (p : PixelSlot) : State := { s with pb := s.pb.set k p }

/-- `BS[k] <- t`. -/
def State.setStream (s : State) (k : StreamIdx) (t : StreamSlot) : State := { s with bs := s.bs.set k t }

/-- `XBUF <- m`. -/
def State.setXbuf (s : State) (m : Memory) : State := { s with xbuf := m }

/-! ## The pool -/

/-- `PoolUsed` between commands: the bytes of all pixel and stream slots (R45). -/
def State.poolUsed (s : State) : Nat :=
  (s.pb.toList.map fun p => p.cap.toNat).sum + (s.bs.toList.map fun t => t.capBytes).sum

/-- `Alloc(n)` while the running command holds `held` bytes of temporaries (R45, R46). -/
def State.canAlloc (s : State) (held n : Nat) : Bool :=
  decide (n ≤ bufMaxBytes) &&
  match s.cfg.poolBytes with
  | none => true
  | some p => decide (s.poolUsed + held + n ≤ p)

/-! ## How a command ends -/

/-- How a procedure ends other than by succeeding (spec/00_scope.md R11): `fail X`, `fail ExecutionFailure(sub)`
or `fault cause`. -/
inductive Stop where
  | fail (code sub : Status)
  | fault (cause : FaultCause)
  deriving DecidableEq, Repr

/-- `fail X` for a code other than `ExecutionFailure`: no sub-code (R11). -/
def Stop.plain (c : Status) : Stop := .fail c .success

/-- `fail ExecutionFailure(sub)` (R11). -/
def Stop.inner (sub : Status) : Stop := .fail .executionFailure sub

/-- A stage's failure seen from the operation that called it: `fail X` becomes `fail ExecutionFailure(X)`, "a nested
`ExecutionFailure(X)` is passed up unchanged" (spec/60_exceptions.md R288), a fault stays a fault. -/
def Stop.wrap : Stop → Stop
  | .fail .executionFailure sub => .fail .executionFailure sub
  | .fail c _ => .fail .executionFailure c
  | .fault f => .fault f

/-- `RES0..RES3` of a command whose rule writes `r0` to `RES0` and `r1` to `RES1` (spec/30_encoding.md R94). -/
def results (r0 r1 : Word) : Vector Word 4 := #v[r0, r1, 0, 0]

/-- `succeed` (R11, spec/30_encoding.md R93), with the results of the command's rule. -/
def State.succeed (s : State) (r0 : Word := 0) (r1 : Word := 0) : State :=
  { s with code := .success, subcode := .success, res := results r0 r1 }

/-- `fail` with a code and sub-code: the results are 0 (R93, spec/60_exceptions.md R289). -/
def State.fail (s : State) (code : Status) (sub : Status := .success) : State :=
  { s with code := code, subcode := sub, res := results 0 0 }

/-- TAKING A FAULT inside a command (spec/60_exceptions.md R290): `CODE` becomes `ExecutionFailure`, `SUBCODE` 0, the
results 0, `FAULT` 1 and `FCAUSE` the cause. Nothing else is captured; there is no handler. -/
def State.takeFault (s : State) (cause : FaultCause) : State :=
  { s with code := .executionFailure, subcode := .success, res := results 0 0, fault := some cause }

/-- `fault WIN_RANGE`, raised by a host access to `WIN_DATA` (R290): `CODE`, `SUBCODE`, `RES`, `WIN_OFF` unchanged. -/
def State.takeWindowFault (s : State) : State := { s with fault := some .winRange }

/-- The command ends as a procedure ended. -/
def State.stop (s : State) : Stop → State
  | .fail c sub => s.fail c sub
  | .fault f => s.takeFault f

/-- THE RETURN FROM A FAULT is reset only (spec/60_exceptions.md R297): every piece of the engine's state takes its
reset value (spec/70_reset_and_hazards.md R320). The parameters and the host's own side stay (notes/assumptions/10.md). -/
def State.resetEngine (s : State) : State :=
  { State.reset with cfg := s.cfg, pending := s.pending, rdata := s.rdata }

/-- What acceptance of a command word does before it is decoded: `CMD` takes the word, `RES0..RES3` and `SUBCODE`
become 0 (spec/30_encoding.md R93). -/
def State.accept (s : State) (w : Word) : State :=
  { s with cmd := w, res := results 0 0, subcode := .success }

/-! ## The stream write step -/

/-- `StreamWrite(S, src, n)` (spec/41_bitstream.md R145): append `n` bits at the write cursor; `none` is `fail
CapacityLimit`, with nothing written. -/
def StreamSlot.append (t : StreamSlot) (src : Nat → Bool) (n : Nat) : Option StreamSlot :=
  if t.wcur.toNat + n > t.capbits.toNat then none
  else some { t with data := t.data.putBits t.wcur.toNat src n, wcur := BitVec.ofNat 32 (t.wcur.toNat + n) }

/-- The end of a stream write command on slot `k` (R145): the appended stream, or `CapacityLimit`. -/
def State.endAppend (s : State) (k : StreamIdx) : Option StreamSlot → State
  | some t => (s.setStream k t).succeed
  | none => s.fail .capacityLimit

/-- The read cursor advanced by `n` bits. -/
def StreamSlot.advance (t : StreamSlot) (n : Nat) : StreamSlot :=
  { t with rcur := BitVec.ofNat 32 (t.rcur.toNat + n) }

/-- The end of a creating command (R33, R34): the new buffer goes to the destination slot, or the command ends as its
procedure ended and the slot stays as it was. -/
def State.endCreate (s : State) (k : PixelIdx) : Except Stop PixelSlot → State
  | .ok p => (s.setPixel k p).succeed
  | .error e => s.stop e

end Sys2Proof.Machine
end

