-- ==== Sys2Proof/Machine/Resampler.lean ====
section
/-! DEFINITION. The resampler (spec/43_resampler.md): a separable coverage filter in exact integer arithmetic. -/

namespace Sys2Proof.Machine

/-- The axis ratio `a/b` for `n` source and `m` destination samples (R193). -/
def axisRatio (n m : Nat) : Nat × Nat := if m = 1 then (1, 1) else (n - 1, m - 1)

/-- The weight numerator `wn = a - min(a, |x*a - s*b|)` (R194). -/
def sampleWeight (a b x t : Nat) : Nat := a - min a ((x * a : Int) - (t * b : Int)).natAbs

/-- The source positions that destination sample `x` scans: `ft - Rw + 1 .. ft + Rw`, "skipping any outside image
bounds" `0 .. n-1` (R194). -/
def scanWindow (n a b x : Nat) : List Nat :=
  let Rw := a / b + 1
  let ft := x * a / b
  let lo := ft + 1 - Rw
  List.range' lo (min (ft + Rw + 1) n - lo)

/-- The total weight `den` of destination sample `x` (R194). -/
def totalWeight (n m x : Nat) : Nat :=
  let r := axisRatio n m
  ((scanWindow n r.1 r.2 x).map (sampleWeight r.1 r.2 x)).sum

/-- Destination sample `x`: `num div den` (R194). -/
def resampleAt (src : List Nat) (m x : Nat) : Nat :=
  let r := axisRatio src.length m
  ((scanWindow src.length r.1 r.2 x).map fun t => sampleWeight r.1 r.2 x t * src.getD t 0).sum
    / totalWeight src.length m x

/-- `ResampleLine` where no total weight is 0 (R194). -/
def resampleLine (src : List Nat) (m : Nat) : List Nat := (List.range m).map (resampleAt src m)

/-- Some destination sample of an axis has total weight 0 (R197): the condition of `fault ZERO_WEIGHT`, which depends on
the two lengths alone. -/
def axisFaults (n m : Nat) : Bool := (List.range m).any fun x => totalWeight n m x == 0

/-- Row `j` of a single-channel 8-bit buffer of width `w`. -/
def rowSamples (m : Memory) (w j : Nat) : List Nat := (m.bytes (j * w) w).map BitVec.toNat

/-- Column `x` of a list of rows. -/
def columnOf {α : Type} (d : α) (rows : List (List α)) (x : Nat) : List α := rows.map fun r => r.getD x d

/-- The two passes of R192: every row to `dw` samples, then every column of that to `dh` samples; rows of the result. -/
def resampleRows (m : Memory) (sw sh dw dh : Nat) : List (List Nat) :=
  let inter := (List.range sh).map fun j => resampleLine (rowSamples m sw j) dw
  let cols := (List.range dw).map fun x => resampleLine (columnOf 0 inter x) dh
  (List.range dh).map fun y => columnOf 0 cols y

/-- Procedure `Resize` (R192), while the running command holds `held` bytes of temporaries. The intermediate buffer is
counted while the result is allocated and released with the procedure's end. -/
def State.resample (s : State) (held : Nat) (p : PixelSlot) (dw dh : Nat) : Except Stop PixelSlot :=
  let sw := p.width.toNat
  let sh := p.height.toNat
  if p.validAs formatR8 = false then .error (.plain .invalidArgument)
  else if dw = 0 ∨ dh = 0 then .error (.plain .invalidArgument)
  else if dw = sw ∧ dh = sh then
    if s.canAlloc held p.cap.toNat = false then .error (.plain .outOfMemory)
    else .ok p
  else if (sw = 1 ∧ dw ≠ 1) ∨ (sh = 1 ∧ dh ≠ 1) then .error (.plain .invalidArgument)
  else if s.canAlloc held (dw * sh) = false then .error (.plain .outOfMemory)
  else if s.canAlloc (held + dw * sh) (dw * dh) = false then .error (.plain .outOfMemory)
  else if axisFaults sw dw || axisFaults sh dh then .error (.fault .zeroWeight)
  else .ok (.buffer formatR8 dw dh
    (.ofBytes ((resampleRows p.data sw sh dw dh).flatten.map (BitVec.ofNat 8))))

/-- RESIZE (R191): `ARG1` width, `ARG2` height of the result. -/
def execResize (a b : PixelIdx) (s : State) : Host.Outcome State Fault Refusal :=
  if (s.pixel a).isEmpty = false then .next (s.fail .invalidArgument)
  else .next (s.endCreate a (s.resample 0 (s.pixel b) (s.argNat 1) (s.argNat 2)))

end Sys2Proof.Machine
end

