-- ==== Sys2Proof/Machine/Trig.lean ====
section
/-! DEFINITION. One line of the DCT-II, exactly (spec/44_dct.md R213, R214): integer arithmetic of enough binary digits
that truncating the computed value is truncating the real one (notes/assumptions/5.md). A number `x` is held at scale
`one = 2^Q` as an integer near `x * one`. -/

namespace Sys2Proof.Machine

/-- `one / (k^(2j+1) * (2j+1)) - one / (k^(2j+3) * (2j+3)) + ...`, `terms` terms: arc tangent of `1/k` when called with
`j = 0` and `pow = one / k`. -/
def arctanSum (k : Nat) : Nat → Nat → Nat → Int
  | 0, _, _ => 0
  | terms + 1, j, pow => (pow / (2 * j + 1) : Nat) - arctanSum k terms (j + 1) (pow / (k * k))

/-- The arc tangent of `1/k` at scale `2^Q`. -/
def arctanInv (Q k : Nat) : Int := arctanSum k (Q / 2 + 1) 0 (2 ^ Q / k)

/-- `π` at scale `2^Q`: `π/4 = 4 arctan(1/5) - arctan(1/239)`. -/
def piFixed (Q : Nat) : Int := 16 * arctanInv Q 5 - 4 * arctanInv Q 239

/-- `t + t(iθ)/(j+1) + t(iθ)²/((j+1)(j+2)) + ...`, `terms` terms, as a pair (real part, imaginary part): `exp(iθ)` when
called with `j = 0` and `t = one`. -/
def expSum (one θ : Int) : Nat → Nat → Int → Int × Int
  | 0, _, _ => (0, 0)
  | terms + 1, j, t =>
    let p := expSum one θ terms (j + 1) (t * θ / (one * (j + 1 : Nat)))
    (t - p.2, p.1)

/-- Cosine and sine of `π/(2n)` at scale `2^Q`. -/
def unitAngle (Q n : Nat) : Int × Int :=
  expSum (2 ^ Q) (piFixed Q / (2 * n : Nat)) (Q / 3 + 10) 0 (2 ^ Q)

/-- The cosines of successive multiples of one angle: each entry is the last one turned by `(c, s)`. -/
def turnTable (one c s : Int) : Nat → Int → Int → List Int
  | 0, _, _ => []
  | k + 1, x, y => x :: turnTable one c s k ((x * c - y * s) / one) ((x * s + y * c) / one)

/-- `cos(m π/(2n))` for `m = 0 .. 4n-1` at scale `2^Q`. -/
def cosTable (Q n : Nat) : Array Int :=
  let u := unitAngle Q n
  (turnTable (2 ^ Q) u.1 u.2 (4 * n) (2 ^ Q) 0).toArray

/-- `Σ |in[k]|`. -/
def absSum (xs : List Int) : Nat := (xs.map Int.natAbs).sum

/-- Binary digits `g` with `2^g > 1024 (12M² + 4n + 1)^(2n)`: enough to tell, for a line of length `n` and absolute sum
`M`, a value `X(i)` just below an integer from that integer (Laws/DctExact.lean, notes/assumptions/5.md). -/
def lineDigits (n M : Nat) : Nat := (1024 * (12 * M * M + 4 * n + 1) ^ (2 * n)).log2 + 1

/-- `Σ in[k] cos((2k+1) i π/(2n))` at the table's scale, from index `k` on. -/
def cosSum (tbl : Array Int) (n i : Nat) : Nat → List Int → Int
  | _, [] => 0
  | k, x :: xs => x * tbl.getD ((2 * k + 1) * i % (4 * n)) 0 + cosSum tbl n i (k + 1) xs

/-- `trunc(Σ in[k] / sqrt(n))`, the value of R213 and R214 at `i = 0`: the sign of the sum and the integer part of the
square root of `sum² / n`. -/
def lineDc (n : Nat) (xs : List Int) : Int := xs.sum.sign * isqrt (xs.sum.natAbs ^ 2 / n)

/-- `trunc(sqrt(2/n) Σ in[k] cos((2k+1) i π/(2n)))`, the value of R213 and R214 at `i > 0`, from a table at scale
`2^(2g)` whose entries are within `2^g` of the cosines: the integer part of the square root of `2 sum² / n`, the
sum taken at the upper end of its interval. -/
def lineAc (tbl : Array Int) (g n M i : Nat) (xs : List Int) : Int :=
  let a := cosSum tbl n i 0 xs
  a.sign * isqrt (2 * (a.natAbs + 2 ^ g * M) ^ 2 / (n * 2 ^ (4 * g)))

/-- `DctLine(in[0..N-1])` (R213, R214): output `i` is the exact real value of the formula, truncated toward zero. -/
def dctLine (xs : List Int) : List Int :=
  let n := xs.length
  let M := absSum xs
  let g := lineDigits n M
  let tbl := cosTable (2 * g) n
  (List.range n).map fun i => if i = 0 then lineDc n xs else lineAc tbl g n M i xs

end Sys2Proof.Machine
end

