-- ==== Sys2Proof/Machine/Dct.lean ====
section
/-! DEFINITION. The frequency transform (spec/44_dct.md): a separable 2D DCT-II with truncated signed 32-bit passes. -/

namespace Sys2Proof.Machine

/-- The two passes of R212: every row through `DctLine` into the scratch buffer, then every column of that; rows of the
result. -/
def transformRows (m : Memory) (w h : Nat) : List (List Int) :=
  let scratch := (List.range h).map fun j => dctLine ((rowSamples m w j).map Int.ofNat)
  let cols := (List.range w).map fun i => dctLine (columnOf 0 scratch i)
  (List.range h).map fun y => columnOf 0 cols y

/-- Procedure `Transform` (R212), while the running command holds `held` bytes of temporaries: scratch and output, each
`4*W*H` bytes, are counted together; the scratch buffer is released with the procedure's end. -/
def State.transform (s : State) (held : Nat) (p : PixelSlot) : Except Stop PixelSlot :=
  let w := p.width.toNat
  let h := p.height.toNat
  let n := 4 * w * h
  if p.validAs formatR8 = false then .error (.plain .invalidArgument)
  else if s.canAlloc held n = false then .error (.inner .outOfMemory)
  else if s.canAlloc (held + n) n = false then .error (.inner .outOfMemory)
  else .ok (.buffer formatR32S w h (.ofBytes ((transformRows p.data w h).flatten.flatMap sampleBytes)))

/-- DCT2D (R211). -/
def execDct2d (a b : PixelIdx) (s : State) : Host.Outcome State Fault Refusal :=
  if (s.pixel a).isEmpty = false then .next (s.fail .invalidArgument)
  else .next (s.endCreate a (s.transform 0 (s.pixel b)))

end Sys2Proof.Machine
end

