-- ==== Sys2Proof/Machine/Grayscale.lean ====
section
/-! DEFINITION. The grayscale converter (spec/42_grayscale.md). -/

namespace Sys2Proof.Machine

/-- `gray = (R*1228 + G*2416 + B*450) >> 12` (R182). -/
def luma (r g b : Byte) : Byte :=
  BitVec.ofNat 8 ((r.toNat * 1228 + g.toNat * 2416 + b.toNat * 450) / 2 ^ 12)

/-- Pixel `p` of an `R8G8B8` store is at byte `3p`: red, green, blue (R182, spec/20_memory.md R63). -/
def lumaAt (m : Memory) (p : Nat) : Byte := luma (m.read (3 * p)) (m.read (3 * p + 1)) (m.read (3 * p + 2))

/-- Procedure `Desaturate` (R182), while the running command holds `held` bytes of temporaries. -/
def State.desaturate (s : State) (held : Nat) (p : PixelSlot) : Except Stop PixelSlot :=
  if p.validAs formatR8G8B8 = false then .error (.plain .invalidArgument)
  else
    let n := p.width.toNat * p.height.toNat
    if s.canAlloc held n = false then .error (.plain .outOfMemory)
    else .ok (.buffer formatR8 p.width.toNat p.height.toNat (.ofBytes ((List.range n).map (lumaAt p.data))))

/-- DESAT (R181). -/
def execDesat (a b : PixelIdx) (s : State) : Host.Outcome State Fault Refusal :=
  if (s.pixel a).isEmpty = false then .next (s.fail .invalidArgument)
  else .next (s.endCreate a (s.desaturate 0 (s.pixel b)))

end Sys2Proof.Machine
end

