-- ==== Sys2Proof/Machine/Hash.lean ====
section
/-! DEFINITION. The hash engine (spec/45_hash_quantpack.md): the quantise-and-pack stage, the hash pipeline, and the 64-bit
hash. A procedure that appends to a stream answers the stream and how it ended. -/

namespace Sys2Proof.Machine

/-- `C(i,j)`: the signed sample at column `i`, row `j` (R233). -/
def coeff (p : PixelSlot) (i j : Nat) : Int := p.data.sample32 (4 * (j * p.width.toNat + i))

/-- `blockWidth = width div 4` (R233). -/
def blockWidth (p : PixelSlot) : Nat := p.width.toNat / thumbScale

/-- The top-left block's coefficients in row-major order, the DC term first (R237). -/
def block (p : PixelSlot) : List Int :=
  (List.range (blockWidth p)).flatMap fun j => (List.range (blockWidth p)).map fun i => coeff p i j

/-- The mean of the block without the coefficient at (0,0), truncated toward zero (R234). -/
def blockAverage (p : PixelSlot) : Int :=
  tdiv (block p).tail.sum ((blockWidth p * blockWidth p : Nat) - 1)

/-- `bitsPerPixel = (hashSize*8) div (bw*bw)` before its tests (R235). -/
def bitsPerCoeff (p : PixelSlot) (hashSize : Nat) : Nat := hashSize * 8 / (blockWidth p * blockWidth p)

/-- `twiceMax = 2 * 255 * width * height` (R236). -/
def twiceMax (p : PixelSlot) : Nat := 2 * (255 * p.width.toNat * p.height.toNat)

/-- `qdiv = (2*twiceMax) >> (bpp-1)`, forced to 1 where that is 0 (R236). -/
def quantDivisor (p : PixelSlot) (bpp : Nat) : Nat := max 1 (2 * twiceMax p / 2 ^ (bpp - 1))

/-- The `bpp` bits emitted for a coefficient: `lowbits(tdiv(c - average + twiceMax, qdiv), bpp)` (R237). -/
def quantise (average : Int) (twiceMax qdiv bpp : Nat) (c : Int) : Nat :=
  lowbits (tdiv (c - average + twiceMax) qdiv) bpp

/-- The fields emitted for the block at `bpp` bits per coefficient, the DC term first (R237). -/
def blockFields (p : PixelSlot) (bpp : Nat) : List Nat :=
  let average := blockAverage p
  (block p).map (quantise average (twiceMax p) (quantDivisor p bpp) bpp)

/-- One `StreamWrite` per field, least significant bit first; `true` when every one fitted, else the fields before the
one that did not fit stay appended (R238). -/
def packFields (bpp : Nat) : List Nat → StreamSlot → StreamSlot × Bool
  | [], t => (t, true)
  | e :: es, t =>
    match t.append e.testBit bpp with
    | some t' => packFields bpp es t'
    | none => (t, false)

/-- Procedure `QuantPack` (R233): the output stream after it, and how it stopped, if not by success. -/
def quantPack (p : PixelSlot) (hashSize : Nat) (t : StreamSlot) : StreamSlot × Option Stop :=
  if blockWidth p = 1 then (t, some (.fault .avgEmpty))
  else if bitsPerCoeff p hashSize = 0 then (t, some (.plain .invalidResource))
  else
    let bpp := min bppMax (bitsPerCoeff p hashSize)
    match packFields bpp (blockFields p bpp) t with
    | (t', true) => (t', none)
    | (t', false) => (t', some (.inner .capacityLimit))

/-- The three stages of `Hash` (R232): gray, then small, then coeffs; a stage's failure is wrapped as
`ExecutionFailure`. Each stage runs while the buffers before it are held. -/
def State.hashStages (s : State) (held : Nat) (p : PixelSlot) (thumb : Nat) : Except Stop PixelSlot :=
  match s.desaturate held p with
  | .error e => .error e.wrap
  | .ok gray =>
    match s.resample (held + gray.cap.toNat) gray (thumbScale * thumb) (thumbScale * thumb) with
    | .error e => .error e.wrap
    | .ok small =>
      match s.transform (held + gray.cap.toNat + small.cap.toNat) small with
      | .error e => .error e.wrap
      | .ok coeffs => .ok coeffs

/-- `thumbSize` and `hashSize` with 0 standing for the defaults (R232). -/
def orDefault (v d : Nat) : Nat := if v = 0 then d else v

/-- Procedure `Hash` (R232). -/
def State.hashImage (s : State) (held : Nat) (p : PixelSlot) (thumbSize hashSize : Nat) (t : StreamSlot) :
    StreamSlot × Option Stop :=
  if p.validAs formatR8G8B8 = false then (t, some (.plain .invalidArgument))
  else if p.width.toNat < srcMinDim ∨ p.height.toNat < srcMinDim then (t, some (.plain .invalidArgument))
  else if thumbMax < thumbSize then (t, some (.plain .invalidArgument))
  else if hashSizeMax < hashSize then (t, some (.plain .invalidArgument))
  else
    match s.hashStages held p (orDefault thumbSize thumbDefault) with
    | .error e => (t, some e)
    | .ok coeffs => quantPack coeffs (orDefault hashSize hashSizeDefault) t

/-- The end of a command that appended to stream slot `a`: the stream is stored however the procedure ended
(spec/60_exceptions.md R289). -/
def State.endPack (s : State) (a : StreamIdx) : StreamSlot × Option Stop → State
  | (t, none) => (s.setStream a t).succeed
  | (t, some e) => (s.setStream a t).stop e

/-- QPACK (R241): `ARG1` `hashSize`, taken literally. -/
def execQpack (a : StreamIdx) (b : PixelIdx) (s : State) : Host.Outcome State Fault Refusal :=
  let p := s.pixel b
  if p.validAs formatR32S = false then .next (s.fail .invalidArgument)
  else if blockWidth p = 0 ∨ p.height.toNat < blockWidth p ∨ hashSizeMax < s.argNat 1 then
    .next (s.fail .invalidArgument)
  else .next (s.endPack a (quantPack p (s.argNat 1) (s.stream a)))

/-- HASH (R231): `ARG0` `thumbSize`, `ARG1` `hashSize`. -/
def execHash (a : StreamIdx) (b : PixelIdx) (s : State) : Host.Outcome State Fault Refusal :=
  .next (s.endPack a (s.hashImage 0 (s.pixel b) (s.argNat 0) (s.argNat 1) (s.stream a)))

/-- Bytes of the temporary stream of `Hash64` (R242). -/
def hash64Bytes : Nat := 8

/-- `Hash64` (R242): the 64 bits a hash with `thumbSize = 8`, `hashSize = 8` leaves in a temporary 64-bit stream, stream
bit `b` being bit `b` of the value. -/
def State.hash64 (s : State) (p : PixelSlot) : Except Stop (BitVec 64) :=
  if s.canAlloc 0 hash64Bytes = false then .error (.inner .outOfMemory)
  else
    match s.hashImage hash64Bytes p 8 8 (.fresh hash64Bytes) with
    | (_, some e) => .error e.wrap
    | (t, none) => .ok (BitVec.ofNat 64 (t.data.readLE 0 8))

/-- HASH64 (R242): `RES0` bits 31:0, `RES1` bits 63:32. -/
def execHash64 (b : PixelIdx) (s : State) : Host.Outcome State Fault Refusal :=
  match s.hash64 (s.pixel b) with
  | .ok v => .next (s.succeed (v.extractLsb' 0 32) (v.extractLsb' 32 32))
  | .error e => .next (s.stop e)

end Sys2Proof.Machine
end

