-- ==== Sys2Proof/Machine/Comparator.lean ====
section
/-! DEFINITION. The comparator (spec/46_comparator.md). -/

namespace Sys2Proof.Machine

/-- Bytes of each temporary stream of `CMP` (R261). -/
def cmpBytes : Nat := 32

/-- A default-size hash of an image in a temporary 256-bit stream, while the command holds `held` bytes (R261). -/
def State.defaultHash (s : State) (held : Nat) (p : PixelSlot) : Except Stop StreamSlot :=
  if s.canAlloc held cmpBytes = false then .error (.inner .outOfMemory)
  else
    match s.hashImage (held + cmpBytes) p 0 0 (.fresh cmpBytes) with
    | (_, some e) => .error e.wrap
    | (t, none) => .ok t

/-- The comparison loop (R261): one bit of each stream per turn until either is exhausted, counting equal bits; at most
`fuel` turns. -/
def matchBits : Nat → StreamSlot → StreamSlot → Nat
  | 0, _, _ => 0
  | fuel + 1, t, u =>
    if t.rcur.toNat < t.wcur.toNat ∧ u.rcur.toNat < u.wcur.toNat then
      (if t.data.getBit t.rcur.toNat = u.data.getBit u.rcur.toNat then 1 else 0) +
        matchBits fuel (t.advance 1) (u.advance 1)
    else 0

/-- The matching bits of two images' default hashes (R261): image `p` is hashed completely before `q` is looked at. -/
def State.compareImages (s : State) (p q : PixelSlot) : Except Stop Nat :=
  match s.defaultHash 0 p with
  | .error e => .error e
  | .ok t =>
    match s.defaultHash cmpBytes q with
    | .error e => .error e
    | .ok u =>
      if t.wcur ≠ u.wcur then .error (.inner .success)
      else .ok (matchBits t.wcur.toNat t u)

/-- CMP (R261): `RES0` the similarity `f32(match/256)`, `RES1` the matching bits. -/
def execCmp (b c : PixelIdx) (s : State) : Host.Outcome State Fault Refusal :=
  match s.compareImages (s.pixel b) (s.pixel c) with
  | .ok m => .next (s.succeed (f32Of256ths m) (BitVec.ofNat 32 m))
  | .error e => .next (s.stop e)

/-- `popcount` of a 64-bit value (spec/00_scope.md R9). -/
def popcount64 (v : BitVec 64) : Nat := (List.range 64).countP fun k => v.getLsbD k

/-- The 256ths of `(CMP64_DIV - d) / CMP64_DIV` (R262). -/
def similarity256ths (div : Cmp64Div) (d : Nat) : Nat :=
  match div with
  | .div64 => 256 - 4 * d
  | .div256 => 256 - d

/-- The differing bits of two images' 64-bit hashes (R262). -/
def State.compareImages64 (s : State) (p q : PixelSlot) : Except Stop Nat :=
  match s.hash64 p with
  | .error e => .error e
  | .ok v =>
    match s.hash64 q with
    | .error e => .error e
    | .ok w => .ok (popcount64 (v ^^^ w))

/-- CMP64 (R262): `RES0` the similarity `f32((CMP64_DIV - d)/CMP64_DIV)`, `RES1` the differing bits. -/
def execCmp64 (b c : PixelIdx) (s : State) : Host.Outcome State Fault Refusal :=
  match s.compareImages64 (s.pixel b) (s.pixel c) with
  | .ok d => .next (s.succeed (f32Of256ths (similarity256ths s.cfg.cmp64Div d)) (BitVec.ofNat 32 d))
  | .error e => .next (s.stop e)

end Sys2Proof.Machine
end

