-- ==== Sys2Proof/Machine/Pixel.lean ====
section
/-! DEFINITION. The pixel-buffer commands (spec/40_pixelbuffer.md). The tests of each definition stand in the order of
its rule's pseudocode (spec/60_exceptions.md R296). -/

namespace Sys2Proof.Machine

/-- A zero-filled buffer of format `f` and `w` by `h` pixels, if the pool can hold it (R122, R125). -/
def State.allocZeroed (s : State) (f : Word) (w h : Nat) : Except Stop PixelSlot :=
  if s.canAlloc 0 (bufferBytes f w h) then .ok (.buffer f w h []) else .error (.plain .outOfMemory)

/-- The body of PB_CREATE (R122) for format `f`, width `w`, height `h`. -/
def State.createBuffer (s : State) (a : PixelIdx) (f : Word) (w h : Nat) : Except Stop PixelSlot :=
  if (s.pixel a).isEmpty = false then .error (.plain .invalidArgument)
  else if formatWellformed f = false then .error (.plain .invalidArgument)
  else if formatChannels f = 0 then .error (.plain .invalidArgument)
  else if formatBpp f % 8 ≠ 0 then .error (.plain .invalidArgument)
  else if w = 0 ∨ h = 0 then .error (.plain .invalidArgument)
  else s.allocZeroed f w h

/-- PB_CREATE (R122): `ARG0` format, `ARG1` width, `ARG2` height. -/
def execPbCreate (a : PixelIdx) (s : State) : Host.Outcome State Fault Refusal :=
  .next (s.endCreate a (s.createBuffer a s.arg[0] (s.argNat 1) (s.argNat 2)))

/-- PB_DESTROY (R123): the slot becomes empty; on an empty slot nothing changes. -/
def execPbDestroy (a : PixelIdx) (s : State) : Host.Outcome State Fault Refusal :=
  .next (s.setPixel a .empty).succeed

/-- A deep copy of a buffer, if the pool can hold it (R124). -/
def State.cloneBuffer (s : State) (a b : PixelIdx) : Except Stop PixelSlot :=
  if (s.pixel a).isEmpty = false then .error (.plain .invalidArgument)
  else if (s.pixel b).valid = false then .error (.plain .invalidArgument)
  else if s.canAlloc 0 (s.pixel b).cap.toNat then .ok (s.pixel b)
  else .error (.plain .outOfMemory)

/-- PB_CLONE (R124). -/
def execPbClone (a b : PixelIdx) (s : State) : Host.Outcome State Fault Refusal :=
  .next (s.endCreate a (s.cloneBuffer a b))

/-- The body of PB_REDIM (R125): the old buffer is still counted when the new one is allocated. -/
def State.redimBuffer (s : State) (a : PixelIdx) (w h : Nat) : Except Stop PixelSlot :=
  if (s.pixel a).valid = false then .error (.plain .invalidArgument)
  else if w = 0 ∨ h = 0 then .error (.plain .invalidArgument)
  else s.allocZeroed (s.pixel a).format w h

/-- PB_REDIM (R125): `ARG1` width, `ARG2` height. -/
def execPbRedim (a : PixelIdx) (s : State) : Host.Outcome State Fault Refusal :=
  .next (s.endCreate a (s.redimBuffer a (s.argNat 1) (s.argNat 2)))

/-- PB_PITCH (R126): `RES0` row pitch, `RES1` slice pitch. -/
def execPbPitch (a : PixelIdx) (s : State) : Host.Outcome State Fault Refusal :=
  if (s.pixel a).valid = false then .next (s.fail .invalidArgument)
  else .next (s.succeed (BitVec.ofNat 32 (s.pixel a).rowPitch) (s.pixel a).cap)

/-- PB_BLKOFF (R127): `ARG0` column, `ARG1` row; `RES0` byte offset. -/
def execPbBlkoff (a : PixelIdx) (s : State) : Host.Outcome State Fault Refusal :=
  if (s.pixel a).valid = false then .next (s.fail .invalidArgument)
  else if (s.pixel a).width.toNat ≤ s.argNat 0 ∨ (s.pixel a).height.toNat ≤ s.argNat 1 then
    .next (s.fail .invalidArgument)
  else .next (s.succeed (BitVec.ofNat 32 ((s.pixel a).blockOffset (s.argNat 0) (s.argNat 1))))

end Sys2Proof.Machine
end

