-- ==== Sys2Proof/Machine/Stream.lean ====
section
/-! DEFINITION. The bit-stream commands (spec/41_bitstream.md). Every operand `buf` of the source is `XBUF` from its
offset 0 (R140). -/

namespace Sys2Proof.Machine

/-- BS_RESIZE (R141): the slot is emptied first, "unconditionally"; `ARG0` requested bits, `RES0` granted bits. -/
def execBsResize (a : StreamIdx) (s : State) : Host.Outcome State Fault Refusal :=
  let bits := s.argNat 0
  let s₀ := s.setStream a .empty
  if bits = 0 ∨ bsMaxBits < bits then .next (s₀.fail .invalidArgument)
  else if s₀.canAlloc 0 ((bits + 7) / 8) = false then .next (s₀.fail .outOfMemory)
  else .next ((s₀.setStream a (.fresh ((bits + 7) / 8))).succeed s.arg[0])

/-- BS_DESTROY (R142). -/
def execBsDestroy (a : StreamIdx) (s : State) : Host.Outcome State Fault Refusal :=
  .next (s.setStream a .empty).succeed

/-- The stream BS_LOAD makes of the first `n` bytes of `XBUF`: full and unread (R143). -/
def StreamSlot.loaded (xbuf : Memory) (n : Nat) : StreamSlot :=
  ⟨BitVec.ofNat 32 (8 * n), BitVec.ofNat 32 (8 * n), 0, xbuf.take n⟩

/-- BS_LOAD (R143): `ARG0` byte count. -/
def execBsLoad (a : StreamIdx) (s : State) : Host.Outcome State Fault Refusal :=
  let n := s.argNat 0
  if (s.stream a).isEmpty = false then .next (s.fail .invalidArgument)
  else if n = 0 ∨ s.cfg.xbufBytes < n then .next (s.fail .invalidArgument)
  else if s.canAlloc 0 n = false then .next (s.fail .outOfMemory)
  else .next ((s.setStream a (.loaded s.xbuf n)).succeed)

/-- BS_COPY (R144): cursors, capacity and every byte; copying an empty stream allocates nothing. -/
def execBsCopy (a b : StreamIdx) (s : State) : Host.Outcome State Fault Refusal :=
  if (s.stream a).isEmpty = false then .next (s.fail .invalidArgument)
  else if (s.stream b).capbits ≠ 0 ∧ s.canAlloc 0 (s.stream b).capBytes = false then .next (s.fail .outOfMemory)
  else .next ((s.setStream a (s.stream b)).succeed)

/-- BS_WBIT (R150): the bit `ARG0[0]`. -/
def execBsWbit (a : StreamIdx) (s : State) : Host.Outcome State Fault Refusal :=
  .next (s.endAppend a ((s.stream a).append (fun _ => s.arg[0].getLsbD 0) 1))

/-- BS_WBYTE (R151): the byte `ARG0[7:0]`, bit `k` to stream bit `wcur + k`. -/
def execBsWbyte (a : StreamIdx) (s : State) : Host.Outcome State Fault Refusal :=
  .next (s.endAppend a ((s.stream a).append (fun k => s.arg[0].getLsbD k) 8))

/-- BS_WBITS (R152): `ARG0` bits of `XBUF`. -/
def execBsWbits (a : StreamIdx) (s : State) : Host.Outcome State Fault Refusal :=
  let n := s.argNat 0
  if 8 * s.cfg.xbufBytes < n then .next (s.fail .invalidArgument)
  else .next (s.endAppend a ((s.stream a).append s.xbuf.getBit n))

/-- BS_WBYTES (R153): `ARG0` bytes of `XBUF`. -/
def execBsWbytes (a : StreamIdx) (s : State) : Host.Outcome State Fault Refusal :=
  let n := s.argNat 0
  if s.cfg.xbufBytes < n then .next (s.fail .invalidArgument)
  else .next (s.endAppend a ((s.stream a).append s.xbuf.getBit (8 * n)))

/-- BS_RBIT (R154): `RES0` the bit at the read cursor. -/
def execBsRbit (a : StreamIdx) (s : State) : Host.Outcome State Fault Refusal :=
  let t := s.stream a
  if t.remaining < 1 then .next (s.fail .invalidResource)
  else .next ((s.setStream a (t.advance 1)).succeed ((BitVec.ofBool (t.data.getBit t.rcur.toNat)).setWidth 32))

/-- BS_RBYTE (R155): `RES0` the byte whose bit `k` is the stream's bit `rcur + k`. -/
def execBsRbyte (a : StreamIdx) (s : State) : Host.Outcome State Fault Refusal :=
  let t := s.stream a
  if t.remaining < 8 then .next (s.fail .invalidResource)
  else .next ((s.setStream a (t.advance 8)).succeed
    ((byteOfBits fun k => t.data.getBit (t.rcur.toNat + k)).setWidth 32))

/-- The end of a counted read (R156, R157): `n` bits of slot `a` go to the front of `XBUF`, `RES0` holds `count`. -/
def State.endRead (s : State) (a : StreamIdx) (n count : Nat) : State :=
  let t := s.stream a
  ((s.setXbuf (copyBits s.xbuf 0 t.data t.rcur.toNat n)).setStream a (t.advance n)).succeed
    (BitVec.ofNat 32 count)

/-- BS_RBITS (R156): the count is clamped to what remains before it is tested against `XBUF`. -/
def execBsRbits (a : StreamIdx) (s : State) : Host.Outcome State Fault Refusal :=
  let m := min (s.argNat 0) (s.stream a).remaining
  if 8 * s.cfg.xbufBytes < m then .next (s.fail .invalidArgument)
  else .next (s.endRead a m m)

/-- BS_RBYTES (R157): whole bytes; `CapacityLimit` exactly when clamping left nothing. -/
def execBsRbytes (a : StreamIdx) (s : State) : Host.Outcome State Fault Refusal :=
  let n := s.argNat 0
  let avail := (s.stream a).remaining / 8
  let m := min n avail
  if avail < n ∧ m = 0 then .next (s.fail .capacityLimit)
  else if s.cfg.xbufBytes < m then .next (s.fail .invalidArgument)
  else .next (s.endRead a (8 * m) m)

/-- BS_SEEK (R158): the read cursor, clamped to the write cursor. -/
def execBsSeek (a : StreamIdx) (s : State) : Host.Outcome State Fault Refusal :=
  let t := s.stream a
  .next ((s.setStream a { t with rcur := BitVec.ofNat 32 (min (s.argNat 0) t.wcur.toNat) }).succeed)

/-- Stream equality (R39): both cursors, capacity, and every byte of the store. -/
def StreamSlot.equal (t u : StreamSlot) : Bool :=
  t.capbits == u.capbits && t.wcur == u.wcur && t.rcur == u.rcur &&
    t.data.bytes 0 t.capBytes == u.data.bytes 0 u.capBytes

/-- BS_EQ (R160): `RES0` is 1 if the streams are equal, else 0. -/
def execBsEq (a b : StreamIdx) (s : State) : Host.Outcome State Fault Refusal :=
  .next (s.succeed (if (s.stream a).equal (s.stream b) then 1 else 0))

end Sys2Proof.Machine
end

