-- ==== Sys2Proof/Machine/System.lean ====
section
/-! DEFINITION. The system command (spec/47_system.md). -/

namespace Sys2Proof.Machine

/-- NOP (R275): succeeds and touches no slot, store or `XBUF` byte. -/
def execNop (s : State) : Host.Outcome State Fault Refusal := .next s.succeed

end Sys2Proof.Machine
end

