-- ==== Sys2Proof/Machine/Dispatch.lean ====
section
/-! DEFINITION. The dispatch of a decoded command to its meaning, one arm per row of spec/opcode_table.json. -/

namespace Sys2Proof.Machine

/-- The command accepted for execution (spec/30_encoding.md R93), as its own rule says. -/
def exec (i : Instr) (s : State) : Host.Outcome State Fault Refusal :=
  match i with
  | .nop => Sys2Proof.Machine.execNop s
  | .pbCreate a => Sys2Proof.Machine.execPbCreate a s
  | .pbDestroy a => Sys2Proof.Machine.execPbDestroy a s
  | .pbClone a b => Sys2Proof.Machine.execPbClone a b s
  | .pbRedim a => Sys2Proof.Machine.execPbRedim a s
  | .pbPitch a => Sys2Proof.Machine.execPbPitch a s
  | .pbBlkoff a => Sys2Proof.Machine.execPbBlkoff a s
  | .bsResize a => Sys2Proof.Machine.execBsResize a s
  | .bsDestroy a => Sys2Proof.Machine.execBsDestroy a s
  | .bsLoad a => Sys2Proof.Machine.execBsLoad a s
  | .bsCopy a b => Sys2Proof.Machine.execBsCopy a b s
  | .bsWbit a => Sys2Proof.Machine.execBsWbit a s
  | .bsWbyte a => Sys2Proof.Machine.execBsWbyte a s
  | .bsWbits a => Sys2Proof.Machine.execBsWbits a s
  | .bsWbytes a => Sys2Proof.Machine.execBsWbytes a s
  | .bsRbit a => Sys2Proof.Machine.execBsRbit a s
  | .bsRbyte a => Sys2Proof.Machine.execBsRbyte a s
  | .bsRbits a => Sys2Proof.Machine.execBsRbits a s
  | .bsRbytes a => Sys2Proof.Machine.execBsRbytes a s
  | .bsSeek a => Sys2Proof.Machine.execBsSeek a s
  | .bsEq a b => Sys2Proof.Machine.execBsEq a b s
  | .desat a b => Sys2Proof.Machine.execDesat a b s
  | .resize a b => Sys2Proof.Machine.execResize a b s
  | .dct2d a b => Sys2Proof.Machine.execDct2d a b s
  | .qpack a b => Sys2Proof.Machine.execQpack a b s
  | .hash a b => Sys2Proof.Machine.execHash a b s
  | .hash64 b => Sys2Proof.Machine.execHash64 b s
  | .cmp b c => Sys2Proof.Machine.execCmp b c s
  | .cmp64 b c => Sys2Proof.Machine.execCmp64 b c s

end Sys2Proof.Machine
end

