-- ==== Sys2Proof/Machine/HostPort.lean ====
section
/-! DEFINITION. The host's side of the engine: the register map (spec/10_state.md R22), the data window
(spec/20_memory.md R74 to R77), the write to `CMD` (spec/30_encoding.md R93) and the moves of the host (R20). -/

namespace Sys2Proof.Machine

/-! ## The data window -/

/-- The store `WIN_SEL` selects and its size in bytes; size 0 where the selection names no store (R74). -/
def State.window (s : State) : Memory × Nat :=
  match s.winKind.toNat with
  | 0 => if h : s.winSlot.toNat < 8 then
      let p := s.pixel ⟨s.winSlot.toNat, h⟩; (p.data, p.cap.toNat) else ([], 0)
  | 1 => if h : s.winSlot.toNat < 4 then
      let t := s.stream ⟨s.winSlot.toNat, h⟩; (t.data, t.capBytes) else ([], 0)
  | 2 => if s.winSlot.toNat = 0 then (s.xbuf, s.cfg.xbufBytes) else ([], 0)
  | _ => ([], 0)

/-- "The selection is in range" (R74). -/
def State.windowInRange (s : State) : Bool := decide (s.winOff.toNat < s.window.2)

/-- The selected store replaced; descriptors and cursors unaffected (R76). -/
def State.setWindow (s : State) (m : Memory) : State :=
  match s.winKind.toNat with
  | 0 => if h : s.winSlot.toNat < 8 then
      s.setPixel ⟨s.winSlot.toNat, h⟩ { s.pixel ⟨s.winSlot.toNat, h⟩ with data := m } else s
  | 1 => if h : s.winSlot.toNat < 4 then
      s.setStream ⟨s.winSlot.toNat, h⟩ { s.stream ⟨s.winSlot.toNat, h⟩ with data := m } else s
  | 2 => if s.winSlot.toNat = 0 then s.setXbuf m else s
  | _ => s

/-- `WIN_OFF <- (WIN_OFF + 1) mod 2^32` (R75, R76). -/
def State.bumpWindow (s : State) : State := { s with winOff := s.winOff + 1 }

/-- Host read of `WIN_DATA` (R75, R77): the value returned and the state after. -/
def State.readWindow (s : State) : Word × State :=
  if s.fault.isSome then (0, s)
  else if s.windowInRange then ((s.window.1.read s.winOff.toNat).setWidth 32, s.bumpWindow)
  else (0, s.takeWindowFault)

/-- Host write of `WIN_DATA` (R76, R77). -/
def State.writeWindow (s : State) (v : Word) : State :=
  if s.fault.isSome then s
  else if s.windowInRange then
    (s.setWindow (s.window.1.write s.winOff.toNat (v.extractLsb' 0 8))).bumpWindow
  else s.takeWindowFault

/-! ## The register map -/

/-- The four descriptor registers of a pixel slot, by word number (R22, R30). -/
def PixelSlot.register (p : PixelSlot) : Nat → Word
  | 0 => p.format
  | 1 => p.width
  | 2 => p.height
  | _ => p.cap

/-- The four descriptor registers of a stream slot, by word number (R22, R38). -/
def StreamSlot.register (t : StreamSlot) : Nat → Word
  | 0 => t.capbits
  | 1 => t.wcur
  | 2 => t.rcur
  | _ => t.flagsWord

/-- What a register other than `WIN_DATA` reads as: "reads of every other register are idempotent" (R69). Unlisted
offsets read 0 (R22). -/
def State.register (s : State) (off : Nat) : Word :=
  match off with
  | 0x000 => engineId
  | 0x008 => s.statusWord
  | 0x00C => s.cmd
  | 0x010 => s.arg[0]
  | 0x014 => s.arg[1]
  | 0x018 => s.arg[2]
  | 0x01C => s.arg[3]
  | 0x020 => s.res[0]
  | 0x024 => s.res[1]
  | 0x028 => s.res[2]
  | 0x02C => s.res[3]
  | 0x030 => s.winSelWord
  | 0x034 => s.winOff
  | _ =>
    if h : 0x100 ≤ off ∧ off < 0x180 then
      (s.pixel ⟨(off - 0x100) / 16, by omega⟩).register (off % 16 / 4)
    else if h : 0x200 ≤ off ∧ off < 0x240 then
      (s.stream ⟨(off - 0x200) / 16, by omega⟩).register (off % 16 / 4)
    else 0

/-- A host register read: the value returned and the state after. Only `WIN_DATA` has a side effect (R69). -/
def State.hostRead (s : State) (off : Nat) : Word × State :=
  if off = 0x038 then s.readWindow else (s.register off, s)

/-- `WIN_SEL` keeps bits 3:0 and 9:8 of a write (R22). -/
def State.writeWinSel (s : State) (v : Word) : State :=
  { s with winSlot := v.extractLsb' 0 4, winKind := v.extractLsb' 8 2 }

/-- `ARGi <- v` (R22). -/
def State.writeArg (s : State) (i : Fin 4) (v : Word) : State := { s with arg := s.arg.set i v }

/-- Host write to `CTRL`: bit 0 resets, "a write with bit 0 clear does nothing" (R26, spec/70_reset_and_hazards.md R321). -/
def State.writeCtrl (s : State) (v : Word) : State := if v.getLsbD 0 then s.resetEngine else s

/-- Host write to `CMD` (R93): ignored while `FAULT` is 1; else accepted, decoded, and executed or, for an illegal word,
ended `InvalidArgument` (R98). -/
def State.writeCmd (s : State) (w : Word) : Host.Outcome State Fault Refusal :=
  if s.fault.isSome then .next s
  else match decode w with
    | .ok i => exec i (s.accept w)
    | .error _ => .next ((s.accept w).fail .invalidArgument)

/-- A host register write at an offset of the register space. Read-only and unlisted registers ignore writes (R22). -/
def State.hostWrite (s : State) (off : Nat) (v : Word) : Host.Outcome State Fault Refusal :=
  match off with
  | 0x004 => .next (s.writeCtrl v)
  | 0x00C => s.writeCmd v
  | 0x010 => .next (s.writeArg 0 v)
  | 0x014 => .next (s.writeArg 1 v)
  | 0x018 => .next (s.writeArg 2 v)
  | 0x01C => .next (s.writeArg 3 v)
  | 0x030 => .next (s.writeWinSel v)
  | 0x034 => .next { s with winOff := v }
  | 0x038 => .next (s.writeWindow v)
  | _ => .next s

/-! ## The host's moves -/

/-- An offset is a register access of the interface: a multiple of 4 (R66) inside 0x000 to 0x3FF (R60). -/
def atRegister (off : Nat) (k : Host.Outcome State Fault Refusal) : Host.Outcome State Fault Refusal :=
  if off % 4 ≠ 0 then .refused (.notARegisterAccess off)
  else if 0x400 ≤ off then .fault (.outsideRegisterSpace off)
  else k

/-- One move of the host (R20), performed whole before the next (R80). -/
def hostMove (s : State) : HostMove → Host.Outcome State Fault Refusal
  | .read off => atRegister off (.next { (s.hostRead off).2 with rdata := (s.hostRead off).1 })
  | .write off v => atRegister off (s.hostWrite off v)
  | .reset => .next s.resetEngine

end Sys2Proof.Machine
end

