-- ==== Sys2Proof/Machine/Step.lean ====
section
/-! DEFINITION. One step of the machine: the host's next move, performed whole (spec/10_state.md R20). The engine has no
program counter; its fetch is the host's write to `CMD` (R25). -/

namespace Sys2Proof.Machine

/-- The next move of the host is performed; with no move pending the engine stays as it is, for it "never changes state
on its own" (R20). -/
def step (s : State) : Host.Outcome State Fault Refusal :=
  match s.pending with
  | [] => .next s
  | m :: rest => hostMove { s with pending := rest } m

/-- The state in which the host's next move writes the given command word to `CMD`, so that the next step runs it
(notes/assumptions/1.md). -/
def State.withFetchWord (s : State) (nbits w : Nat) : State :=
  { s with pending := .write 0x00C (BitVec.ofNat 32 (w % 2 ^ nbits)) :: s.pending }

end Sys2Proof.Machine
end

