-- ==== Sys2Proof/Safety.lean ====
section
/-! DEFINITION. What holds of the engine between any two host moves: the slot invariants of spec/10_state.md R31 and R36,
the canonical form of the stores, the pool bound (R46), and what `STATUS` and `RES` can hold (R24,
spec/60_exceptions.md R288 to R290). And the real-number formula of the DCT (spec/44_dct.md R213, R214) and the other terms in which the statements are made. -/

namespace Sys2Proof.Machine

/-- A pixel slot is empty, or valid with `cap = width * height * bpp / 8` and a well-formed byte-aligned format (R31),
its store canonical and inside the capacity. -/
def PixelSlot.inv (p : PixelSlot) : Bool :=
  decide (p = .empty) ||
  (p.valid && formatWellformed p.format && formatBpp p.format % 8 == 0 &&
    p.cap.toNat == bufferBytes p.format p.width.toNat p.height.toNat &&
    p.data.wf && p.data.within p.cap.toNat)

/-- `0 <= rcur <= wcur <= capbits` and `capbits mod 8 = 0` (R36), the store canonical and inside the capacity. -/
def StreamSlot.inv (t : StreamSlot) : Bool :=
  decide (t.rcur.toNat ≤ t.wcur.toNat) && decide (t.wcur.toNat ≤ t.capbits.toNat) && t.capbits.toNat % 8 == 0 &&
    t.data.wf && t.data.within t.capBytes

/-- `PoolUsed <= POOL_BYTES` where the pool is bounded (R46). -/
def State.poolOk (s : State) : Bool :=
  match s.cfg.poolBytes with
  | none => true
  | some p => decide (s.poolUsed ≤ p)

/-- What `STATUS` and `RES` can hold together: `SUBCODE` is never 5 and is 0 unless `CODE` is 5 (R24, R288); the results
are 0 unless `CODE` is 0 (R289); a fault of a command leaves `CODE = 5`, `SUBCODE = 0` (R290). -/
def State.statusOk (s : State) : Bool :=
  s.subcode != .executionFailure &&
  (s.code == .executionFailure || s.subcode == .success) &&
  (s.code == .success || s.res == results 0 0) &&
  (s.fault == none || s.fault == some .winRange || (s.code == .executionFailure && s.subcode == .success))

/-- `z = trunc(x)`: the integer part of `x`, its fraction dropped toward zero (spec/00_scope.md R9). -/
def IsTrunc (x : ℝ) (z : ℤ) : Prop := (0 ≤ x → z = ⌊x⌋) ∧ (x < 0 → z = ⌈x⌉)

/-- `out = DctLine(in)` as spec/44_dct.md R213 and R214 say it, over the real numbers: `out[i]` is the truncation of
`scale(i) * Σ in[k] cos((2k+1) i π / (2N))`, `scale(0) = sqrt(1/N)`, `scale(i) = sqrt(2/N)` for `i > 0`. -/
def IsDctLine (xs out : List Int) : Prop :=
  out.length = xs.length ∧ ∀ i < xs.length,
    IsTrunc (Real.sqrt ((if i = 0 then 1 else 2) / xs.length) *
      ∑ k ∈ Finset.range xs.length, (xs.getD k 0 : ℝ) * Real.cos ((2 * k + 1) * i * Real.pi / (2 * xs.length)))
      (out.getD i 0)

/-- The invariant of the engine between two host moves. `xbufBits`: a stream loaded from a whole `XBUF` has a capacity
that fits its register (R35, notes/assumptions/16.md). -/
structure State.Inv (s : State) : Prop where
  pixels : ∀ k : PixelIdx, (s.pixel k).inv = true
  streams : ∀ k : StreamIdx, (s.stream k).inv = true
  xbufWf : s.xbuf.wf = true
  xbufWithin : s.xbuf.within s.cfg.xbufBytes = true
  xbufSize : 16 ≤ s.cfg.xbufBytes
  xbufBits : 8 * s.cfg.xbufBytes ≤ bsMaxBits
  pool : s.poolOk = true
  status : s.statusOk = true

/-! ## Terms the statements use -/

/-- The pool can hold `n` bytes more (spec/10_state.md R46). -/
def State.poolHas (s : State) (n : Nat) : Prop := ∀ p, s.cfg.poolBytes = some p → s.poolUsed + n ≤ p

/-- `Alloc(n)` succeeds for a command that holds no temporary (R46). -/
def State.allocOk (s : State) (n : Nat) : Prop := n ≤ bufMaxBytes ∧ s.poolHas n

/-- `d'` is `d` with bits `src 0 .. src (n-1)` copied to bit `pos` on and every other bit as it was, the result by which
`CopyBits` is defined (spec/20_memory.md R70). -/
def BitsCopied (d d' : Memory) (pos n : Nat) (src : Nat → Bool) : Prop :=
  ∀ c, d'.getBit c = if pos ≤ c ∧ c < pos + n then src (c - pos) else d.getBit c

/-- The weight numerator of source sample `t` for destination sample `x` of an axis of `n` source and `m` destination
samples (spec/43_resampler.md R193, R194). -/
def coverageWeight (n m x t : Nat) : Nat := sampleWeight (axisRatio n m).1 (axisRatio n m).2 x t

/-- `out = ResampleLine(src, m)` in the form of spec/43_resampler.md R196: the weighted mean over all source samples, no
total weight 0. -/
def IsResampledLine (src out : List Nat) : Prop :=
  ∀ x < out.length,
    0 < ∑ t ∈ Finset.range src.length, coverageWeight src.length out.length x t ∧
    out.getD x 0 = (∑ t ∈ Finset.range src.length, coverageWeight src.length out.length x t * src.getD t 0) /
      ∑ t ∈ Finset.range src.length, coverageWeight src.length out.length x t

/-- An axis of `n` samples can be resampled to `m`: neither radius zero (R193) nor a sample of total weight 0
(`m >= 2n - 1`, R197). -/
def AxisOk (n m : Nat) : Prop := m = 1 ∨ (2 ≤ n ∧ m < 2 * n - 1)

/-- Bits per coefficient after the clamp (spec/45_hash_quantpack.md R235). -/
def packWidth (C : PixelSlot) (hashSize : Nat) : Nat := min bppMax (bitsPerCoeff C hashSize)

/-- Bit `k` of what `QuantPack` emits: bit `k mod bpp` of the field of coefficient number `k div bpp`, the block taken
row by row (R233, R237, R238). -/
def packedBit (C : PixelSlot) (hashSize k : Nat) : Bool :=
  let bw := blockWidth C
  let bpp := packWidth C hashSize
  let c := coeff C (k / bpp % bw) (k / bpp / bw)
  (lowbits (tdiv (c - blockAverage C + twiceMax C) (quantDivisor C bpp)) bpp).testBit (k % bpp)

/-- The gray buffer of an image (spec/42_grayscale.md R182). -/
def grayOf (p : PixelSlot) : PixelSlot :=
  .buffer formatR8 p.width.toNat p.height.toNat
    (.ofBytes ((List.range (p.width.toNat * p.height.toNat)).map (lumaAt p.data)))

/-- The `N` by `N` thumbnail of a gray buffer (R192): a clone where the size is the same already. -/
def thumbOf (g : PixelSlot) (N : Nat) : PixelSlot :=
  if g.width.toNat = N ∧ g.height.toNat = N then g
  else .buffer formatR8 N N
    (.ofBytes ((resampleRows g.data g.width.toNat g.height.toNat N N).flatten.map (BitVec.ofNat 8)))

/-- The coefficient buffer of an `R8` buffer (spec/44_dct.md R212). -/
def coeffsOf (q : PixelSlot) : PixelSlot :=
  .buffer formatR32S q.width.toNat q.height.toNat
    (.ofBytes ((transformRows q.data q.width.toNat q.height.toNat).flatten.flatMap sampleBytes))

/-- The coefficients `Hash` packs for an image and a thumbnail of side `N` (spec/45_hash_quantpack.md R232). -/
def hashCoeffs (p : PixelSlot) (N : Nat) : PixelSlot := coeffsOf (thumbOf (grayOf p) N)

/-- An image the hash commands accept: a valid `R8G8B8` buffer of at least 32 by 32 (R232). -/
def PixelSlot.isImage (p : PixelSlot) : Prop :=
  p.validAs formatR8G8B8 = true ∧ 32 ≤ p.width.toNat ∧ 32 ≤ p.height.toNat

/-- The bytes `Hash` holds when its resize to side `N` has its buffers: the gray buffer, the result and, but for a clone, the
intermediate (R232, spec/43_resampler.md R192). -/
def thumbPeak (p : PixelSlot) (N : Nat) : Nat :=
  p.width.toNat * p.height.toNat + N * N + if p.width.toNat = N ∧ p.height.toNat = N then 0 else N * p.height.toNat

/-- The most bytes `Hash` holds at once for an image and a thumbnail of side `N` (R232). -/
def hashPeak (p : PixelSlot) (N : Nat) : Nat :=
  p.width.toNat * p.height.toNat + N * N + max (N * p.height.toNat) (8 * (N * N))

/-- The pixel slot a command may change (spec/30_encoding.md R92, R97). -/
def pixelDest : Instr → Option PixelIdx
  | .pbCreate a | .pbDestroy a | .pbClone a _ | .pbRedim a | .desat a _ | .resize a _ | .dct2d a _ => some a
  | .nop | .pbPitch _ | .pbBlkoff _ | .bsResize _ | .bsDestroy _ | .bsLoad _ | .bsCopy _ _ | .bsWbit _ | .bsWbyte _
  | .bsWbits _ | .bsWbytes _ | .bsRbit _ | .bsRbyte _ | .bsRbits _ | .bsRbytes _ | .bsSeek _ | .bsEq _ _
  | .qpack _ _ | .hash _ _ | .hash64 _ | .cmp _ _ | .cmp64 _ _ => none

/-- The stream slot a command may change. -/
def streamDest : Instr → Option StreamIdx
  | .bsResize a | .bsDestroy a | .bsLoad a | .bsCopy a _ | .bsWbit a | .bsWbyte a | .bsWbits a | .bsWbytes a
  | .bsRbit a | .bsRbyte a | .bsRbits a | .bsRbytes a | .bsSeek a | .qpack a _ | .hash a _ => some a
  | .nop | .pbCreate _ | .pbDestroy _ | .pbClone _ _ | .pbRedim _ | .pbPitch _ | .pbBlkoff _ | .bsEq _ _ | .desat _ _
  | .resize _ _ | .dct2d _ _ | .hash64 _ | .cmp _ _ | .cmp64 _ _ => none

/-- "Only `BS_RBITS`, `BS_RBYTES` write" `XBUF` (spec/10_state.md R41). -/
def writesXbuf : Instr → Bool
  | .bsRbits _ | .bsRbytes _ => true
  | .nop | .pbCreate _ | .pbDestroy _ | .pbClone _ _ | .pbRedim _ | .pbPitch _ | .pbBlkoff _ | .bsResize _
  | .bsDestroy _ | .bsLoad _ | .bsCopy _ _ | .bsWbit _ | .bsWbyte _ | .bsWbits _ | .bsWbytes _ | .bsRbit _
  | .bsRbyte _ | .bsSeek _ | .bsEq _ _ | .desat _ _ | .resize _ _ | .dct2d _ _ | .qpack _ _ | .hash _ _ | .hash64 _
  | .cmp _ _ | .cmp64 _ _ => false

end Sys2Proof.Machine
end

