-- ==== Sys2Proof/Certificates/Slice0/Obligations.lean ====
section
/-! DEFINITION. The statements for the provers. A next state is written as the old state with the fields the rule names
replaced: every field not named is unchanged, which is the frame. -/

open Sys2Proof Sys2Proof.Machine

/-! ## Encoding -/

/-- R91, R92, R96, R99: every command's word decodes to the command, and a word that decodes to a command is that
command's word, so each command has exactly one word. -/
def Obligations.DecodeInvertsEncode : Prop :=
  (∀ i : Instr, i.wellFormed = true ∧ decode (encode i) = .ok i) ∧
  (∀ (w : Word) (i : Instr), decode w = .ok i → encode i = w)

/-- R93, R96, R98, R92, R296: exactly the legal command words are decoded, and the tests of R93 come in its order:
`RSV`, the opcode, then the fields `A`, `B`, `C`. The spec gives every illegal word one end; the names that tell the
failed tests apart are the model's own (notes/assumptions/13.md). -/
def Obligations.LegalWordsAreExactlyDecoded : Prop :=
  ∀ w : Word,
    ((∃ i, decode w = .ok i) ↔ (CommandWord.ofWord w).wellFormed = true) ∧
    (w.extractLsb' 20 12 ≠ 0 → decode w = .error .reservedBits) ∧
    (w.extractLsb' 20 12 = 0 →
      ((0x07 ≤ (w.extractLsb' 0 8).toNat ∧ (w.extractLsb' 0 8).toNat ≤ 0x0F) ∨ (w.extractLsb' 0 8).toNat = 0x1E ∨
        (w.extractLsb' 0 8).toNat = 0x1F ∨ 0x28 ≤ (w.extractLsb' 0 8).toNat) →
      decode w = .error .unknownOpcode) ∧
    (w.extractLsb' 20 12 = 0 → ∀ f, formatOf (w.extractLsb' 0 8) = some f →
      (f.a.allows (w.extractLsb' 8 4) = false → decode w = .error .fieldA) ∧
      (f.a.allows (w.extractLsb' 8 4) = true → f.b.allows (w.extractLsb' 12 4) = false → decode w = .error .fieldB) ∧
      (f.a.allows (w.extractLsb' 8 4) = true → f.b.allows (w.extractLsb' 12 4) = true →
        f.c.allows (w.extractLsb' 16 4) = false → decode w = .error .fieldC))

/-- Command words written out from R91 and R96, the examples of R100 among them. -/
def Obligations.HandWrittenWordsDecode : Prop :=
  decode 0x00000000 = .ok .nop ∧ decode 0x00000120 = .ok (.desat 1 0) ∧ decode 0x00001221 = .ok (.resize 2 1) ∧
  decode 0x00000024 = .ok (.hash 0 0) ∧ decode 0x00010026 = .ok (.cmp 0 1) ∧ decode 0x00000114 = .ok (.bsWbit 1) ∧
  decode 0x00001203 = .ok (.pbClone 2 1) ∧ decode 0x00077026 = .ok (.cmp 7 7)

/-! ## The write to CMD -/

/-- R93: a step whose host move writes the word of a command to `CMD` runs that command, after `CMD`, `RES0..RES3` and
`SUBCODE` were written. The model's own field `pending` loses the move (notes/assumptions/1.md). -/
def Obligations.StepRunsDecodedCommand : Prop :=
  (∀ (s : State) (w : Word) (i : Instr) (rest : List HostMove),
    s.pending = .write 0x00C w :: rest → s.fault = none → decode w = .ok i →
    step s = exec i { s with pending := rest, cmd := w, res := #v[0, 0, 0, 0], subcode := .success }) ∧
  (∀ (s : State) (i : Instr), s.fault = none →
    step (s.withFetchWord 32 (encode i).toNat) =
      exec i { s with cmd := encode i, res := #v[0, 0, 0, 0], subcode := .success })

/-- R93, R98: an illegal word "is accepted for execution, sets STATUS.CODE = InvalidArgument, clears RES0..RES3 and
SUBCODE, is readable back from CMD, and changes nothing else". The move that is done leaves the model's own field
`pending` (notes/assumptions/1.md). -/
def Obligations.IllegalWordEndsInvalidArgument : Prop :=
  ∀ (s : State) (w : Word) (rest : List HostMove),
    s.pending = .write 0x00C w :: rest → s.fault = none → (CommandWord.ofWord w).wellFormed = false →
    step s = .next { s with
      pending := rest, cmd := w, res := #v[0, 0, 0, 0], subcode := .success, code := .invalidArgument }

/-! ## Reset, faults, the whole machine -/

/-- R52: what every register reads after reset; every slot is empty, every `XBUF` byte 0, `PoolUsed` 0. -/
def Obligations.ResetRegistersRead : Prop :=
  (∀ off, off % 4 = 0 → State.reset.register off =
    if off = 0x000 then 0x494E5331
    else if off = 0x20C ∨ off = 0x21C ∨ off = 0x22C ∨ off = 0x23C then 3 else 0) ∧
  (∀ k, State.reset.pixel k = ⟨0, 0, 0, 0, []⟩) ∧ (∀ k, State.reset.stream k = ⟨0, 0, 0, []⟩) ∧
  (∀ a, State.reset.xbuf.read a = 0) ∧ State.reset.poolUsed = 0 ∧ State.reset.fault = none

/-- R31, R36, R46, R52: the engine's invariant holds right after reset. Its bound on `XBUF_BYTES` and the canonical form of
the stores are the model's (notes/assumptions/4.md, 16.md). -/
def Obligations.ResetMeetsInvariant : Prop := State.reset.Inv

/-- R31, R36, R46, R24, R288, R289: the engine's invariant holds after every step from a state where it holds: slots empty
or valid with the capacity of their size, cursors in order, stores canonical and inside their size, the pool within its
bound, the status fields consistent. Its bound on `XBUF_BYTES` and the canonical form of the stores are the model's
(notes/assumptions/4.md, 16.md). -/
def Obligations.StepKeepsInvariant : Prop :=
  ∀ s t : State, s.Inv → step s = .next t → t.Inv

/-- R26, R320, R321: a write to `CTRL` with bit 0 set, and the platform's reset, put every piece of the engine's state at
its reset value, faulted or not; a write with bit 0 clear does nothing; `CTRL` reads 0. The parameters, the moves to come
and the word last read are the model's own and stay (notes/assumptions/10.md). -/
def Obligations.ResetClearsEngine : Prop :=
  ∀ (s : State) (rest : List HostMove),
    (∀ v : Word, s.pending = .write 0x004 v :: rest → v.getLsbD 0 = true →
      step s = .next { State.reset with cfg := s.cfg, pending := rest, rdata := s.rdata }) ∧
    (∀ v : Word, s.pending = .write 0x004 v :: rest → v.getLsbD 0 = false →
      step s = .next { s with pending := rest }) ∧
    (s.pending = .reset :: rest →
      step s = .next { State.reset with cfg := s.cfg, pending := rest, rdata := s.rdata }) ∧
    s.register 0x004 = 0

/-- R292, R77: while `FAULT` is 1 a write to `CMD` and a write to `WIN_DATA` change nothing, a read of `WIN_DATA` returns
0, every other register is readable, `ARG0..ARG3`, `WIN_SEL` and `WIN_OFF` are writable, and only a reset, which empties
every slot, leaves the fault state. The platform's reset (R320) is one. That the move done leaves `pending`, that the word
read stands in `rdata` and that a reset keeps `cfg`, `pending` and `rdata` are the model's choices
(notes/assumptions/1.md, 2.md, 10.md). -/
def Obligations.FaultedEngineIsFrozen : Prop :=
  ∀ (s : State) (c : FaultCause) (rest : List HostMove), s.fault = some c →
    (∀ w, s.pending = .write 0x00C w :: rest → step s = .next { s with pending := rest }) ∧
    (∀ v, s.pending = .write 0x038 v :: rest → step s = .next { s with pending := rest }) ∧
    (s.pending = .read 0x038 :: rest → step s = .next { s with pending := rest, rdata := 0 }) ∧
    (∀ off, off % 4 = 0 → off < 0x400 → off ≠ 0x038 → s.pending = .read off :: rest →
      step s = .next { s with pending := rest, rdata := s.register off }) ∧
    (∀ (i : Fin 4) (v : Word), s.pending = .write (0x010 + 4 * i.val) v :: rest →
      step s = .next { s with pending := rest, arg := s.arg.set i v }) ∧
    (∀ v, s.pending = .write 0x034 v :: rest → step s = .next { s with pending := rest, winOff := v }) ∧
    (∀ v, s.pending = .write 0x030 v :: rest →
      step s = .next { s with pending := rest, winSlot := v.extractLsb' 0 4, winKind := v.extractLsb' 8 2 }) ∧
    (∀ v, s.pending = .write 0x004 v :: rest → v.getLsbD 0 = true →
      step s = .next { State.reset with cfg := s.cfg, pending := rest, rdata := s.rdata }) ∧
    (∀ t, step s = .next t → t.fault = some c ∨ (∃ v r, s.pending = .write 0x004 v :: r ∧ v.getLsbD 0 = true) ∨
      ∃ r, s.pending = .reset :: r)

/-- R20, R60, R66, R325: every command ends and every register access of the interface has a next state; an access that
is none (misaligned, or outside 0x000 to 0x3FF) stops the model by name (notes/assumptions/7.md). That a step with no
move pending changes nothing is the model's form of R20 (notes/assumptions/1.md, 9.md). -/
def Obligations.EveryRegisterAccessCompletes : Prop :=
  (∀ (i : Instr) (s : State), ∃ t, exec i s = .next t) ∧
  (∀ s : State, s.pending = [] → step s = .next s) ∧
  (∀ (s : State) (rest : List HostMove) (off : Nat) (v : Word),
    (s.pending = .read off :: rest ∨ s.pending = .write off v :: rest) →
      (off % 4 = 0 → off < 0x400 → ∃ t, step s = .next t) ∧
      (off % 4 = 0 → 0x400 ≤ off → step s = .fault (.outsideRegisterSpace off)) ∧
      (off % 4 ≠ 0 → step s = .refused (.notARegisterAccess off)))

/-- R3, R23, R41, R21: a command changes no argument register, no window register, no `CMD`, no pixel slot but its
destination, no stream slot but its own, and `XBUF` only where it is `BS_RBITS` or `BS_RBYTES`; nor does it change the
model's own `cfg`, `pending` and `rdata` (notes/assumptions/1.md, 2.md, 3.md). -/
def Obligations.CommandsTouchOnlyTheirOwn : Prop :=
  ∀ (i : Instr) (s t : State), exec i s = .next t →
    t.arg = s.arg ∧ t.cmd = s.cmd ∧ t.winSlot = s.winSlot ∧ t.winKind = s.winKind ∧ t.winOff = s.winOff ∧
    t.cfg = s.cfg ∧ t.pending = s.pending ∧ t.rdata = s.rdata ∧
    (∀ k, pixelDest i ≠ some k → t.pixel k = s.pixel k) ∧
    (∀ k, streamDest i ≠ some k → t.stream k = s.stream k) ∧
    (writesXbuf i = false → t.xbuf = s.xbuf)

/-- R291: `ZERO_WEIGHT` is raised by `RESIZE`, `HASH` and `CMP` only, `AVG_EMPTY` by `QPACK` and `HASH` only, and no
command raises `WIN_RANGE`. -/
def Obligations.FaultsComeOnlyFromTheirCommands : Prop :=
  ∀ (i : Instr) (s t : State), exec i s = .next t → t.fault ≠ s.fault →
    (t.fault = some .zeroWeight ∧
      ((∃ a b, i = .resize a b) ∨ (∃ a b, i = .hash a b) ∨ ∃ b c, i = .cmp b c)) ∨
    (t.fault = some .avgEmpty ∧ ((∃ a b, i = .qpack a b) ∨ ∃ a b, i = .hash a b))

/-- R289, R290: a command that ends with a non-zero `CODE`, by failure or by fault, has results 0 and has changed no
slot, no `XBUF` byte, no register but the status and the results, and not the pool, with two exceptions: `BS_RESIZE`
leaves its slot empty; `QPACK` and `HASH` ending `ExecutionFailure(CapacityLimit)` leave bits appended, every bit below
the old write cursor as it was. The model's own `cfg`, `pending` and `rdata` stay too (notes/assumptions/1.md, 2.md,
3.md). -/
def Obligations.FailedCommandsChangeNothingElse : Prop :=
  ∀ (i : Instr) (s t : State), s.Inv → exec i s = .next t → t.code ≠ .success →
    t.res = #v[0, 0, 0, 0] ∧ t.pb = s.pb ∧ t.xbuf = s.xbuf ∧ t.arg = s.arg ∧ t.cmd = s.cmd ∧
    t.winSlot = s.winSlot ∧ t.winKind = s.winKind ∧ t.winOff = s.winOff ∧ t.cfg = s.cfg ∧ t.pending = s.pending ∧
    t.rdata = s.rdata ∧
    ((∀ a, i ≠ .bsResize a) → t.poolUsed = s.poolUsed) ∧
    (∀ a, i = .bsResize a → t.poolUsed + (s.stream a).capbits.toNat / 8 = s.poolUsed) ∧
    (match i with
      | .bsResize a => t.bs = s.bs.set a ⟨0, 0, 0, []⟩
      | .qpack a _ | .hash a _ =>
        t.bs = s.bs ∨
        (t.code = .executionFailure ∧ t.subcode = .capacityLimit ∧
          ∃ (d : Memory) (n : Nat), t.bs = s.bs.set a { s.stream a with
              wcur := BitVec.ofNat 32 ((s.stream a).wcur.toNat + n), data := d } ∧
            (s.stream a).wcur.toNat + n ≤ (s.stream a).capbits.toNat ∧
            ∀ c, c < (s.stream a).wcur.toNat ∨ (s.stream a).wcur.toNat + n ≤ c →
              d.getBit c = (s.stream a).data.getBit c)
      | _ => t.bs = s.bs)

/-! ## Registers and the data window -/

/-- R24: the fields of the `STATUS` register, the numbers of R286 and R291 in them. -/
def Obligations.StatusWordFields : Prop :=
  ∀ s : State,
    ((s.register 0x008).extractLsb' 0 4).toNat = (match s.code with
      | .success => 0 | .invalidArgument => 1 | .outOfMemory => 2 | .invalidResource => 3 | .capacityLimit => 4
      | .executionFailure => 5) ∧
    ((s.register 0x008).extractLsb' 4 4).toNat = (match s.subcode with
      | .success => 0 | .invalidArgument => 1 | .outOfMemory => 2 | .invalidResource => 3 | .capacityLimit => 4
      | .executionFailure => 5) ∧
    (s.register 0x008).getLsbD 8 = s.fault.isSome ∧
    ((s.register 0x008).extractLsb' 9 3).toNat = 0 ∧
    ((s.register 0x008).extractLsb' 12 4).toNat = (match s.fault with
      | none => 0 | some .zeroWeight => 1 | some .avgEmpty => 2 | some .winRange => 3) ∧
    ((s.register 0x008).extractLsb' 16 16).toNat = 0

/-- R38: the four descriptor registers of a stream slot; the flags are functions of the cursors and the capacity. -/
def Obligations.StreamDescriptorRegisters : Prop :=
  (∀ (s : State) (k : StreamIdx),
    s.register (0x200 + 0x10 * k.val) = (s.stream k).capbits ∧
    s.register (0x204 + 0x10 * k.val) = (s.stream k).wcur ∧
    s.register (0x208 + 0x10 * k.val) = (s.stream k).rcur ∧
    (s.register (0x20C + 0x10 * k.val)).getLsbD 0 = decide ((s.stream k).rcur = (s.stream k).wcur) ∧
    (s.register (0x20C + 0x10 * k.val)).getLsbD 1 = decide ((s.stream k).wcur = (s.stream k).capbits) ∧
    (s.register (0x20C + 0x10 * k.val)).getLsbD 2 = decide ((s.stream k).capbits ≠ 0) ∧
    (∀ j, 3 ≤ j → (s.register (0x20C + 0x10 * k.val)).getLsbD j = false)) ∧
  StreamSlot.empty.flagsWord = 3

/-- R22, R69: what each register other than `WIN_DATA` reads as, and that the read changes nothing but the model's own
`pending` and `rdata` (notes/assumptions/1.md, 2.md). -/
def Obligations.RegisterReadsAreIdempotent : Prop :=
  (∀ (s : State) (off : Nat) (rest : List HostMove), off % 4 = 0 → off < 0x400 → off ≠ 0x038 →
    s.pending = .read off :: rest → step s = .next { s with pending := rest, rdata := s.register off }) ∧
  (∀ s : State,
    s.register 0x000 = 0x494E5331 ∧ s.register 0x004 = 0 ∧ s.register 0x00C = s.cmd ∧
    (∀ i : Fin 4, s.register (0x010 + 4 * i.val) = s.arg[i] ∧ s.register (0x020 + 4 * i.val) = s.res[i]) ∧
    (s.register 0x030).extractLsb' 0 4 = s.winSlot ∧ (s.register 0x030).extractLsb' 8 2 = s.winKind ∧
    (s.register 0x030) &&& 0xFFFFFCF0 = 0 ∧ s.register 0x034 = s.winOff ∧
    (∀ k : PixelIdx, s.register (0x100 + 0x10 * k.val) = (s.pixel k).format ∧
      s.register (0x104 + 0x10 * k.val) = (s.pixel k).width ∧
      s.register (0x108 + 0x10 * k.val) = (s.pixel k).height ∧
      s.register (0x10C + 0x10 * k.val) = (s.pixel k).cap) ∧
    (∀ off, (0x038 < off ∧ off < 0x100) ∨ (0x180 ≤ off ∧ off < 0x200) ∨ (0x240 ≤ off ∧ off < 0x400) →
      s.register off = 0))

/-- R22: what a write to each register other than `CTRL`, `CMD` and `WIN_DATA` does; read-only and unlisted registers
ignore it. That the move done leaves `pending` is the model's choice (notes/assumptions/1.md). -/
def Obligations.RegisterWritesStore : Prop :=
  ∀ (s : State) (v : Word) (rest : List HostMove),
    (∀ i : Fin 4, s.pending = .write (0x010 + 4 * i.val) v :: rest →
      step s = .next { s with pending := rest, arg := s.arg.set i v }) ∧
    (s.pending = .write 0x030 v :: rest →
      step s = .next { s with pending := rest, winSlot := v.extractLsb' 0 4, winKind := v.extractLsb' 8 2 }) ∧
    (s.pending = .write 0x034 v :: rest → step s = .next { s with pending := rest, winOff := v }) ∧
    (∀ off, off % 4 = 0 → off < 0x400 → (off < 0x004 ∨ off = 0x008 ∨ (0x020 ≤ off ∧ off < 0x030) ∨ 0x03C ≤ off) →
      s.pending = .write off v :: rest → step s = .next { s with pending := rest })

/-- R74, R75, R290: a host read of `WIN_DATA` with `FAULT = 0`, for a pixel store, a stream store, `XBUF`, and a
selection that is not in range (`fault WIN_RANGE`, R290). The word returned stands in the model's own `rdata` and the
move leaves `pending` (notes/assumptions/1.md, 2.md). -/
def Obligations.WindowReadReturnsByte : Prop :=
  ∀ (s : State) (rest : List HostMove), s.pending = .read 0x038 :: rest → s.fault = none →
    (∀ k : PixelIdx, s.winKind = 0 → s.winSlot.toNat = k.val → s.winOff.toNat < (s.pixel k).cap.toNat →
      step s = .next { s with
        pending := rest, winOff := s.winOff + 1,
        rdata := ((s.pixel k).data.read s.winOff.toNat).setWidth 32 }) ∧
    (∀ k : StreamIdx, s.winKind = 1 → s.winSlot.toNat = k.val → s.winOff.toNat < (s.stream k).capbits.toNat / 8 →
      step s = .next { s with
        pending := rest, winOff := s.winOff + 1,
        rdata := ((s.stream k).data.read s.winOff.toNat).setWidth 32 }) ∧
    (s.winKind = 2 → s.winSlot = 0 → s.winOff.toNat < s.cfg.xbufBytes →
      step s = .next { s with
        pending := rest, winOff := s.winOff + 1,
        rdata := (s.xbuf.read s.winOff.toNat).setWidth 32 }) ∧
    ((¬∃ k : PixelIdx, s.winKind = 0 ∧ s.winSlot.toNat = k.val ∧ s.winOff.toNat < (s.pixel k).cap.toNat) →
      (¬∃ k : StreamIdx, s.winKind = 1 ∧ s.winSlot.toNat = k.val ∧ s.winOff.toNat < (s.stream k).capbits.toNat / 8) →
      ¬(s.winKind = 2 ∧ s.winSlot = 0 ∧ s.winOff.toNat < s.cfg.xbufBytes) →
      step s = .next { s with pending := rest, rdata := 0, fault := some .winRange })

/-- R74, R76, R290: a host write of `WIN_DATA` with `FAULT = 0`: that byte of the selected store takes bits 7:0, every
other byte, every descriptor and every cursor stays; a selection not in range stores nothing and faults. The move leaves
the model's own `pending` (notes/assumptions/1.md). -/
def Obligations.WindowWriteStoresByte : Prop :=
  ∀ (s : State) (v : Word) (rest : List HostMove), s.pending = .write 0x038 v :: rest → s.fault = none → s.Inv →
    (∀ k : PixelIdx, s.winKind = 0 → s.winSlot.toNat = k.val → s.winOff.toNat < (s.pixel k).cap.toNat →
      ∃ d : Memory, step s = .next { s with
          pending := rest, winOff := s.winOff + 1,
          pb := s.pb.set k { s.pixel k with data := d } } ∧
        ∀ a, d.read a = if a = s.winOff.toNat then v.extractLsb' 0 8 else (s.pixel k).data.read a) ∧
    (∀ k : StreamIdx, s.winKind = 1 → s.winSlot.toNat = k.val → s.winOff.toNat < (s.stream k).capbits.toNat / 8 →
      ∃ d : Memory, step s = .next { s with
          pending := rest, winOff := s.winOff + 1,
          bs := s.bs.set k { s.stream k with data := d } } ∧
        ∀ a, d.read a = if a = s.winOff.toNat then v.extractLsb' 0 8 else (s.stream k).data.read a) ∧
    (s.winKind = 2 → s.winSlot = 0 → s.winOff.toNat < s.cfg.xbufBytes →
      ∃ d : Memory, step s = .next { s with pending := rest, winOff := s.winOff + 1, xbuf := d } ∧
        ∀ a, d.read a = if a = s.winOff.toNat then v.extractLsb' 0 8 else s.xbuf.read a) ∧
    ((¬∃ k : PixelIdx, s.winKind = 0 ∧ s.winSlot.toNat = k.val ∧ s.winOff.toNat < (s.pixel k).cap.toNat) →
      (¬∃ k : StreamIdx, s.winKind = 1 ∧ s.winSlot.toNat = k.val ∧ s.winOff.toNat < (s.stream k).capbits.toNat / 8) →
      ¬(s.winKind = 2 ∧ s.winSlot = 0 ∧ s.winOff.toNat < s.cfg.xbufBytes) →
      step s = .next { s with pending := rest, fault := some .winRange })

/-! ## System and pixel-buffer commands -/

/-- R275, R123, R142, R158: `NOP`, `PB_DESTROY`, `BS_DESTROY` and `BS_SEEK` succeed in every state: nothing, an empty pixel
slot, an empty stream slot, the read cursor at `min(ARG0, wcur)`. -/
def Obligations.UnconditionalCommandsComplete : Prop :=
  ∀ s : State,
    exec .nop s = .next { s with code := .success, subcode := .success, res := #v[0, 0, 0, 0] } ∧
    (∀ a, exec (.pbDestroy a) s = .next { s with
      code := .success, subcode := .success, res := #v[0, 0, 0, 0],
      pb := s.pb.set a ⟨0, 0, 0, 0, []⟩ }) ∧
    (∀ a, exec (.bsDestroy a) s = .next { s with
      code := .success, subcode := .success, res := #v[0, 0, 0, 0],
      bs := s.bs.set a ⟨0, 0, 0, []⟩ }) ∧
    (∀ a, exec (.bsSeek a) s = .next { s with
      code := .success, subcode := .success, res := #v[0, 0, 0, 0],
      bs := s.bs.set a { s.stream a with
        rcur := if s.arg[0].toNat ≤ (s.stream a).wcur.toNat then s.arg[0] else (s.stream a).wcur } })

/-- R122: `PB_CREATE` puts a zero-filled buffer into an empty slot. -/
def Obligations.PbCreateCompletes : Prop :=
  ∀ (a : PixelIdx) (s : State), (s.pixel a).isEmpty = true → formatWellformed s.arg[0] = true →
    formatChannels s.arg[0] ≠ 0 → formatBpp s.arg[0] % 8 = 0 → s.arg[1] ≠ 0 → s.arg[2] ≠ 0 →
    s.allocOk (s.arg[1].toNat * s.arg[2].toNat * formatBpp s.arg[0] / 8) →
    exec (.pbCreate a) s = .next { s with
      code := .success, subcode := .success, res := #v[0, 0, 0, 0],
      pb := s.pb.set a ⟨s.arg[0], s.arg[1], s.arg[2],
        BitVec.ofNat 32 (s.arg[1].toNat * s.arg[2].toNat * formatBpp s.arg[0] / 8), []⟩ }

/-- R124: `PB_CLONE` copies a valid buffer, format, dimensions, capacity and every byte, into an empty slot. -/
def Obligations.PbCloneCompletes : Prop :=
  ∀ (a b : PixelIdx) (s : State), (s.pixel a).isEmpty = true → (s.pixel b).valid = true →
    s.allocOk (s.pixel b).cap.toNat →
    exec (.pbClone a b) s = .next { s with
      code := .success, subcode := .success, res := #v[0, 0, 0, 0],
      pb := s.pb.set a (s.pixel b) }

/-- R125: `PB_REDIM` keeps the format and gives a zero-filled buffer of the new dimensions. -/
def Obligations.PbRedimCompletes : Prop :=
  ∀ (a : PixelIdx) (s : State), (s.pixel a).valid = true → s.arg[1] ≠ 0 → s.arg[2] ≠ 0 →
    s.allocOk (s.arg[1].toNat * s.arg[2].toNat * formatBpp (s.pixel a).format / 8) →
    exec (.pbRedim a) s = .next { s with
      code := .success, subcode := .success, res := #v[0, 0, 0, 0],
      pb := s.pb.set a ⟨(s.pixel a).format, s.arg[1], s.arg[2],
        BitVec.ofNat 32 (s.arg[1].toNat * s.arg[2].toNat * formatBpp (s.pixel a).format / 8), []⟩ }

/-- R126, R62: `PB_PITCH` returns `width * bpp / 8` and the capacity, and the product of the first with the height is the
second: no bit of either is lost. -/
def Obligations.PbPitchCompletes : Prop :=
  ∀ (a : PixelIdx) (s : State), (s.pixel a).valid = true → (s.pixel a).inv = true →
    ∃ r : Word, exec (.pbPitch a) s = .next { s with
        code := .success, subcode := .success,
        res := #v[r, (s.pixel a).cap, 0, 0] } ∧
      r.toNat = (s.pixel a).width.toNat * formatBpp (s.pixel a).format / 8 ∧
      r.toNat * (s.pixel a).height.toNat = (s.pixel a).cap.toNat

/-- R127, R62: `PB_BLKOFF` returns `rowPitch * j + i * bpp / 8`, and the pixel lies inside the store. -/
def Obligations.PbBlkoffCompletes : Prop :=
  ∀ (a : PixelIdx) (s : State), (s.pixel a).valid = true → (s.pixel a).inv = true →
    s.arg[0].toNat < (s.pixel a).width.toNat → s.arg[1].toNat < (s.pixel a).height.toNat →
    ∃ r : Word, exec (.pbBlkoff a) s = .next { s with code := .success, subcode := .success, res := #v[r, 0, 0, 0] } ∧
      r.toNat = (s.pixel a).width.toNat * formatBpp (s.pixel a).format / 8 * s.arg[1].toNat +
        s.arg[0].toNat * formatBpp (s.pixel a).format / 8 ∧
      r.toNat + formatBpp (s.pixel a).format / 8 ≤ (s.pixel a).cap.toNat

/-- R62, R127: the offset of a pixel is strictly increasing in the row for a fixed column and in the column within a
row. -/
def Obligations.BlockOffsetIncreases : Prop :=
  ∀ p : PixelSlot, p.valid = true → p.inv = true →
    (∀ i j j' : Nat, j < j' → p.blockOffset i j < p.blockOffset i j') ∧
    (∀ i i' j : Nat, i < i' → p.blockOffset i j < p.blockOffset i' j)

/-- R122, R124, R125, R126, R127, R34: when the pixel-buffer commands fail, with which code, in the order of their
tests. -/
def Obligations.PixelCommandsFail : Prop :=
  (∀ (a : PixelIdx) (s : State),
    ((s.pixel a).isEmpty = false ∨ formatWellformed s.arg[0] = false ∨ formatChannels s.arg[0] = 0 ∨
      formatBpp s.arg[0] % 8 ≠ 0 ∨ s.arg[1] = 0 ∨ s.arg[2] = 0 →
      exec (.pbCreate a) s = .next { s with code := .invalidArgument, subcode := .success, res := #v[0, 0, 0, 0] }) ∧
    ((s.pixel a).isEmpty = true → formatWellformed s.arg[0] = true → formatChannels s.arg[0] ≠ 0 →
      formatBpp s.arg[0] % 8 = 0 → s.arg[1] ≠ 0 → s.arg[2] ≠ 0 →
      ¬s.allocOk (s.arg[1].toNat * s.arg[2].toNat * formatBpp s.arg[0] / 8) →
      exec (.pbCreate a) s = .next { s with code := .outOfMemory, subcode := .success, res := #v[0, 0, 0, 0] })) ∧
  (∀ (a b : PixelIdx) (s : State),
    ((s.pixel a).isEmpty = false ∨ (s.pixel b).valid = false →
      exec (.pbClone a b) s = .next { s with code := .invalidArgument, subcode := .success, res := #v[0, 0, 0, 0] }) ∧
    ((s.pixel a).isEmpty = true → (s.pixel b).valid = true → ¬s.allocOk (s.pixel b).cap.toNat →
      exec (.pbClone a b) s = .next { s with code := .outOfMemory, subcode := .success, res := #v[0, 0, 0, 0] })) ∧
  (∀ (a : PixelIdx) (s : State),
    ((s.pixel a).valid = false ∨ s.arg[1] = 0 ∨ s.arg[2] = 0 →
      exec (.pbRedim a) s = .next { s with code := .invalidArgument, subcode := .success, res := #v[0, 0, 0, 0] }) ∧
    ((s.pixel a).valid = true → s.arg[1] ≠ 0 → s.arg[2] ≠ 0 →
      ¬s.allocOk (s.arg[1].toNat * s.arg[2].toNat * formatBpp (s.pixel a).format / 8) →
      exec (.pbRedim a) s = .next { s with code := .outOfMemory, subcode := .success, res := #v[0, 0, 0, 0] }) ∧
    ((s.pixel a).valid = false →
      exec (.pbPitch a) s = .next { s with code := .invalidArgument, subcode := .success, res := #v[0, 0, 0, 0] }) ∧
    ((s.pixel a).valid = false ∨ (s.pixel a).width.toNat ≤ s.arg[0].toNat ∨
      (s.pixel a).height.toNat ≤ s.arg[1].toNat →
      exec (.pbBlkoff a) s = .next { s with code := .invalidArgument, subcode := .success, res := #v[0, 0, 0, 0] }))

/-! ## Bit-stream commands -/

/-- R141: `BS_RESIZE` empties the slot and gives it zero bytes for the requested bits, rounded up; `RES0` holds the
requested count. -/
def Obligations.BsResizeCompletes : Prop :=
  ∀ (a : StreamIdx) (s : State), s.arg[0] ≠ 0 → s.arg[0].toNat ≤ 0xFFFFFFF8 →
    ({ s with bs := s.bs.set a ⟨0, 0, 0, []⟩ } : State).allocOk ((s.arg[0].toNat + 7) / 8) →
    exec (.bsResize a) s = .next { s with
      code := .success, subcode := .success, res := #v[s.arg[0], 0, 0, 0],
      bs := s.bs.set a ⟨BitVec.ofNat 32 (8 * ((s.arg[0].toNat + 7) / 8)), 0, 0, []⟩ }

/-- R141, R289(a): on either failure of `BS_RESIZE` the slot is left empty. -/
def Obligations.BsResizeFailsEmpty : Prop :=
  ∀ (a : StreamIdx) (s : State),
    (s.arg[0] = 0 ∨ 0xFFFFFFF8 < s.arg[0].toNat →
      exec (.bsResize a) s = .next { s with
        code := .invalidArgument, subcode := .success, res := #v[0, 0, 0, 0],
        bs := s.bs.set a ⟨0, 0, 0, []⟩ }) ∧
    (s.arg[0] ≠ 0 → s.arg[0].toNat ≤ 0xFFFFFFF8 →
      ¬({ s with bs := s.bs.set a ⟨0, 0, 0, []⟩ } : State).allocOk ((s.arg[0].toNat + 7) / 8) →
      exec (.bsResize a) s = .next { s with
        code := .outOfMemory, subcode := .success, res := #v[0, 0, 0, 0],
        bs := s.bs.set a ⟨0, 0, 0, []⟩ })

/-- R143, R35: `BS_LOAD` makes a full, unread stream of a deep copy of the first `ARG0` bytes of `XBUF`. The premise
that the capacity is at most `BS_MAX_BITS` (R35) holds for every `ARG0` on an engine whose `XBUF_BYTES` the invariant
bounds (notes/assumptions/16.md). -/
def Obligations.BsLoadCompletes : Prop :=
  ∀ (a : StreamIdx) (s : State), (s.stream a).isEmpty = true → s.arg[0] ≠ 0 → s.arg[0].toNat ≤ s.cfg.xbufBytes →
    8 * s.arg[0].toNat ≤ bsMaxBits → s.allocOk s.arg[0].toNat →
    ∃ d : Memory, exec (.bsLoad a) s = .next { s with
        code := .success, subcode := .success, res := #v[0, 0, 0, 0],
        bs := s.bs.set a ⟨BitVec.ofNat 32 (8 * s.arg[0].toNat), BitVec.ofNat 32 (8 * s.arg[0].toNat), 0, d⟩ } ∧
      ∀ i, d.read i = if i < s.arg[0].toNat then s.xbuf.read i else 0

/-- R144, R160: `BS_COPY` copies capacity, cursors and every byte into an empty slot (an empty source needs no storage),
and `BS_EQ` of copy and original then gives 1. -/
def Obligations.BsCopyCompletes : Prop :=
  ∀ (a b : StreamIdx) (s : State), (s.stream a).isEmpty = true →
    ((s.stream b).capbits = 0 ∨ s.allocOk ((s.stream b).capbits.toNat / 8)) →
    exec (.bsCopy a b) s = .next { s with
      code := .success, subcode := .success, res := #v[0, 0, 0, 0],
      bs := s.bs.set a (s.stream b) } ∧
    ∀ t, exec (.bsCopy a b) s = .next t →
      exec (.bsEq a b) t = .next { t with code := .success, subcode := .success, res := #v[1, 0, 0, 0] }

/-- R145, R150, R151, R152, R153: the write commands append at the write cursor: the new bits are those of the operand,
every other bit of the stream stays, the write cursor advances, the read cursor stays. -/
def Obligations.StreamWritesComplete : Prop :=
  ∀ (a : StreamIdx) (s : State), (s.stream a).inv = true →
    ((s.stream a).wcur.toNat + 1 ≤ (s.stream a).capbits.toNat →
      ∃ d : Memory, exec (.bsWbit a) s = .next { s with
          code := .success, subcode := .success, res := #v[0, 0, 0, 0],
          bs := s.bs.set a { s.stream a with wcur := BitVec.ofNat 32 ((s.stream a).wcur.toNat + 1), data := d } } ∧
        BitsCopied (s.stream a).data d (s.stream a).wcur.toNat 1 (fun _ => s.arg[0].getLsbD 0)) ∧
    ((s.stream a).wcur.toNat + 8 ≤ (s.stream a).capbits.toNat →
      ∃ d : Memory, exec (.bsWbyte a) s = .next { s with
          code := .success, subcode := .success, res := #v[0, 0, 0, 0],
          bs := s.bs.set a { s.stream a with wcur := BitVec.ofNat 32 ((s.stream a).wcur.toNat + 8), data := d } } ∧
        BitsCopied (s.stream a).data d (s.stream a).wcur.toNat 8 s.arg[0].getLsbD) ∧
    (s.arg[0].toNat ≤ 8 * s.cfg.xbufBytes → (s.stream a).wcur.toNat + s.arg[0].toNat ≤ (s.stream a).capbits.toNat →
      ∃ d : Memory, exec (.bsWbits a) s = .next { s with
          code := .success, subcode := .success, res := #v[0, 0, 0, 0],
          bs := s.bs.set a { s.stream a with
            wcur := BitVec.ofNat 32 ((s.stream a).wcur.toNat + s.arg[0].toNat), data := d } } ∧
        BitsCopied (s.stream a).data d (s.stream a).wcur.toNat s.arg[0].toNat s.xbuf.getBit) ∧
    (s.arg[0].toNat ≤ s.cfg.xbufBytes → (s.stream a).wcur.toNat + 8 * s.arg[0].toNat ≤ (s.stream a).capbits.toNat →
      ∃ d : Memory, exec (.bsWbytes a) s = .next { s with
          code := .success, subcode := .success,
          res := #v[0, 0, 0, 0], bs := s.bs.set a { s.stream a with
            wcur := BitVec.ofNat 32 ((s.stream a).wcur.toNat + 8 * s.arg[0].toNat), data := d } } ∧
        BitsCopied (s.stream a).data d (s.stream a).wcur.toNat (8 * s.arg[0].toNat) s.xbuf.getBit)

/-- R154, R155, R156, R157: the read commands deliver the bits at the read cursor and advance it; `BS_RBITS` and
`BS_RBYTES` clamp the count, and bits of `XBUF` from the delivered count upward keep their values. -/
def Obligations.StreamReadsComplete : Prop :=
  ∀ (a : StreamIdx) (s : State), (s.stream a).inv = true → s.xbuf.wf = true →
    (1 ≤ (s.stream a).wcur.toNat - (s.stream a).rcur.toNat →
      exec (.bsRbit a) s = .next { s with
        code := .success, subcode := .success,
        res := #v[if (s.stream a).data.getBit (s.stream a).rcur.toNat then 1 else 0, 0, 0, 0],
        bs := s.bs.set a { s.stream a with rcur := BitVec.ofNat 32 ((s.stream a).rcur.toNat + 1) } }) ∧
    (8 ≤ (s.stream a).wcur.toNat - (s.stream a).rcur.toNat →
      ∃ v : Byte, exec (.bsRbyte a) s = .next { s with
          code := .success, subcode := .success,
          res := #v[v.setWidth 32, 0, 0, 0],
          bs := s.bs.set a { s.stream a with rcur := BitVec.ofNat 32 ((s.stream a).rcur.toNat + 8) } } ∧
        ∀ k < 8, v.getLsbD k = (s.stream a).data.getBit ((s.stream a).rcur.toNat + k)) ∧
    (∀ m, m = min s.arg[0].toNat ((s.stream a).wcur.toNat - (s.stream a).rcur.toNat) → m ≤ 8 * s.cfg.xbufBytes →
      ∃ x : Memory, exec (.bsRbits a) s = .next { s with
          code := .success, subcode := .success,
          res := #v[BitVec.ofNat 32 m, 0, 0, 0], xbuf := x,
          bs := s.bs.set a { s.stream a with rcur := BitVec.ofNat 32 ((s.stream a).rcur.toNat + m) } } ∧
        BitsCopied s.xbuf x 0 m (fun k => (s.stream a).data.getBit ((s.stream a).rcur.toNat + k))) ∧
    (∀ m, m = min s.arg[0].toNat (((s.stream a).wcur.toNat - (s.stream a).rcur.toNat) / 8) →
      (s.arg[0] = 0 ∨ m ≠ 0) → m ≤ s.cfg.xbufBytes →
      ∃ x : Memory, exec (.bsRbytes a) s = .next { s with
          code := .success, subcode := .success,
          res := #v[BitVec.ofNat 32 m, 0, 0, 0], xbuf := x,
          bs := s.bs.set a { s.stream a with rcur := BitVec.ofNat 32 ((s.stream a).rcur.toNat + 8 * m) } } ∧
        BitsCopied s.xbuf x 0 (8 * m) (fun k => (s.stream a).data.getBit ((s.stream a).rcur.toNat + k)))

/-- R143 to R145, R150 to R157: when the stream commands other than `BS_RESIZE` fail and with which code; no cursor, byte
or `XBUF` byte changes. -/
def Obligations.StreamCommandsFail : Prop :=
  ∀ (a : StreamIdx) (s : State),
    ((s.stream a).isEmpty = false ∨ s.arg[0] = 0 ∨ s.cfg.xbufBytes < s.arg[0].toNat →
      exec (.bsLoad a) s = .next { s with code := .invalidArgument, subcode := .success, res := #v[0, 0, 0, 0] }) ∧
    ((s.stream a).isEmpty = false →
      ∀ b, exec (.bsCopy a b) s = .next { s with code := .invalidArgument, subcode := .success, res := #v[0, 0, 0, 0] }) ∧
    ((s.stream a).isEmpty = true → s.arg[0] ≠ 0 → s.arg[0].toNat ≤ s.cfg.xbufBytes → ¬s.allocOk s.arg[0].toNat →
      exec (.bsLoad a) s = .next { s with code := .outOfMemory, subcode := .success, res := #v[0, 0, 0, 0] }) ∧
    ((s.stream a).isEmpty = true →
      ∀ b, (s.stream b).capbits ≠ 0 → ¬s.allocOk ((s.stream b).capbits.toNat / 8) →
        exec (.bsCopy a b) s = .next { s with code := .outOfMemory, subcode := .success, res := #v[0, 0, 0, 0] }) ∧
    ((s.stream a).capbits.toNat < (s.stream a).wcur.toNat + 1 →
      exec (.bsWbit a) s = .next { s with code := .capacityLimit, subcode := .success, res := #v[0, 0, 0, 0] }) ∧
    ((s.stream a).capbits.toNat < (s.stream a).wcur.toNat + 8 →
      exec (.bsWbyte a) s = .next { s with code := .capacityLimit, subcode := .success, res := #v[0, 0, 0, 0] }) ∧
    (8 * s.cfg.xbufBytes < s.arg[0].toNat →
      exec (.bsWbits a) s = .next { s with code := .invalidArgument, subcode := .success, res := #v[0, 0, 0, 0] }) ∧
    (s.arg[0].toNat ≤ 8 * s.cfg.xbufBytes → (s.stream a).capbits.toNat < (s.stream a).wcur.toNat + s.arg[0].toNat →
      exec (.bsWbits a) s = .next { s with code := .capacityLimit, subcode := .success, res := #v[0, 0, 0, 0] }) ∧
    (s.cfg.xbufBytes < s.arg[0].toNat →
      exec (.bsWbytes a) s = .next { s with code := .invalidArgument, subcode := .success, res := #v[0, 0, 0, 0] }) ∧
    (s.arg[0].toNat ≤ s.cfg.xbufBytes → (s.stream a).capbits.toNat < (s.stream a).wcur.toNat + 8 * s.arg[0].toNat →
      exec (.bsWbytes a) s = .next { s with code := .capacityLimit, subcode := .success, res := #v[0, 0, 0, 0] }) ∧
    ((s.stream a).wcur.toNat - (s.stream a).rcur.toNat < 1 →
      exec (.bsRbit a) s = .next { s with code := .invalidResource, subcode := .success, res := #v[0, 0, 0, 0] }) ∧
    ((s.stream a).wcur.toNat - (s.stream a).rcur.toNat < 8 →
      exec (.bsRbyte a) s = .next { s with code := .invalidResource, subcode := .success, res := #v[0, 0, 0, 0] }) ∧
    (8 * s.cfg.xbufBytes < min s.arg[0].toNat ((s.stream a).wcur.toNat - (s.stream a).rcur.toNat) →
      exec (.bsRbits a) s = .next { s with code := .invalidArgument, subcode := .success, res := #v[0, 0, 0, 0] }) ∧
    (s.arg[0] ≠ 0 → ((s.stream a).wcur.toNat - (s.stream a).rcur.toNat) / 8 = 0 →
      exec (.bsRbytes a) s = .next { s with code := .capacityLimit, subcode := .success, res := #v[0, 0, 0, 0] }) ∧
    (s.cfg.xbufBytes < min s.arg[0].toNat (((s.stream a).wcur.toNat - (s.stream a).rcur.toNat) / 8) →
      exec (.bsRbytes a) s = .next { s with code := .invalidArgument, subcode := .success, res := #v[0, 0, 0, 0] })

/-- R160, R39: `BS_EQ` gives 1 exactly when both cursors, the capacity and every byte of the stores agree, the bytes beyond
the write cursor too. -/
def Obligations.BsEqCompletes : Prop :=
  ∀ (a b : StreamIdx) (s : State),
    ((s.stream a).capbits = (s.stream b).capbits ∧ (s.stream a).wcur = (s.stream b).wcur ∧
      (s.stream a).rcur = (s.stream b).rcur ∧
      (∀ i < (s.stream a).capbits.toNat / 8, (s.stream a).data.read i = (s.stream b).data.read i) →
      exec (.bsEq a b) s = .next { s with code := .success, subcode := .success, res := #v[1, 0, 0, 0] }) ∧
    (¬((s.stream a).capbits = (s.stream b).capbits ∧ (s.stream a).wcur = (s.stream b).wcur ∧
      (s.stream a).rcur = (s.stream b).rcur ∧
      (∀ i < (s.stream a).capbits.toNat / 8, (s.stream a).data.read i = (s.stream b).data.read i)) →
      exec (.bsEq a b) s = .next { s with code := .success, subcode := .success, res := #v[0, 0, 0, 0] })

/-- R145, R156, R158, R161, for every `N` that fits `XBUF`: `BS_WBITS` of `N` bits at write cursor `p`, `BS_SEEK` to `p`
and `BS_RBITS` of `N`, `XBUF` overwritten in between, give the pattern back in `XBUF` and `RES0 = N`. -/
def Obligations.WriteSeekReadRoundTrip : Prop :=
  ∀ (a : StreamIdx) (s : State) (N : Word) (x : Memory), (s.stream a).inv = true → x.wf = true →
    N.toNat ≤ 8 * s.cfg.xbufBytes → (s.stream a).wcur.toNat + N.toNat ≤ (s.stream a).capbits.toNat →
    ∃ s₁ s₂ s₃ : State,
      exec (.bsWbits a) { s with arg := s.arg.set 0 N } = .next s₁ ∧
      exec (.bsSeek a) { s₁ with arg := s₁.arg.set 0 (s.stream a).wcur, xbuf := x } = .next s₂ ∧
      exec (.bsRbits a) { s₂ with arg := s₂.arg.set 0 N } = .next s₃ ∧
      s₁.code = .success ∧ s₂.code = .success ∧ s₃.code = .success ∧ s₃.res = #v[N, 0, 0, 0] ∧
      ∀ k < N.toNat, s₃.xbuf.getBit k = s.xbuf.getBit k

/-- R70, R71, R72, R73: `CopyBits` has the result that defines it, and the masked merge and, at byte-aligned offsets, the
byte copy with its remainder give the same store. -/
def Obligations.CopyPathsAgree : Prop :=
  ∀ (dst src : Memory) (dstBit srcBit n : Nat), dst.wf = true →
    BitsCopied dst (copyBits dst dstBit src srcBit n) dstBit n (fun k => src.getBit (srcBit + k)) ∧
    unalignedCopy dst dstBit src srcBit n = copyBits dst dstBit src srcBit n ∧
    (dstBit % 8 = 0 → srcBit % 8 = 0 → alignedCopy dst dstBit src srcBit n = copyBits dst dstBit src srcBit n)

/-! ## The processing commands -/

/-- R181, R182, R63: `DESAT` makes an `R8` buffer of the same dimensions whose every byte is the luma of its pixel. -/
def Obligations.DesatCompletes : Prop :=
  ∀ (a b : PixelIdx) (s : State), (s.pixel a).isEmpty = true → (s.pixel b).validAs 0x00008208 = true →
    s.allocOk ((s.pixel b).width.toNat * (s.pixel b).height.toNat) →
    ∃ d : Memory, exec (.desat a b) s = .next { s with
        code := .success, subcode := .success, res := #v[0, 0, 0, 0],
        pb := s.pb.set a ⟨0x00000008, (s.pixel b).width, (s.pixel b).height,
          BitVec.ofNat 32 ((s.pixel b).width.toNat * (s.pixel b).height.toNat), d⟩ } ∧
      (∀ p < (s.pixel b).width.toNat * (s.pixel b).height.toNat, (d.read p).toNat =
        (((s.pixel b).data.read (3 * p)).toNat * 1228 + ((s.pixel b).data.read (3 * p + 1)).toNat * 2416 +
          ((s.pixel b).data.read (3 * p + 2)).toNat * 450) / 4096) ∧
      ∀ p, (s.pixel b).width.toNat * (s.pixel b).height.toNat ≤ p → d.read p = 0

/-- R182, R183: the luma sum lies in 0 to 1043970 and its shift by 12 in 0 to 254, so no bit is lost; white gives 254, a
gray `(g,g,g)` gives `g - 1` for `g >= 1` and 0 for `g = 0`. -/
def Obligations.LumaRange : Prop :=
  (∀ r g b : Byte, r.toNat * 1228 + g.toNat * 2416 + b.toNat * 450 ≤ 1043970 ∧
    (luma r g b).toNat = (r.toNat * 1228 + g.toNat * 2416 + b.toNat * 450) / 4096 ∧ (luma r g b).toNat ≤ 254) ∧
  luma 255 255 255 = 254 ∧ luma 0 0 0 = 0 ∧ (∀ g : Byte, 1 ≤ g.toNat → (luma g g g).toNat = g.toNat - 1)

/-- R191, R192, R194, R196: `RESIZE` to another size: rows first, then columns of the rows' results, each sample the
weighted mean of R196 truncated. -/
def Obligations.ResizeCompletes : Prop :=
  ∀ (a b : PixelIdx) (s : State), (s.pixel a).isEmpty = true → (s.pixel b).validAs 0x00000008 = true →
    s.arg[1] ≠ 0 → s.arg[2] ≠ 0 → ¬(s.arg[1] = (s.pixel b).width ∧ s.arg[2] = (s.pixel b).height) →
    AxisOk (s.pixel b).width.toNat s.arg[1].toNat → AxisOk (s.pixel b).height.toNat s.arg[2].toNat →
    s.arg[1].toNat * (s.pixel b).height.toNat ≤ bufMaxBytes → s.arg[1].toNat * s.arg[2].toNat ≤ bufMaxBytes →
    s.poolHas (s.arg[1].toNat * (s.pixel b).height.toNat + s.arg[1].toNat * s.arg[2].toNat) →
    ∃ (d : Memory) (row : Nat → List Nat),
      exec (.resize a b) s = .next { s with
        code := .success, subcode := .success, res := #v[0, 0, 0, 0],
        pb := s.pb.set a ⟨0x00000008, s.arg[1], s.arg[2], BitVec.ofNat 32 (s.arg[1].toNat * s.arg[2].toNat), d⟩ } ∧
      (∀ j < (s.pixel b).height.toNat, (row j).length = s.arg[1].toNat ∧
        IsResampledLine ((List.range (s.pixel b).width.toNat).map fun i =>
          ((s.pixel b).data.read (j * (s.pixel b).width.toNat + i)).toNat) (row j)) ∧
      (∀ x < s.arg[1].toNat,
        IsResampledLine ((List.range (s.pixel b).height.toNat).map fun j => (row j).getD x 0)
          ((List.range s.arg[2].toNat).map fun y => (d.read (y * s.arg[1].toNat + x)).toNat)) ∧
      ∀ p, s.arg[1].toNat * s.arg[2].toNat ≤ p → d.read p = 0

/-- R192, R200(a): `RESIZE` to the size the source has gives a clone, the bytes and the descriptor `PB_CLONE` gives. -/
def Obligations.ResizeToSameSizeClones : Prop :=
  ∀ (a b : PixelIdx) (s : State), (s.pixel a).isEmpty = true → (s.pixel b).validAs 0x00000008 = true →
    s.arg[1] = (s.pixel b).width → s.arg[2] = (s.pixel b).height → s.allocOk (s.pixel b).cap.toNat →
    exec (.resize a b) s = .next { s with
      code := .success, subcode := .success, res := #v[0, 0, 0, 0],
      pb := s.pb.set a (s.pixel b) } ∧ exec (.resize a b) s = exec (.pbClone a b) s

/-- R197: some sample of an axis of `n >= 2` samples resampled to `m` has total weight 0 exactly when `m >= 2n - 1`, and
the total weight of sample `x` is 0 exactly when `a < b` and `a <= (x*a) mod b <= b - a`. -/
def Obligations.ZeroWeightCondition : Prop :=
  ∀ n m : Nat, 2 ≤ n → 2 ≤ m →
    ((∃ x < m, ∑ t ∈ Finset.range n, coverageWeight n m x t = 0) ↔ 2 * n - 1 ≤ m) ∧
    (∀ x < m, totalWeight n m x = ∑ t ∈ Finset.range n, coverageWeight n m x t) ∧
    (∀ x < m, totalWeight n m x = 0 ↔
      n - 1 < m - 1 ∧ n - 1 ≤ x * (n - 1) % (m - 1) ∧ x * (n - 1) % (m - 1) ≤ (m - 1) - (n - 1))

/-- R192, R197, R290, R291: `RESIZE` that enlarges an axis of `n` samples to `2n - 1` or more takes the fault
`ZERO_WEIGHT`; nothing but the status fields changes. -/
def Obligations.ResizeTakesZeroWeight : Prop :=
  ∀ (a b : PixelIdx) (s : State), (s.pixel a).isEmpty = true → (s.pixel b).validAs 0x00000008 = true →
    s.arg[1] ≠ 0 → s.arg[2] ≠ 0 → ((s.pixel b).width = 1 → s.arg[1] = 1) → ((s.pixel b).height = 1 → s.arg[2] = 1) →
    ((2 ≤ (s.pixel b).width.toNat ∧ 2 * (s.pixel b).width.toNat - 1 ≤ s.arg[1].toNat) ∨
      (2 ≤ (s.pixel b).height.toNat ∧ 2 * (s.pixel b).height.toNat - 1 ≤ s.arg[2].toNat)) →
    s.arg[1].toNat * (s.pixel b).height.toNat ≤ bufMaxBytes → s.arg[1].toNat * s.arg[2].toNat ≤ bufMaxBytes →
    s.poolHas (s.arg[1].toNat * (s.pixel b).height.toNat + s.arg[1].toNat * s.arg[2].toNat) →
    exec (.resize a b) s = .next { s with
      code := .executionFailure, subcode := .success, res := #v[0, 0, 0, 0],
      fault := some .zeroWeight }

/-- R198, R200: a resampled line lies between the bounds of its source, so a constant line stays constant; an axis of the
same length copies; an axis reduced to one sample keeps the first. -/
def Obligations.ResampledLineProperties : Prop :=
  ∀ (src : List Nat) (m : Nat),
    (∀ lo hi : Nat, (∀ v ∈ src, lo ≤ v ∧ v ≤ hi) → axisFaults src.length m = false →
      ∀ v ∈ resampleLine src m, lo ≤ v ∧ v ≤ hi) ∧
    (2 ≤ src.length → resampleLine src src.length = src) ∧
    (src ≠ [] → resampleLine src 1 = [src.getD 0 0])

/-- R211, R212, R213, R214, R61: `DCT2D` makes an `R32S` buffer of the same dimensions: every row of the source through the
real-number formula of R213 truncated into a scratch buffer, then every column of that into the result, each sample
stored as four bytes, least significant first. -/
def Obligations.Dct2dCompletes : Prop :=
  ∀ (a b : PixelIdx) (s : State), (s.pixel a).isEmpty = true → (s.pixel b).validAs 0x00000008 = true →
    4 * (s.pixel b).width.toNat * (s.pixel b).height.toNat ≤ bufMaxBytes →
    s.poolHas (8 * (s.pixel b).width.toNat * (s.pixel b).height.toNat) →
    ∃ (d : Memory) (scratch : Nat → List Int),
      exec (.dct2d a b) s = .next { s with
        code := .success, subcode := .success, res := #v[0, 0, 0, 0],
        pb := s.pb.set a ⟨0x01000020, (s.pixel b).width, (s.pixel b).height,
          BitVec.ofNat 32 (4 * (s.pixel b).width.toNat * (s.pixel b).height.toNat), d⟩ } ∧
      (∀ j < (s.pixel b).height.toNat,
        IsDctLine ((List.range (s.pixel b).width.toNat).map fun i =>
          (((s.pixel b).data.read (j * (s.pixel b).width.toNat + i)).toNat : Int)) (scratch j)) ∧
      (∀ i < (s.pixel b).width.toNat,
        IsDctLine ((List.range (s.pixel b).height.toNat).map fun j => (scratch j).getD i 0)
          ((List.range (s.pixel b).height.toNat).map fun j => d.sample32 (4 * (j * (s.pixel b).width.toNat + i)))) ∧
      ∀ p, 4 * (s.pixel b).width.toNat * (s.pixel b).height.toNat ≤ p → d.read p = 0

/-- R216: for a line of length `N` whose samples are at most `B` in magnitude, no output of `dctLine` is larger than
`sqrt(2N) B`, the first is at most `sqrt(N) B`, and it is not negative where no sample is. So of the coefficients a
successful `DCT2D` of a `W` by `H` buffer stores none is larger than `510 sqrt(WH)`, each is below `2^24`, and the first
lies between 0 and `255 sqrt(WH)`. -/
def Obligations.DctBounds : Prop :=
  (∀ (xs : List Int) (B : Nat), (∀ x ∈ xs, x.natAbs ≤ B) →
    (∀ y ∈ dctLine xs, y.natAbs ^ 2 ≤ 2 * xs.length * B ^ 2) ∧
    ((dctLine xs).getD 0 0).natAbs ^ 2 ≤ xs.length * B ^ 2 ∧
    ((∀ x ∈ xs, 0 ≤ x) → 0 ≤ (dctLine xs).getD 0 0)) ∧
  (∀ (a b : PixelIdx) (s t : State), exec (.dct2d a b) s = .next t → t.code = .success →
    (∀ i < (s.pixel b).width.toNat, ∀ j < (s.pixel b).height.toNat, (coeff (t.pixel a) i j).natAbs ^ 2
        ≤ 510 ^ 2 * ((s.pixel b).width.toNat * (s.pixel b).height.toNat) ∧
      (coeff (t.pixel a) i j).natAbs < 2 ^ 24) ∧
    0 ≤ coeff (t.pixel a) 0 0 ∧
    (coeff (t.pixel a) 0 0).natAbs ^ 2 ≤ 255 ^ 2 * ((s.pixel b).width.toNat * (s.pixel b).height.toNat))

/-- R181, R191, R192, R211, R212: when the processing commands fail, and with which codes. `RESIZE` ends `OutOfMemory`
where the clone cannot be allocated, and where the intermediate or, beside it, the result cannot. -/
def Obligations.ProcessingCommandsFail : Prop :=
  ∀ (a b : PixelIdx) (s : State),
    ((s.pixel a).isEmpty = false ∨ (s.pixel b).validAs 0x00008208 = false →
      exec (.desat a b) s = .next { s with code := .invalidArgument, subcode := .success, res := #v[0, 0, 0, 0] }) ∧
    ((s.pixel a).isEmpty = true → (s.pixel b).validAs 0x00008208 = true →
      ¬s.allocOk ((s.pixel b).width.toNat * (s.pixel b).height.toNat) →
      exec (.desat a b) s = .next { s with code := .outOfMemory, subcode := .success, res := #v[0, 0, 0, 0] }) ∧
    ((s.pixel a).isEmpty = false ∨ (s.pixel b).validAs 0x00000008 = false ∨ s.arg[1] = 0 ∨ s.arg[2] = 0 ∨
      ((s.pixel b).width = 1 ∧ s.arg[1] ≠ 1) ∨ ((s.pixel b).height = 1 ∧ s.arg[2] ≠ 1) →
      exec (.resize a b) s = .next { s with code := .invalidArgument, subcode := .success, res := #v[0, 0, 0, 0] }) ∧
    ((s.pixel a).isEmpty = true → (s.pixel b).validAs 0x00000008 = true →
      s.arg[1] = (s.pixel b).width → s.arg[2] = (s.pixel b).height → ¬s.allocOk (s.pixel b).cap.toNat →
      exec (.resize a b) s = .next { s with code := .outOfMemory, subcode := .success, res := #v[0, 0, 0, 0] }) ∧
    ((s.pixel a).isEmpty = true → (s.pixel b).validAs 0x00000008 = true → s.arg[1] ≠ 0 → s.arg[2] ≠ 0 →
      ¬(s.arg[1] = (s.pixel b).width ∧ s.arg[2] = (s.pixel b).height) →
      ((s.pixel b).width = 1 → s.arg[1] = 1) → ((s.pixel b).height = 1 → s.arg[2] = 1) →
      ¬(s.arg[1].toNat * (s.pixel b).height.toNat ≤ bufMaxBytes ∧ s.arg[1].toNat * s.arg[2].toNat ≤ bufMaxBytes ∧
        s.poolHas (s.arg[1].toNat * (s.pixel b).height.toNat + s.arg[1].toNat * s.arg[2].toNat)) →
      exec (.resize a b) s = .next { s with code := .outOfMemory, subcode := .success, res := #v[0, 0, 0, 0] }) ∧
    ((s.pixel a).isEmpty = false ∨ (s.pixel b).validAs 0x00000008 = false →
      exec (.dct2d a b) s = .next { s with code := .invalidArgument, subcode := .success, res := #v[0, 0, 0, 0] }) ∧
    ((s.pixel a).isEmpty = true → (s.pixel b).validAs 0x00000008 = true →
      ¬(4 * (s.pixel b).width.toNat * (s.pixel b).height.toNat ≤ bufMaxBytes ∧
        s.poolHas (8 * (s.pixel b).width.toNat * (s.pixel b).height.toNat)) →
      exec (.dct2d a b) s =
        .next { s with code := .executionFailure, subcode := .outOfMemory, res := #v[0, 0, 0, 0] })

/-! ## The hash commands -/

/-- R241, R233 to R238, R240: `QPACK` appends `bpp * bw^2` bits, bit `k` of them being bit `k mod bpp` of the quantised
coefficient number `k div bpp` of the block; every other bit of the stream stays. -/
def Obligations.QpackCompletes : Prop :=
  ∀ (a : StreamIdx) (b : PixelIdx) (s : State), (s.stream a).inv = true → (s.pixel b).validAs 0x01000020 = true →
    2 ≤ (s.pixel b).width.toNat / 4 → (s.pixel b).width.toNat / 4 ≤ (s.pixel b).height.toNat →
    s.arg[1].toNat ≤ 2147483648 → 1 ≤ packWidth (s.pixel b) s.arg[1].toNat →
    (s.stream a).wcur.toNat + packWidth (s.pixel b) s.arg[1].toNat * ((s.pixel b).width.toNat / 4) ^ 2
      ≤ (s.stream a).capbits.toNat →
    ∃ d : Memory, exec (.qpack a b) s = .next { s with
        code := .success, subcode := .success, res := #v[0, 0, 0, 0],
        bs := s.bs.set a { s.stream a with data := d, wcur := BitVec.ofNat 32 ((s.stream a).wcur.toNat +
          packWidth (s.pixel b) s.arg[1].toNat * ((s.pixel b).width.toNat / 4) ^ 2) } } ∧
      BitsCopied (s.stream a).data d (s.stream a).wcur.toNat
        (packWidth (s.pixel b) s.arg[1].toNat * ((s.pixel b).width.toNat / 4) ^ 2)
        (packedBit (s.pixel b) s.arg[1].toNat)

/-- R238, R289, R232: a stream that cannot hold every field keeps the whole fields that fit, the first `j` of the block,
every other bit as it was, and `QPACK` and `HASH` end `ExecutionFailure(CapacityLimit)`. -/
def Obligations.PackCapacityLimit : Prop :=
  (∀ (a : StreamIdx) (b : PixelIdx) (s : State) (j : Nat), (s.stream a).inv = true →
      (s.pixel b).validAs 0x01000020 = true →
      2 ≤ (s.pixel b).width.toNat / 4 → (s.pixel b).width.toNat / 4 ≤ (s.pixel b).height.toNat →
      s.arg[1].toNat ≤ 2147483648 → 1 ≤ packWidth (s.pixel b) s.arg[1].toNat →
      j < ((s.pixel b).width.toNat / 4) ^ 2 →
      (s.stream a).wcur.toNat + packWidth (s.pixel b) s.arg[1].toNat * j ≤ (s.stream a).capbits.toNat →
      (s.stream a).capbits.toNat < (s.stream a).wcur.toNat + packWidth (s.pixel b) s.arg[1].toNat * (j + 1) →
      ∃ d : Memory, exec (.qpack a b) s = .next { s with
          code := .executionFailure, subcode := .capacityLimit,
          res := #v[0, 0, 0, 0], bs := s.bs.set a { s.stream a with
            data := d,
            wcur := BitVec.ofNat 32 ((s.stream a).wcur.toNat + packWidth (s.pixel b) s.arg[1].toNat * j) } } ∧
        BitsCopied (s.stream a).data d (s.stream a).wcur.toNat (packWidth (s.pixel b) s.arg[1].toNat * j)
          (packedBit (s.pixel b) s.arg[1].toNat)) ∧
  (∀ (a : StreamIdx) (b : PixelIdx) (s : State) (t h j : Nat), (s.stream a).inv = true → (s.pixel b).inv = true →
      (s.pixel b).isImage → s.arg[0].toNat ≤ 2900 → s.arg[1].toNat ≤ 2147483648 →
      t = (if s.arg[0] = 0 then 16 else s.arg[0].toNat) → h = (if s.arg[1] = 0 then 32 else s.arg[1].toNat) →
      2 ≤ t → 2 * t < (s.pixel b).width.toNat → 2 * t < (s.pixel b).height.toNat → t ^ 2 ≤ h * 8 →
      4 * t * (s.pixel b).height.toNat ≤ bufMaxBytes → s.poolHas (hashPeak (s.pixel b) (4 * t)) →
      j < t ^ 2 → (s.stream a).wcur.toNat + min 32 (h * 8 / t ^ 2) * j ≤ (s.stream a).capbits.toNat →
      (s.stream a).capbits.toNat < (s.stream a).wcur.toNat + min 32 (h * 8 / t ^ 2) * (j + 1) →
      ∃ d : Memory, exec (.hash a b) s = .next { s with
          code := .executionFailure, subcode := .capacityLimit,
          res := #v[0, 0, 0, 0], bs := s.bs.set a { s.stream a with
            data := d, wcur := BitVec.ofNat 32 ((s.stream a).wcur.toNat + min 32 (h * 8 / t ^ 2) * j) } } ∧
        BitsCopied (s.stream a).data d (s.stream a).wcur.toNat (min 32 (h * 8 / t ^ 2) * j)
          (packedBit (hashCoeffs (s.pixel b) (4 * t)) h))

/-- R241, R233 to R235, R296: when `QPACK` ends otherwise: `InvalidArgument`, the fault `AVG_EMPTY` for a block of one
coefficient (tested before the bits per coefficient), `InvalidResource` for no bits per coefficient. -/
def Obligations.QpackStops : Prop :=
  ∀ (a : StreamIdx) (b : PixelIdx) (s : State),
    ((s.pixel b).validAs 0x01000020 = false ∨ (s.pixel b).width.toNat / 4 = 0 ∨
      (s.pixel b).height.toNat < (s.pixel b).width.toNat / 4 ∨ 2147483648 < s.arg[1].toNat →
      exec (.qpack a b) s = .next { s with code := .invalidArgument, subcode := .success, res := #v[0, 0, 0, 0] }) ∧
    ((s.pixel b).validAs 0x01000020 = true → (s.pixel b).width.toNat / 4 = 1 → s.arg[1].toNat ≤ 2147483648 →
      exec (.qpack a b) s = .next { s with
        code := .executionFailure, subcode := .success, res := #v[0, 0, 0, 0],
        fault := some .avgEmpty }) ∧
    ((s.pixel b).validAs 0x01000020 = true → 2 ≤ (s.pixel b).width.toNat / 4 →
      (s.pixel b).width.toNat / 4 ≤ (s.pixel b).height.toNat → s.arg[1].toNat ≤ 2147483648 →
      s.arg[1].toNat * 8 < ((s.pixel b).width.toNat / 4) ^ 2 →
      exec (.qpack a b) s = .next { s with code := .invalidResource, subcode := .success, res := #v[0, 0, 0, 0] })

/-- R231, R232, R240: `HASH` of an accepted image: the packed bits of the coefficients of the thumbnail of its gray image
are appended, `thumbSize = 0` standing for 16 and `hashSize = 0` for 32. -/
def Obligations.HashCompletes : Prop :=
  ∀ (a : StreamIdx) (b : PixelIdx) (s : State) (t h : Nat), (s.stream a).inv = true → (s.pixel b).inv = true →
    (s.pixel b).isImage → s.arg[0].toNat ≤ 2900 → s.arg[1].toNat ≤ 2147483648 →
    t = (if s.arg[0] = 0 then 16 else s.arg[0].toNat) → h = (if s.arg[1] = 0 then 32 else s.arg[1].toNat) →
    2 ≤ t → 2 * t < (s.pixel b).width.toNat → 2 * t < (s.pixel b).height.toNat → t ^ 2 ≤ h * 8 →
    4 * t * (s.pixel b).height.toNat ≤ bufMaxBytes → s.poolHas (hashPeak (s.pixel b) (4 * t)) →
    (s.stream a).wcur.toNat + min 32 (h * 8 / t ^ 2) * t ^ 2 ≤ (s.stream a).capbits.toNat →
    ∃ d : Memory, exec (.hash a b) s = .next { s with
        code := .success, subcode := .success, res := #v[0, 0, 0, 0],
        bs := s.bs.set a { s.stream a with
          data := d,
          wcur := BitVec.ofNat 32 ((s.stream a).wcur.toNat + min 32 (h * 8 / t ^ 2) * t ^ 2) } } ∧
      BitsCopied (s.stream a).data d (s.stream a).wcur.toNat (min 32 (h * 8 / t ^ 2) * t ^ 2)
        (packedBit (hashCoeffs (s.pixel b) (4 * t)) h)

/-- R230, R232: `HASH` is the four stage commands in a row: where `DESAT`, `RESIZE` to `4 * thumbSize` square, `DCT2D` and
`QPACK` succeed one after the other on slots of their own, `HASH` of the image with the same sizes succeeds and
leaves the same stream. The pool is unbounded. -/
def Obligations.HashIsTheStagesInARow : Prop :=
  ∀ (a : StreamIdx) (b x y z : PixelIdx) (s s₁ s₂ s₃ s₄ : State), s.Inv → s.cfg.poolBytes = none →
    (s.pixel b).isImage → s.arg[0] ≠ 0 → s.arg[0].toNat ≤ 2900 → s.arg[1] ≠ 0 → s.arg[1].toNat ≤ 2147483648 →
    exec (.desat x b) s = .next s₁ → s₁.code = .success →
    exec (.resize y x) { s₁ with arg := #v[0, 4 * s.arg[0], 4 * s.arg[0], 0] } = .next s₂ → s₂.code = .success →
    exec (.dct2d z y) s₂ = .next s₃ → s₃.code = .success →
    exec (.qpack a z) { s₃ with arg := s.arg } = .next s₄ → s₄.code = .success →
    ∃ t, exec (.hash a b) s = .next t ∧ t.code = .success ∧ t.stream a = s₄.stream a

/-- R232, R235, R197, R234, R291, R296: the ends of `HASH` other than success and a full stream: `InvalidArgument` for a
size out of range; for an accepted image, in the order of its stages, `ExecutionFailure(OutOfMemory)` where the gray
buffer or the resize cannot be allocated, the fault `ZERO_WEIGHT` where a side is at most twice `thumbSize`,
`ExecutionFailure(OutOfMemory)` where the transform cannot be allocated, the fault `AVG_EMPTY` for `thumbSize = 1`, and
`InvalidResource` where `hashSize` gives no bit per coefficient. -/
def Obligations.HashStops : Prop :=
  (∀ (a : StreamIdx) (b : PixelIdx) (s : State), 2900 < s.arg[0].toNat ∨ 2147483648 < s.arg[1].toNat →
    exec (.hash a b) s = .next { s with code := .invalidArgument, subcode := .success, res := #v[0, 0, 0, 0] }) ∧
  ∀ (a : StreamIdx) (b : PixelIdx) (s : State) (t h : Nat), (s.pixel b).inv = true → (s.pixel b).isImage →
    s.arg[0].toNat ≤ 2900 → s.arg[1].toNat ≤ 2147483648 →
    t = (if s.arg[0] = 0 then 16 else s.arg[0].toNat) → h = (if s.arg[1] = 0 then 32 else s.arg[1].toNat) →
    (¬(4 * t * (s.pixel b).height.toNat ≤ bufMaxBytes ∧ s.poolHas (thumbPeak (s.pixel b) (4 * t))) →
      exec (.hash a b) s = .next { s with
        code := .executionFailure, subcode := .outOfMemory, res := #v[0, 0, 0, 0] }) ∧
    (4 * t * (s.pixel b).height.toNat ≤ bufMaxBytes → s.poolHas (thumbPeak (s.pixel b) (4 * t)) →
      (s.pixel b).width.toNat ≤ 2 * t ∨ (s.pixel b).height.toNat ≤ 2 * t →
      exec (.hash a b) s = .next { s with
        code := .executionFailure, subcode := .success, res := #v[0, 0, 0, 0],
        fault := some .zeroWeight }) ∧
    (2 * t < (s.pixel b).width.toNat → 2 * t < (s.pixel b).height.toNat →
      ¬s.poolHas (hashPeak (s.pixel b) (4 * t)) →
      exec (.hash a b) s = .next { s with
        code := .executionFailure, subcode := .outOfMemory, res := #v[0, 0, 0, 0] }) ∧
    (t = 1 → s.poolHas (hashPeak (s.pixel b) 4) → 4 * (s.pixel b).height.toNat ≤ bufMaxBytes →
      exec (.hash a b) s = .next { s with
        code := .executionFailure, subcode := .success, res := #v[0, 0, 0, 0],
        fault := some .avgEmpty }) ∧
    (2 ≤ t → 2 * t < (s.pixel b).width.toNat → 2 * t < (s.pixel b).height.toNat → h * 8 < t ^ 2 →
      4 * t * (s.pixel b).height.toNat ≤ bufMaxBytes → s.poolHas (hashPeak (s.pixel b) (4 * t)) →
      exec (.hash a b) s = .next { s with code := .invalidResource, subcode := .success, res := #v[0, 0, 0, 0] })

/-- R232, R242, R261, R262, R288: a source that is no image of at least 32 by 32 ends `HASH` with `InvalidArgument` and
the three commands built on it with `ExecutionFailure(InvalidArgument)`, the second image of `CMP` and `CMP64` after an
accepted first one as well; where a temporary stream or a stage of either hash cannot be allocated, the three end
`ExecutionFailure(OutOfMemory)`. -/
def Obligations.HashCommandsFail : Prop :=
  (∀ (a : StreamIdx) (b : PixelIdx) (s : State), ¬(s.pixel b).isImage →
    exec (.hash a b) s = .next { s with code := .invalidArgument, subcode := .success, res := #v[0, 0, 0, 0] }) ∧
  (∀ (b c : PixelIdx) (s : State),
    (¬(s.pixel b).isImage → s.poolHas 8 →
      exec (.hash64 b) s =
        .next { s with code := .executionFailure, subcode := .invalidArgument, res := #v[0, 0, 0, 0] } ∧
      exec (.cmp64 b c) s =
        .next { s with code := .executionFailure, subcode := .invalidArgument, res := #v[0, 0, 0, 0] }) ∧
    (¬(s.pixel b).isImage → s.poolHas 32 →
      exec (.cmp b c) s =
        .next { s with code := .executionFailure, subcode := .invalidArgument, res := #v[0, 0, 0, 0] }) ∧
    (¬s.poolHas 8 ∨ ((s.pixel b).inv = true ∧ (s.pixel b).isImage ∧ ¬s.poolHas (8 + hashPeak (s.pixel b) 32)) →
      exec (.hash64 b) s =
        .next { s with code := .executionFailure, subcode := .outOfMemory, res := #v[0, 0, 0, 0] } ∧
      exec (.cmp64 b c) s =
        .next { s with code := .executionFailure, subcode := .outOfMemory, res := #v[0, 0, 0, 0] }) ∧
    (¬s.poolHas 32 ∨ ((s.pixel b).inv = true ∧ (s.pixel b).isImage ∧
        (¬s.poolHas (32 + thumbPeak (s.pixel b) 64) ∨
          (33 ≤ (s.pixel b).width.toNat ∧ 33 ≤ (s.pixel b).height.toNat ∧
            ¬s.poolHas (32 + hashPeak (s.pixel b) 64)))) →
      exec (.cmp b c) s =
        .next { s with code := .executionFailure, subcode := .outOfMemory, res := #v[0, 0, 0, 0] })) ∧
  (∀ (b c : PixelIdx) (s : State), (s.pixel b).inv = true → (s.pixel b).isImage →
    s.poolHas (8 + hashPeak (s.pixel b) 32) →
    (¬(s.pixel c).isImage → exec (.cmp64 b c) s =
      .next { s with code := .executionFailure, subcode := .invalidArgument, res := #v[0, 0, 0, 0] }) ∧
    ((s.pixel c).inv = true → (s.pixel c).isImage → ¬s.poolHas (8 + hashPeak (s.pixel c) 32) →
      exec (.cmp64 b c) s =
        .next { s with code := .executionFailure, subcode := .outOfMemory, res := #v[0, 0, 0, 0] })) ∧
  (∀ (b c : PixelIdx) (s : State), (s.pixel b).inv = true → (s.pixel b).isImage →
    33 ≤ (s.pixel b).width.toNat → 33 ≤ (s.pixel b).height.toNat → s.poolHas (32 + hashPeak (s.pixel b) 64) →
    (¬(s.pixel c).isImage → exec (.cmp b c) s =
      .next { s with code := .executionFailure, subcode := .invalidArgument, res := #v[0, 0, 0, 0] }) ∧
    ((s.pixel c).inv = true → (s.pixel c).isImage →
      (¬s.poolHas (64 + thumbPeak (s.pixel c) 64) ∨
        (33 ≤ (s.pixel c).width.toNat ∧ 33 ≤ (s.pixel c).height.toNat ∧
          ¬s.poolHas (64 + hashPeak (s.pixel c) 64))) →
      exec (.cmp b c) s =
        .next { s with code := .executionFailure, subcode := .outOfMemory, res := #v[0, 0, 0, 0] }))

/-- R242, R244: `HASH64` of every accepted image succeeds and gives 0. -/
def Obligations.Hash64GivesZero : Prop :=
  ∀ (b : PixelIdx) (s : State), (s.pixel b).inv = true → (s.pixel b).isImage →
    s.poolHas (8 + hashPeak (s.pixel b) 32) →
    exec (.hash64 b) s = .next { s with code := .success, subcode := .success, res := #v[0, 0, 0, 0] }

/-- R261, R263(c), R263(d): `CMP` of any two accepted images of more than 32 samples on each side gives 256 matching bits
and the similarity 1.0. -/
def Obligations.CmpGivesOne : Prop :=
  ∀ (b c : PixelIdx) (s : State), (s.pixel b).inv = true → (s.pixel c).inv = true →
    (s.pixel b).isImage → (s.pixel c).isImage →
    33 ≤ (s.pixel b).width.toNat → 33 ≤ (s.pixel b).height.toNat → 33 ≤ (s.pixel c).width.toNat →
    33 ≤ (s.pixel c).height.toNat →
    s.poolHas (32 + hashPeak (s.pixel b) 64) → s.poolHas (64 + hashPeak (s.pixel c) 64) →
    exec (.cmp b c) s = .next { s with code := .success, subcode := .success, res := #v[0x3F800000, 256, 0, 0] }

/-- R261, R197, R291: `CMP` takes the fault `ZERO_WEIGHT` where its first image is 32 samples wide or high, and where
its second is, after a first image that is not. -/
def Obligations.CmpTakesZeroWeight : Prop :=
  ∀ (b c : PixelIdx) (s : State), (s.pixel b).inv = true → (s.pixel b).isImage →
    ((s.pixel b).width.toNat = 32 ∨ (s.pixel b).height.toNat = 32 → s.poolHas (32 + thumbPeak (s.pixel b) 64) →
      exec (.cmp b c) s = .next { s with
        code := .executionFailure, subcode := .success, res := #v[0, 0, 0, 0],
        fault := some .zeroWeight }) ∧
    (33 ≤ (s.pixel b).width.toNat → 33 ≤ (s.pixel b).height.toNat → s.poolHas (32 + hashPeak (s.pixel b) 64) →
      (s.pixel c).inv = true → (s.pixel c).isImage →
      (s.pixel c).width.toNat = 32 ∨ (s.pixel c).height.toNat = 32 → s.poolHas (64 + thumbPeak (s.pixel c) 64) →
      exec (.cmp b c) s = .next { s with
        code := .executionFailure, subcode := .success, res := #v[0, 0, 0, 0],
        fault := some .zeroWeight })

/-- R262, R263(a), R263(b), R263(d): `CMP64` of any two accepted images gives 0 differing bits and the similarity 1.0,
whichever divisor the machine has. -/
def Obligations.Cmp64GivesOne : Prop :=
  ∀ (b c : PixelIdx) (s : State), (s.pixel b).inv = true → (s.pixel c).inv = true →
    (s.pixel b).isImage → (s.pixel c).isImage →
    s.poolHas (8 + hashPeak (s.pixel b) 32) → s.poolHas (8 + hashPeak (s.pixel c) 32) →
    exec (.cmp64 b c) s = .next { s with code := .success, subcode := .success, res := #v[0x3F800000, 0, 0, 0] }

/-- R13, R262: the pattern `f32(k/256)` has sign 0 and, read as a binary32 number, the value `k/256`; the similarity of
`CMP64` is `(64 - d)/64` or `(256 - d)/256`. -/
def Obligations.SimilarityPatterns : Prop :=
  (∀ k, 1 ≤ k → k ≤ 256 →
    (2 ^ 23 + (f32Of256ths k).toNat % 2 ^ 23) * 2 ^ ((f32Of256ths k).toNat / 2 ^ 23) = k * 2 ^ 142) ∧
  f32Of256ths 0 = 0 ∧
  (∀ d ≤ 64, 64 * similarity256ths .div64 d = 256 * (64 - d) ∧ similarity256ths .div256 d = 256 - d)
end

