-- ==== Sys2Proof/Laws/DctNorm.lean ====
section
/-! SUPPORT. A lower bound for an integer combination of roots of unity that is not zero: the number-theoretic part of the
exactness of `dctLine`. -/

namespace Sys2Proof.Laws

open Polynomial

/-- Half of the numbers below an even number at most are prime to it. -/
theorem totient_four_mul_le (n : Nat) : Nat.totient (4 * n) ≤ 2 * n := by
  rw [Nat.totient_eq_card_coprime]
  calc _ ≤ ((Finset.range (2 * n)).image fun k => 2 * k + 1).card := by
        apply Finset.card_le_card
        intro a ha
        simp only [Finset.mem_filter, Finset.mem_range] at ha
        obtain ⟨hlt, hc⟩ := ha
        have hodd : a % 2 = 1 := by
          by_contra h
          have h2 : 2 ∣ a := by omega
          have h4 : 2 ∣ 4 * n := ⟨2 * n, by ring⟩
          have := Nat.dvd_gcd h4 h2
          rw [hc] at this
          omega
        simp only [Finset.mem_image, Finset.mem_range]
        exact ⟨a / 2, by omega, by omega⟩
    _ ≤ (Finset.range (2 * n)).card := Finset.card_image_le
    _ = 2 * n := Finset.card_range _

/-- `one_le_norm_mul_pow` in a given cyclotomic field. -/
theorem one_le_norm_mul_pow_in (K : Type) [Field K] [Algebra ℚ K] [CharZero K] {N : ℕ} [NeZero N]
    [IsCyclotomicExtension {N} ℚ K] {ζ : ℂ} (hζ : IsPrimitiveRoot ζ N) (P : ℤ[X]) {B : ℝ}
    (hle : ∀ w : ℂ, w ^ N = 1 → ‖aeval w P‖ ≤ B) (h0 : aeval ζ P ≠ 0) :
    1 ≤ ‖aeval ζ P‖ * B ^ (N.totient - 1) := by
  classical
  have : FiniteDimensional ℚ K := IsCyclotomicExtension.finiteDimensional {N} ℚ K
  have hz : IsPrimitiveRoot (IsCyclotomicExtension.zeta N ℚ K) N := IsCyclotomicExtension.zeta_spec N ℚ K
  set z := IsCyclotomicExtension.zeta N ℚ K with hzdef
  have hirr : Irreducible (cyclotomic N ℚ) := cyclotomic.irreducible_rat (NeZero.pos N)
  let a : K := aeval z P
  -- the embedding that sends `z` to `ζ`
  let σ₀ : K →ₐ[ℚ] ℂ := (hz.powerBasis ℚ).lift ζ (by
    rw [IsPrimitiveRoot.powerBasis_gen, ← hz.minpoly_eq_cyclotomic_of_irreducible hirr, aeval_def, eval₂_eq_eval_map,
      map_cyclotomic]
    exact (isRoot_cyclotomic_iff.mpr hζ))
  have hσ₀ : σ₀ z = ζ := by
    exact (hz.powerBasis ℚ).lift_gen ζ _
  have hval : ∀ σ : K →ₐ[ℚ] ℂ, σ a = aeval (σ z) P := by
    intro σ
    exact (aeval_algHom_apply (σ.restrictScalars ℤ) z P).symm
  have ha0 : a ≠ 0 := by
    intro h
    apply h0
    rw [← hσ₀, ← hval σ₀, h, map_zero]
  have hint : IsIntegral ℤ a := by
    have hzi : IsIntegral ℤ z := hz.isIntegral (NeZero.pos N)
    exact adjoin_le_integralClosure hzi (aeval_mem_adjoin_singleton ℤ z)
  obtain ⟨m, hm⟩ := IsIntegrallyClosed.isIntegral_iff.mp (Algebra.isIntegral_norm ℚ hint)
  have hn0 : Algebra.norm ℚ a ≠ 0 := Algebra.norm_ne_zero_iff.mpr ha0
  have hm0 : m ≠ 0 := by
    rintro rfl
    exact hn0 (by rw [← hm]; simp)
  have hprod := Algebra.norm_eq_prod_embeddings ℚ ℂ a
  have hcard : Fintype.card (K →ₐ[ℚ] ℂ) = N.totient := by
    rw [AlgHom.card, IsCyclotomicExtension.finrank K hirr]
  have h1 : (1 : ℝ) ≤ ‖algebraMap ℚ ℂ (Algebra.norm ℚ a)‖ := by
    rw [← hm]
    have : (algebraMap ℚ ℂ (algebraMap ℤ ℚ m)) = (m : ℂ) := by simp
    rw [this, Complex.norm_intCast]
    exact_mod_cast Int.one_le_abs hm0
  rw [hprod, norm_prod, ← Finset.mul_prod_erase _ _ (Finset.mem_univ σ₀)] at h1
  refine h1.trans ?_
  rw [hval σ₀, hσ₀]
  refine mul_le_mul_of_nonneg_left ?_ (norm_nonneg _)
  calc _ ≤ ∏ _σ ∈ Finset.univ.erase σ₀, B := by
        apply Finset.prod_le_prod (fun _ _ => norm_nonneg _)
        intro σ _
        rw [hval σ]
        apply hle
        rw [← map_pow, hz.pow_eq_one, map_one]
    _ = B ^ (N.totient - 1) := by
        rw [Finset.prod_const, Finset.card_erase_of_mem (Finset.mem_univ _), Finset.card_univ, hcard]

/-- A non-zero integer polynomial value at a primitive `N`-th root of unity is not small: its conjugates are the values at
other `N`-th roots of unity, and their product is a non-zero integer. -/
theorem one_le_norm_mul_pow {N : ℕ} [NeZero N] {ζ : ℂ} (hζ : IsPrimitiveRoot ζ N) (P : ℤ[X]) {B : ℝ}
    (hle : ∀ w : ℂ, w ^ N = 1 → ‖aeval w P‖ ≤ B) (h0 : aeval ζ P ≠ 0) :
    1 ≤ ‖aeval ζ P‖ * B ^ (N.totient - 1) := by
  exact @one_le_norm_mul_pow_in (CyclotomicField N ℚ) _ (CyclotomicField.algebra N ℚ) _ N _ inferInstance ζ hζ P B
    hle h0

end Sys2Proof.Laws
end

