-- ==== Sys2Proof/Laws/DctTrig.lean ====
section
/-! SUPPORT. How far the scaled integers of Machine/Trig.lean lie from the real numbers they stand for: the arc tangents,
`π`, the exponential sum, and the table of cosines. -/

namespace Sys2Proof.Laws

open Sys2Proof.Machine Finset

/-- Integer division by a positive number is off by less than one. -/
theorem abs_ediv_sub_le (a b : ℤ) (hb : 0 < b) : |((a / b : ℤ) : ℝ) - a / b| ≤ 1 := by
  have hb' : (0 : ℝ) < b := by exact_mod_cast hb
  have h1 : ((a / b : ℤ) : ℝ) * b ≤ a := by exact_mod_cast Int.ediv_mul_le a hb.ne'
  have h2 : (a : ℝ) < ((a / b : ℤ) + 1 : ℝ) * b := by exact_mod_cast Int.lt_ediv_add_one_mul_self a hb
  have h3 := (le_div_iff₀ hb').mpr h1
  have h4 := (div_lt_iff₀ hb').mpr h2
  rw [abs_le]
  constructor <;> linarith

theorem abs_natDiv_sub_le (a b : ℕ) (hb : 0 < b) : |((a / b : ℕ) : ℝ) - (a : ℝ) / b| ≤ 1 := by
  have h := abs_ediv_sub_le a b (by exact_mod_cast hb)
  rw [← Int.natCast_div] at h
  rwa [Int.cast_natCast, Int.cast_natCast, Int.cast_natCast] at h

/-- The exact sum `arctanSum` approximates. -/
theorem arctanSum_close (k Q : ℕ) (hk : 0 < k) : ∀ (K j : ℕ),
    |((arctanSum k K j (2 ^ Q / k ^ (2 * j + 1)) : ℤ) : ℝ) -
      2 ^ Q * ∑ i ∈ range K, (-1 : ℝ) ^ i * (1 / k : ℝ) ^ (2 * (j + i) + 1) / (2 * (j + i) + 1 : ℕ)| ≤ K := by
  intro K
  induction K with
  | zero => intro j; simp [arctanSum]
  | succ K ih =>
    intro j
    have hnext : 2 ^ Q / k ^ (2 * j + 1) / (k * k) = 2 ^ Q / k ^ (2 * (j + 1) + 1) := by
      rw [Nat.div_div_eq_div_mul]; congr 1; ring
    have h := ih (j + 1)
    simp only [arctanSum]
    rw [hnext, Finset.sum_range_succ', Nat.div_div_eq_div_mul]
    have hf := abs_natDiv_sub_le (2 ^ Q) (k ^ (2 * j + 1) * (2 * j + 1)) (by positivity)
    have hk' : (k : ℝ) ≠ 0 := by positivity
    have hterm : ((2 ^ Q : ℕ) : ℝ) / ((k ^ (2 * j + 1) * (2 * j + 1) : ℕ) : ℝ) =
        2 ^ Q * ((-1 : ℝ) ^ 0 * (1 / k : ℝ) ^ (2 * (j + 0) + 1) / (2 * (j + 0) + 1 : ℕ)) := by
      push_cast; simp; field_simp
    rw [hterm] at hf
    have hsum : ∑ i ∈ range K, (-1 : ℝ) ^ (i + 1) * (1 / k : ℝ) ^ (2 * (j + (i + 1)) + 1) / (2 * (j + (i + 1)) + 1 : ℕ)
        = -∑ i ∈ range K, (-1 : ℝ) ^ i * (1 / k : ℝ) ^ (2 * (j + 1 + i) + 1) / (2 * (j + 1 + i) + 1 : ℕ) := by
      rw [← Finset.sum_neg_distrib]
      refine Finset.sum_congr rfl fun i _ => ?_
      rw [show j + (i + 1) = j + 1 + i by ring, pow_succ (-1 : ℝ)]
      ring
    rw [hsum]
    have hK : ((K + 1 : ℕ) : ℝ) = K + 1 := Nat.cast_succ K
    rw [Int.cast_sub, Int.cast_natCast, hK]
    revert h hf
    generalize ((2 ^ Q / (k ^ (2 * j + 1) * (2 * j + 1)) : ℕ) : ℝ) = u
    generalize (-1 : ℝ) ^ 0 * (1 / k : ℝ) ^ (2 * (j + 0) + 1) / (2 * (j + 0) + 1 : ℕ) = v
    generalize ∑ i ∈ range K, (-1 : ℝ) ^ i * (1 / k : ℝ) ^ (2 * (j + 1 + i) + 1) / (2 * (j + 1 + i) + 1 : ℕ) = t
    intro h hf
    rw [abs_le] at *
    constructor <;> nlinarith [hf.1, hf.2, h.1, h.2]

/-- The tail of the arc tangent series after `K` terms. -/
theorem arctan_tail (x : ℝ) (h0 : 0 ≤ x) (hx : x ≤ 1 / 2) (K : ℕ) :
    |Real.arctan x - ∑ i ∈ range K, (-1 : ℝ) ^ i * x ^ (2 * i + 1) / (2 * i + 1 : ℕ)| ≤ x ^ (2 * K) := by
  have hs := Real.hasSum_arctan (x := x) (by rw [Real.norm_eq_abs, abs_of_nonneg h0]; linarith)
  have hsum := hs.summable
  have hsplit := hsum.sum_add_tsum_nat_add K
  rw [hs.tsum_eq] at hsplit
  rw [← hsplit, add_sub_cancel_left]
  have hgeo : HasSum (fun i : ℕ => x ^ (2 * K) * ((1 / 2 : ℝ) / 2 ^ i)) (x ^ (2 * K) * 1) :=
    (hasSum_geometric_two' (1 : ℝ)).mul_left _
  rw [← mul_one (x ^ (2 * K)), ← Real.norm_eq_abs]
  refine tsum_of_norm_bounded hgeo fun i => ?_
  rw [Real.norm_eq_abs, abs_div, abs_mul, abs_pow, abs_neg, abs_one, one_pow, one_mul, abs_of_nonneg (by positivity : (0:ℝ) ≤ x ^ (2 * (i + K) + 1))]
  have h1 : (1 : ℝ) ≤ |((2 * (i + K) + 1 : ℕ) : ℝ)| := by
    rw [abs_of_nonneg (by positivity)]; push_cast; linarith [(Nat.cast_nonneg i : (0:ℝ) ≤ i), (Nat.cast_nonneg K : (0:ℝ) ≤ K)]
  calc x ^ (2 * (i + K) + 1) / |((2 * (i + K) + 1 : ℕ) : ℝ)| ≤ x ^ (2 * (i + K) + 1) :=
        div_le_self (by positivity) h1
    _ = x ^ (2 * K) * (x ^ i * x * x ^ i) := by ring
    _ ≤ x ^ (2 * K) * ((1 / 2) ^ i * (1 / 2) * 1) := by
        refine mul_le_mul_of_nonneg_left ?_ (by positivity)
        refine mul_le_mul ?_ (pow_le_one₀ h0 (by linarith)) (by positivity) (by positivity)
        exact mul_le_mul (pow_le_pow_left₀ h0 hx i) hx h0 (by positivity)
    _ = x ^ (2 * K) * (1 / 2 / 2 ^ i) := by rw [one_div_pow]; ring

/-- `arctanInv` is within `Q/2 + 2` of the scaled arc tangent. -/
theorem arctanInv_close (Q k : ℕ) (hk : 5 ≤ k) :
    |((arctanInv Q k : ℤ) : ℝ) - 2 ^ Q * Real.arctan (k : ℝ)⁻¹| ≤ Q / 2 + 2 := by
  have hk0 : (0 : ℝ) < k := by exact_mod_cast (by omega : 0 < k)
  have hk5 : (5 : ℝ) ≤ k := by exact_mod_cast hk
  have h1 := arctanSum_close k Q (by omega) (Q / 2 + 1) 0
  have hx : (1 / k : ℝ) ≤ 1 / 2 := by
    rw [div_le_div_iff₀ hk0 (by norm_num)]; linarith
  have h2 := arctan_tail (1 / k) (by positivity) hx (Q / 2 + 1)
  have hpow : (2 : ℝ) ^ Q * (1 / k : ℝ) ^ (2 * (Q / 2 + 1)) ≤ 1 := by
    have : (1 / k : ℝ) ^ (2 * (Q / 2 + 1)) ≤ (1 / 2 : ℝ) ^ (2 * (Q / 2 + 1)) := pow_le_pow_left₀ (by positivity) hx _
    have h3 : (1 / 2 : ℝ) ^ (2 * (Q / 2 + 1)) ≤ (1 / 2) ^ Q :=
      pow_le_pow_of_le_one (by norm_num) (by norm_num) (by omega)
    calc (2 : ℝ) ^ Q * (1 / k : ℝ) ^ (2 * (Q / 2 + 1)) ≤ 2 ^ Q * (1 / 2) ^ Q := by
          exact mul_le_mul_of_nonneg_left (this.trans h3) (by positivity)
      _ = 1 := by rw [← mul_pow]; norm_num
  have h2' : |(2 : ℝ) ^ Q * (Real.arctan (1 / k) -
      ∑ i ∈ range (Q / 2 + 1), (-1 : ℝ) ^ i * (1 / k : ℝ) ^ (2 * i + 1) / (2 * i + 1 : ℕ))| ≤ 1 := by
    rw [abs_mul, abs_of_nonneg (by positivity : (0 : ℝ) ≤ 2 ^ Q)]
    exact (mul_le_mul_of_nonneg_left h2 (by positivity)).trans hpow
  have hK : (((Q / 2 + 1 : ℕ) : ℕ) : ℝ) ≤ Q / 2 + 1 := by
    push_cast; have := @Nat.cast_div_le ℝ _ _ _ Q 2; push_cast at this; linarith
  unfold arctanInv
  rw [show 2 ^ Q / k = 2 ^ Q / k ^ (2 * 0 + 1) by simp]
  simp only [zero_add] at h1
  rw [← one_div]
  rw [mul_sub] at h2'
  rw [abs_le] at *
  constructor <;> linarith [h1.1, h1.2, h2'.1, h2'.2]

/-- `piFixed` is within `10Q + 40` of `π` at scale `2^Q`. -/
theorem piFixed_close (Q : ℕ) : |((piFixed Q : ℤ) : ℝ) - 2 ^ Q * Real.pi| ≤ 10 * Q + 40 := by
  have h5 := arctanInv_close Q 5 (by norm_num)
  have h239 := arctanInv_close Q 239 (by norm_num)
  have hm := Real.four_mul_arctan_inv_5_sub_arctan_inv_239
  have hpi : Real.pi = 16 * Real.arctan (5 : ℝ)⁻¹ - 4 * Real.arctan (239 : ℝ)⁻¹ := by linarith
  unfold piFixed
  rw [hpi]
  push_cast at *
  rw [abs_le] at *
  constructor <;> nlinarith [h5.1, h5.2, h239.1, h239.2]

end Sys2Proof.Laws
end

