-- ==== Sys2Proof/Laws/DctTable.lean ====
section
/-! SUPPORT. The exponential sum and the table of cosines of Machine/Trig.lean against the real functions, with a bound
on their distance. -/

namespace Sys2Proof.Laws

open Sys2Proof.Machine Finset Complex

/-- A pair of integers as a complex number. -/
noncomputable def pairC (p : ℤ × ℤ) : ℂ := (p.1 : ℂ) + (p.2 : ℂ) * I

/-- One term of the exponential series from the term before it, with the rounding. -/
theorem next_term_close (one θ t : ℤ) (j : ℕ) (φ T : ℝ) (hone : 0 < one) (hθ : (θ : ℝ) = φ * one) (h0 : 0 ≤ φ)
    (hφ : φ ≤ 8 / 5) (hj : j = 0 → (t : ℝ) = T) (ht : |(t : ℝ) - T| ≤ 5) :
    |((t * θ / (one * (j + 1 : ℕ)) : ℤ) : ℝ) - T * (φ / (j + 1 : ℕ))| ≤ 5 := by
  have hone' : (0 : ℝ) < one := by exact_mod_cast hone
  have hj1 : (0 : ℝ) < (j + 1 : ℕ) := by positivity
  have hd := abs_ediv_sub_le (t * θ) (one * (j + 1 : ℕ)) (by positivity)
  have he : (((t * θ : ℤ) : ℝ) / ((one * (j + 1 : ℕ) : ℤ) : ℝ)) = t * (φ / (j + 1 : ℕ)) := by
    rw [Int.cast_mul, Int.cast_mul, hθ, Int.cast_natCast]
    field_simp
  rw [he] at hd
  have hr0 : 0 ≤ φ / (j + 1 : ℕ) := by positivity
  have hrest : |((t : ℝ) - T) * (φ / (j + 1 : ℕ))| ≤ 4 := by
    rw [abs_mul, abs_of_nonneg hr0]
    rcases Nat.eq_zero_or_pos j with hz | hz
    · rw [hj hz]; simp
    · have h2 : (2 : ℝ) ≤ (j + 1 : ℕ) := by exact_mod_cast (by omega : 2 ≤ j + 1)
      have : φ / (j + 1 : ℕ) ≤ 4 / 5 := by
        rw [div_le_iff₀ hj1]; linarith
      calc _ ≤ 5 * (4 / 5 : ℝ) := mul_le_mul ht this hr0 (by norm_num)
        _ = 4 := by norm_num
  have hsplit : ((t * θ / (one * (j + 1 : ℕ)) : ℤ) : ℝ) - T * (φ / (j + 1 : ℕ)) =
      (((t * θ / (one * (j + 1 : ℕ)) : ℤ) : ℝ) - t * (φ / (j + 1 : ℕ))) + ((t : ℝ) - T) * (φ / (j + 1 : ℕ)) := by ring
  rw [hsplit]
  exact (abs_add_le _ _).trans (by linarith)

/-- `expSum` against the partial sum of the exponential series. -/
theorem expSum_close (one θ : ℤ) (φ : ℝ) (hone : 0 < one) (hθ : (θ : ℝ) = φ * one) (h0 : 0 ≤ φ) (hφ : φ ≤ 8 / 5) :
    ∀ (J j : ℕ) (t : ℤ) (T : ℝ), (j = 0 → (t : ℝ) = T) → |(t : ℝ) - T| ≤ 5 → T = one * (φ ^ j / j.factorial) →
      ‖pairC (expSum one θ J j t) - ∑ k ∈ range J, (one : ℂ) * (I ^ k * ((φ ^ (j + k) / (j + k).factorial : ℝ) : ℂ))‖
        ≤ 5 * J := by
  intro J
  induction J with
  | zero => intro j t T _ _ _; simp [expSum, pairC]
  | succ J ih =>
    intro j t T hj ht hT
    have h1 := next_term_close one θ t j φ T hone hθ h0 hφ hj ht
    have hT' : T * (φ / (j + 1 : ℕ)) = one * (φ ^ (j + 1) / (j + 1).factorial) := by
      rw [hT, Nat.factorial_succ, Nat.cast_mul, pow_succ]
      have : ((j.factorial : ℕ) : ℝ) ≠ 0 := by exact_mod_cast Nat.factorial_ne_zero j
      have h2 : ((j + 1 : ℕ) : ℝ) ≠ 0 := by positivity
      field_simp
    have h2 := ih (j + 1) _ _ (by omega) h1 hT'
    simp only [expSum]
    set p := expSum one θ J (j + 1) (t * θ / (one * (j + 1 : ℕ))) with hp
    have hpair : pairC (t - p.2, p.1) = (t : ℂ) + I * pairC p := by
      simp only [pairC, Int.cast_sub]
      ring_nf
      rw [I_sq]
      ring
    rw [hpair, Finset.sum_range_succ']
    have hsum : ∑ k ∈ range J, (one : ℂ) * (I ^ (k + 1) * ((φ ^ (j + (k + 1)) / (j + (k + 1)).factorial : ℝ) : ℂ)) =
        I * ∑ k ∈ range J, (one : ℂ) * (I ^ k * ((φ ^ (j + 1 + k) / (j + 1 + k).factorial : ℝ) : ℂ)) := by
      rw [Finset.mul_sum]
      refine Finset.sum_congr rfl fun k _ => ?_
      rw [show j + (k + 1) = j + 1 + k by ring, pow_succ]
      ring
    rw [hsum]
    have hfirst : (one : ℂ) * (I ^ 0 * ((φ ^ (j + 0) / (j + 0).factorial : ℝ) : ℂ)) = (T : ℂ) := by
      rw [hT]; push_cast; simp
    rw [hfirst]
    have hre : (t : ℂ) + I * pairC p - (I * ∑ k ∈ range J, (one : ℂ) * (I ^ k * ((φ ^ (j + 1 + k) / (j + 1 + k).factorial : ℝ) : ℂ)) + (T : ℂ))
        = ((t : ℝ) - T : ℝ) + I * (pairC p - ∑ k ∈ range J, (one : ℂ) * (I ^ k * ((φ ^ (j + 1 + k) / (j + 1 + k).factorial : ℝ) : ℂ))) := by
      push_cast; ring
    rw [hre]
    refine (norm_add_le _ _).trans ?_
    rw [norm_mul, norm_I, one_mul, Complex.norm_real, Real.norm_eq_abs, Nat.cast_succ]
    linarith

/-- The tail of the exponential series that `unitAngle` leaves out. -/
theorem exp_tail (Q : ℕ) (hQ : 30 ≤ Q) (φ : ℝ) (h0 : 0 ≤ φ) (hφ : φ ≤ 8 / 5) :
    ‖(2 : ℂ) ^ Q * exp (I * φ) - ∑ k ∈ range (Q / 3 + 10), (2 : ℂ) ^ Q * (I ^ k * ((φ ^ k / k.factorial : ℝ) : ℂ))‖ ≤ 1 := by
  set J := Q / 3 + 10 with hJ
  have hnorm : ‖I * (φ : ℂ)‖ = φ := by
    rw [norm_mul, norm_I, one_mul, Complex.norm_real, Real.norm_eq_abs, abs_of_nonneg h0]
  have hsmall : ‖I * (φ : ℂ)‖ / (J.succ : ℝ) ≤ 1 / 2 := by
    rw [hnorm, div_le_iff₀ (by positivity)]
    have : (20 : ℝ) ≤ J.succ := by exact_mod_cast (by omega : 20 ≤ J + 1)
    linarith
  have hb := Complex.exp_bound' (x := I * (φ : ℂ)) (n := J) hsmall
  have hsum : ∑ k ∈ range J, (2 : ℂ) ^ Q * (I ^ k * ((φ ^ k / k.factorial : ℝ) : ℂ)) =
      2 ^ Q * ∑ m ∈ range J, (I * (φ : ℂ)) ^ m / m.factorial := by
    rw [Finset.mul_sum]
    refine Finset.sum_congr rfl fun k _ => ?_
    push_cast
    rw [mul_pow]
    ring
  rw [hsum, ← mul_sub, norm_mul, norm_pow]
  rw [hnorm] at hb
  have h2 : ‖(2 : ℂ)‖ = 2 := by simp
  rw [h2]
  refine (mul_le_mul_of_nonneg_left hb (by positivity)).trans ?_
  obtain ⟨q, hq⟩ : ∃ q, J = 20 + q := ⟨J - 20, by omega⟩
  have hQq : Q ≤ 3 * q + 32 := by omega
  have hfac : (Nat.factorial 20 : ℝ) * 21 ^ q ≤ (J.factorial : ℝ) := by
    rw [hq]; exact_mod_cast Nat.factorial_mul_pow_le_factorial
  have hf0 : (0 : ℝ) < J.factorial := by exact_mod_cast Nat.factorial_pos J
  have hpow : φ ^ J ≤ (8 / 5) ^ J := pow_le_pow_left₀ h0 hφ J
  have h2Q : (2 : ℝ) ^ Q ≤ 2 ^ (3 * q + 32) := pow_le_pow_right₀ (by norm_num) hQq
  rw [show (2 : ℝ) ^ Q * (φ ^ J / J.factorial * 2) = 2 * 2 ^ Q * φ ^ J / J.factorial by ring, div_le_one hf0]
  refine le_trans ?_ hfac
  calc 2 * 2 ^ Q * φ ^ J ≤ 2 * 2 ^ (3 * q + 32) * (8 / 5) ^ J := by gcongr
    _ = (2 * 2 ^ 32 * (8 / 5) ^ 20) * (64 / 5) ^ q := by
        rw [hq, pow_add, pow_add, pow_mul]
        rw [show (64 / 5 : ℝ) = 2 ^ 3 * (8 / 5) by norm_num, mul_pow]
        ring
    _ ≤ (Nat.factorial 20 : ℝ) * 21 ^ q := by
        refine mul_le_mul ?_ (pow_le_pow_left₀ (by norm_num) (by norm_num) q) (by positivity) (by positivity)
        norm_num [Nat.factorial]

/-- `unitAngle` is near the point of the unit circle at `π/(2n)`. -/
theorem unitAngle_close (Q n : ℕ) (hQ : 30 ≤ Q) (hn : 0 < n) :
    ‖pairC (unitAngle Q n) - 2 ^ Q * exp (I * ((Real.pi / (2 * n) : ℝ) : ℂ))‖ ≤ 7 * Q + 72 := by
  have hpi := piFixed_close Q
  have hn' : (1 : ℝ) ≤ n := by exact_mod_cast hn
  have hone : (0 : ℝ) < 2 ^ Q := by positivity
  have hQ2 : (200 : ℝ) * Q + 840 ≤ 2 ^ Q := by
    have : ∀ q : ℕ, 200 * (30 + q) + 840 ≤ 2 ^ (30 + q) := by
      intro q
      induction q with
      | zero => norm_num
      | succ q ih => rw [← add_assoc, pow_succ]; omega
    have h := this (Q - 30)
    rw [show 30 + (Q - 30) = Q by omega] at h
    exact_mod_cast h
  have hpi3 := Real.pi_gt_three
  have hpi315 := Real.pi_lt_d2
  have hd := abs_ediv_sub_le (piFixed Q) (2 * n : ℕ) (by positivity)
  set θ := piFixed Q / ((2 * n : ℕ) : ℤ) with hθdef
  set φ : ℝ := (θ : ℝ) / 2 ^ Q with hφdef
  have hn2 : ((2 * n : ℕ) : ℤ) = 2 * (n : ℤ) := by push_cast; ring
  have hn2r : (((2 * n : ℕ) : ℤ) : ℝ) = 2 * n := by push_cast; ring
  rw [hn2r] at hd
  have hθ : (θ : ℝ) = φ * 2 ^ Q := by rw [hφdef]; field_simp
  -- the angle is close to π / 2n
  have hangle : |(2 : ℝ) ^ Q * (φ - Real.pi / (2 * n))| ≤ 5 * Q + 21 := by
    have e : (2 : ℝ) ^ Q * (φ - Real.pi / (2 * n)) =
        ((θ : ℝ) - (piFixed Q : ℝ) / (2 * n)) + ((piFixed Q : ℝ) - 2 ^ Q * Real.pi) / (2 * n) := by
      rw [hθ]; field_simp; ring
    rw [e]
    refine (abs_add_le _ _).trans ?_
    have h2 : |((piFixed Q : ℝ) - 2 ^ Q * Real.pi) / (2 * n)| ≤ 5 * Q + 20 := by
      rw [abs_div, abs_of_nonneg (by positivity : (0 : ℝ) ≤ 2 * n), div_le_iff₀ (by positivity)]
      refine hpi.trans ?_
      have : (0 : ℝ) ≤ 5 * Q + 20 := by positivity
      nlinarith
    linarith
  have hφ0 : 0 ≤ φ := by
    have h1 : 0 ≤ (piFixed Q : ℝ) := by
      rw [abs_le] at hpi
      nlinarith [hpi.1, (Nat.cast_nonneg Q : (0 : ℝ) ≤ Q)]
    have h2 : 0 ≤ piFixed Q := by exact_mod_cast h1
    have h3 : 0 ≤ θ := Int.ediv_nonneg h2 (by positivity)
    have h4 : (0 : ℝ) ≤ (θ : ℝ) := by exact_mod_cast h3
    positivity
  have hφ : φ ≤ 8 / 5 := by
    have h1 := (abs_le.mp hangle).2
    have h2 : Real.pi / (2 * n) ≤ Real.pi / 2 := by
      apply div_le_div_of_nonneg_left (by positivity) (by norm_num) (by linarith)
    have h3 : φ - Real.pi / (2 * n) ≤ 1 / 40 := by
      by_contra hc
      push Not at hc
      have : (2 : ℝ) ^ Q * (1 / 40) < 2 ^ Q * (φ - Real.pi / (2 * n)) := mul_lt_mul_of_pos_left hc hone
      linarith
    linarith
  have hcast : ((2 ^ Q : ℤ) : ℝ) = 2 ^ Q := by push_cast; ring
  have h1 := expSum_close (2 ^ Q) θ φ (by positivity) (by rw [hθ, hcast]) hφ0 hφ (Q / 3 + 10) 0 (2 ^ Q) (2 ^ Q)
    (fun _ => hcast) (by rw [hcast]; simp) (by simp)
  have h2 := exp_tail Q hQ φ hφ0 hφ
  have h3 : ‖(2 : ℂ) ^ Q * exp (I * φ) - 2 ^ Q * exp (I * ((Real.pi / (2 * n) : ℝ) : ℂ))‖ ≤ 5 * Q + 21 := by
    have e : exp (I * (φ : ℂ)) = exp (I * ((Real.pi / (2 * n) : ℝ) : ℂ)) * exp (I * ((φ - Real.pi / (2 * n) : ℝ) : ℂ)) := by
      rw [← Complex.exp_add]; congr 1; push_cast; ring
    have hu : ‖exp (I * ((Real.pi / (2 * n) : ℝ) : ℂ))‖ = 1 := by
      rw [mul_comm]; exact Complex.norm_exp_ofReal_mul_I _
    rw [e, ← mul_sub, ← mul_sub_one, norm_mul, norm_mul, hu, one_mul, norm_pow]
    have hb := Real.norm_exp_I_mul_ofReal_sub_one_le (x := φ - Real.pi / (2 * n))
    rw [Real.norm_eq_abs] at hb
    have h2' : ‖(2 : ℂ)‖ = 2 := by simp
    rw [h2']
    refine (mul_le_mul_of_nonneg_left hb (by positivity)).trans ?_
    rw [abs_mul, abs_of_nonneg hone.le] at hangle
    exact hangle
  unfold unitAngle
  have hcc : (((2 ^ Q : ℤ) : ℤ) : ℂ) = 2 ^ Q := by push_cast; ring
  simp only [zero_add, hcc] at h1
  have hJ : (5 : ℝ) * ((Q / 3 + 10 : ℕ) : ℝ) ≤ 2 * Q + 50 := by
    have : 5 * (Q / 3 + 10) ≤ 2 * Q + 50 := by omega
    exact_mod_cast this
  have htri : ∀ a b c d : ℂ, a - d = (a - b) + -(c - b) + (c - d) := by intros; ring
  rw [htri _ _ _ _]
  refine (norm_add₃_le).trans ?_
  rw [norm_neg]
  calc _ ≤ 5 * ((Q / 3 + 10 : ℕ) : ℝ) + 1 + (5 * Q + 21) := add_le_add (add_le_add h1 h2) h3
    _ ≤ _ := by linarith

/-- `e^(i m π/(2n))`: its parts are the cosine and the sine of `m` steps of the table. -/
noncomputable def turn (n m : ℕ) : ℂ := exp (I * ((Real.pi / (2 * n) : ℝ) : ℂ)) ^ m

theorem turn_eq (n m : ℕ) : turn n m = exp (((m * (Real.pi / (2 * n)) : ℝ) : ℂ) * I) := by
  unfold turn
  rw [← Complex.exp_nat_mul]
  congr 1
  push_cast
  ring

theorem norm_turn (n m : ℕ) : ‖turn n m‖ = 1 := by
  rw [turn_eq]
  exact Complex.norm_exp_ofReal_mul_I _

theorem turn_succ (n m : ℕ) : turn n (m + 1) = turn n m * turn n 1 := by
  unfold turn
  rw [pow_succ, pow_one]

theorem turn_re (n m : ℕ) : (turn n m).re = Real.cos (m * Real.pi / (2 * n)) := by
  rw [turn_eq, Complex.exp_ofReal_mul_I_re]
  congr 1
  ring

/-- One turn of the table's point, with the rounding. -/
theorem turn_step_close (one : ℤ) (hone : 0 < one) (u z : ℤ × ℤ) :
    ‖pairC ((z.1 * u.1 - z.2 * u.2) / one, (z.1 * u.2 + z.2 * u.1) / one) - pairC z * pairC u / one‖ ≤ 2 := by
  have h1 := abs_ediv_sub_le (z.1 * u.1 - z.2 * u.2) one hone
  have h2 := abs_ediv_sub_le (z.1 * u.2 + z.2 * u.1) one hone
  have hone' : (one : ℂ) ≠ 0 := by exact_mod_cast hone.ne'
  have e : pairC ((z.1 * u.1 - z.2 * u.2) / one, (z.1 * u.2 + z.2 * u.1) / one) - pairC z * pairC u / one =
      ((((z.1 * u.1 - z.2 * u.2) / one : ℤ) : ℝ) - ((z.1 * u.1 - z.2 * u.2 : ℤ) : ℝ) / one : ℝ) +
      ((((z.1 * u.2 + z.2 * u.1) / one : ℤ) : ℝ) - ((z.1 * u.2 + z.2 * u.1 : ℤ) : ℝ) / one : ℝ) * I := by
    simp only [pairC]
    push_cast
    field_simp
    ring_nf
    rw [I_sq]
    ring
  rw [e]
  refine (norm_add_le _ _).trans ?_
  rw [norm_mul, norm_I, mul_one, Complex.norm_real, Complex.norm_real, Real.norm_eq_abs, Real.norm_eq_abs]
  linarith

/-- Every entry of the table, from a point near `turn n m` on: the distance grows by at most `2 (e + 2)` a turn. -/
theorem turnTable_close (one : ℤ) (hone : 0 < one) (n : ℕ) (u : ℤ × ℤ) (e : ℝ) (he : 0 ≤ e)
    (hu : ‖pairC u - one * turn n 1‖ ≤ e) (hsmall : 8 * n * e ≤ one) :
    ∀ (k m : ℕ) (z : ℤ × ℤ), m + k ≤ 4 * n → ‖pairC z - one * turn n m‖ ≤ 2 * m * (e + 2) →
      ∀ i < k, |(((turnTable one u.1 u.2 k z.1 z.2).getD i 0 : ℤ) : ℝ) - one * (turn n (m + i)).re|
        ≤ 2 * (m + i : ℕ) * (e + 2) := by
  have hone' : (0 : ℝ) < one := by exact_mod_cast hone
  intro k
  induction k with
  | zero => intro _ _ _ _ i hi; omega
  | succ k ih =>
    intro m z hm hz i hi
    cases i with
    | zero =>
      simp only [turnTable, List.getD_cons_zero, Nat.add_zero]
      refine le_trans ?_ hz
      have := Complex.abs_re_le_norm (pairC z - one * turn n m)
      simpa [pairC] using this
    | succ i =>
      simp only [turnTable, List.getD_cons_succ]
      rw [show m + (i + 1) = (m + 1) + i by ring]
      refine ih (m + 1) ((z.1 * u.1 - z.2 * u.2) / one, (z.1 * u.2 + z.2 * u.1) / one) (by omega) ?_ i (by omega)
      have h1 := turn_step_close one hone u z
      have honec : (one : ℂ) ≠ 0 := by exact_mod_cast hone.ne'
      have hnone : ‖(one : ℂ)‖ = one := by
        rw [Complex.norm_intCast, abs_of_pos hone']
      have hexp : pairC z * pairC u / one - one * turn n (m + 1) =
          (pairC z - one * turn n m) * (turn n 1) + (pairC z - one * turn n m) * ((pairC u - one * turn n 1) / one)
            + turn n m * (pairC u - one * turn n 1) := by
        rw [turn_succ]; field_simp; ring
      have hb : ‖pairC z * pairC u / one - one * turn n (m + 1)‖ ≤
          2 * m * (e + 2) + 2 * m * (e + 2) * (e / one) + e := by
        rw [hexp]
        refine (norm_add₃_le).trans ?_
        rw [norm_mul, norm_turn, mul_one, norm_mul, norm_mul, norm_turn, one_mul, norm_div, hnone]
        gcongr
      have hm4 : (m : ℝ) ≤ 4 * n := by exact_mod_cast (by omega : m ≤ 4 * n)
      have hd : 2 * m * (e + 2) * (e / one) ≤ e + 2 := by
        rw [show 2 * m * (e + 2) * (e / one) = (e + 2) * (2 * m * e) / one by ring, div_le_iff₀ hone']
        refine mul_le_mul_of_nonneg_left (le_trans ?_ hsmall) (by linarith)
        nlinarith
      have htri : ∀ a b c : ℂ, a - c = (a - b) + (b - c) := by intros; ring
      rw [htri _ (pairC z * pairC u / one) _]
      refine (norm_add_le _ _).trans ?_
      push_cast
      linarith

/-- Every entry of `cosTable (2g) n` is within `2^g` of the cosine it stands for, when `g` is large against `n`. -/
theorem cosTable_close (g n : ℕ) (hn : 0 < n) (hg : 1024 * (4 * n + 1) ^ 4 ≤ 2 ^ g) (hg2 : 15 ≤ g) (m : ℕ)
    (hm : m < 4 * n) :
    |(((cosTable (2 * g) n).getD m 0 : ℤ) : ℝ) - 2 ^ (2 * g) * Real.cos (m * Real.pi / (2 * n))| ≤ 2 ^ g := by
  have hu := unitAngle_close (2 * g) n (by omega) hn
  set e : ℝ := 14 * g + 72 with hedef
  have he : (7 : ℝ) * ((2 * g : ℕ) : ℝ) + 72 = e := by rw [hedef]; push_cast; ring
  rw [he] at hu
  have he0 : 0 ≤ e := by positivity
  -- 2^g is at least `8 n (e + 2)`
  have hge : ∀ q : ℕ, (14 * (15 + q) + 74) ^ 2 ≤ 1024 * 2 ^ (15 + q) := by
    intro q
    induction q with
    | zero => norm_num
    | succ q ih =>
      have h1 : ∀ a : ℕ, 200 ≤ a → (a + 14) ^ 2 ≤ 2 * a ^ 2 := by intro a ha; nlinarith
      have h2 := h1 (14 * (15 + q) + 74) (by omega)
      rw [show 14 * (15 + (q + 1)) + 74 = 14 * (15 + q) + 74 + 14 by ring, ← add_assoc 15 q 1, pow_succ 2, ← mul_assoc]
      exact h2.trans (by linarith)
  have hge' := hge (g - 15)
  rw [show 15 + (g - 15) = g by omega] at hge'
  have hkey : (8 * n * (14 * g + 74)) ^ 2 ≤ (2 ^ g) ^ 2 := by
    have h1 : (8 * n) ^ 2 * 1024 ≤ 2 ^ g := by
      refine le_trans ?_ hg
      have : 16 * n ^ 2 ≤ (4 * n + 1) ^ 2 := by nlinarith
      have h4 : (4 * n + 1) ^ 4 = (4 * n + 1) ^ 2 * (4 * n + 1) ^ 2 := by ring
      rw [h4]
      have h5 : 4 ≤ (4 * n + 1) ^ 2 := by nlinarith
      nlinarith
    calc (8 * n * (14 * g + 74)) ^ 2 = (8 * n) ^ 2 * (14 * g + 74) ^ 2 := by ring
      _ ≤ (8 * n) ^ 2 * (1024 * 2 ^ g) := Nat.mul_le_mul_left _ hge'
      _ = (8 * n) ^ 2 * 1024 * 2 ^ g := by ring
      _ ≤ 2 ^ g * 2 ^ g := Nat.mul_le_mul_right _ h1
      _ = (2 ^ g) ^ 2 := by ring
  have hkey' : 8 * n * (14 * g + 74) ≤ 2 ^ g := (Nat.pow_le_pow_iff_left (by norm_num)).mp hkey
  have hE : 8 * n * (e + 2) ≤ 2 ^ g := by
    rw [hedef]
    have : ((8 * n * (14 * g + 74) : ℕ) : ℝ) ≤ ((2 ^ g : ℕ) : ℝ) := by exact_mod_cast hkey'
    push_cast at this
    linarith
  have hone : (0 : ℤ) < 2 ^ (2 * g) := by positivity
  have hcast : ((2 ^ (2 * g) : ℤ) : ℝ) = 2 ^ (2 * g) := by push_cast; ring
  have hcastc : ((2 ^ (2 * g) : ℤ) : ℂ) = 2 ^ (2 * g) := by push_cast; ring
  have h2g : (2 : ℝ) ^ g ≤ 2 ^ (2 * g) := pow_le_pow_right₀ (by norm_num) (by omega)
  have hn' : (1 : ℝ) ≤ n := by exact_mod_cast hn
  have h := turnTable_close (2 ^ (2 * g)) hone n (unitAngle (2 * g) n) e he0
    (by rw [hcastc]; simpa [turn] using hu) (by rw [hcast]; nlinarith) (4 * n) 0 (2 ^ (2 * g), 0) (by omega)
    (by simp [pairC, turn]) m hm
  rw [turn_re, hcast, Nat.zero_add] at h
  unfold cosTable
  rw [Array.getD_eq_getD_getElem?, List.getElem?_toArray, ← List.getD_eq_getElem?_getD]
  refine h.trans (le_trans ?_ hE)
  have hm' : (m : ℝ) ≤ 4 * n := by exact_mod_cast hm.le
  nlinarith

end Sys2Proof.Laws
end

