-- ==== Sys2Proof/Laws/DctExact.lean ====
section
/-! SUPPORT. `dctLine` computes the real-number formula of spec/44_dct.md R213 and R214 exactly: the rounding errors of
Machine/Trig.lean are smaller than the distance of a value of the formula, taken squared, from a square of an integer. -/

namespace Sys2Proof.Laws

open Sys2Proof.Machine Finset Polynomial

theorem isqrtDigits_spec (k : ℕ) : ∀ n, n < 4 ^ k →
    isqrtDigits k n * isqrtDigits k n ≤ n ∧ n < (isqrtDigits k n + 1) * (isqrtDigits k n + 1) := by
  induction k with
  | zero => intro n hn; simp at hn; subst hn; simp [isqrtDigits]
  | succ k ih =>
    intro n hn
    obtain ⟨h1, h2⟩ := ih (n / 4) (by rw [pow_succ] at hn; omega)
    simp only [isqrtDigits]
    set r := isqrtDigits k (n / 4)
    have h3 : 4 * (r * r) ≤ n := by omega
    have h4 : n < 4 * ((r + 1) * (r + 1)) := by omega
    split
    · rename_i h
      exact ⟨h, by nlinarith⟩
    · rename_i h
      exact ⟨by nlinarith, by omega⟩

/-- `isqrt n` is the greatest `z` with `z² ≤ n`. -/
theorem isqrt_spec (n : ℕ) : isqrt n ^ 2 ≤ n ∧ n < (isqrt n + 1) ^ 2 := by
  have h : n < 4 ^ (n.log2 + 1) := by
    refine lt_of_lt_of_le Nat.lt_log2_self ?_
    exact Nat.pow_le_pow_left (by norm_num) _
  have := isqrtDigits_spec _ n h
  rw [pow_two, pow_two]
  exact this

/-- The same against a quotient of real numbers. -/
theorem isqrt_div_spec (a b : ℕ) (hb : 0 < b) :
    ((isqrt (a / b) : ℕ) : ℝ) ^ 2 ≤ (a : ℝ) / b ∧ (a : ℝ) / b < ((isqrt (a / b) : ℕ) + 1 : ℝ) ^ 2 := by
  obtain ⟨h1, h2⟩ := isqrt_spec (a / b)
  have hb' : (0 : ℝ) < b := by exact_mod_cast hb
  constructor
  · rw [le_div_iff₀ hb']
    have : isqrt (a / b) ^ 2 * b ≤ a := (Nat.mul_le_mul_right b h1).trans (Nat.div_mul_le_self a b)
    exact_mod_cast this
  · rw [div_lt_iff₀ hb']
    have : a < (isqrt (a / b) + 1) ^ 2 * b := by
      have := (Nat.div_lt_iff_lt_mul hb).mp h2
      exact this
    exact_mod_cast this

/-- A signed integer between `|x| - 1` and `|x|` of the right sign is the truncation. -/
theorem isTrunc_of_abs (x : ℝ) (σ : ℤ) (z : ℕ) (h1 : (z : ℝ) ≤ |x|) (h2 : |x| < z + 1)
    (hs : 0 < z → (0 ≤ x → σ = 1) ∧ (x < 0 → σ = -1)) : IsTrunc x (σ * z) := by
  constructor
  · intro hx
    rw [abs_of_nonneg hx] at h1 h2
    have : σ * (z : ℤ) = z := by
      rcases Nat.eq_zero_or_pos z with hz | hz
      · simp [hz]
      · rw [(hs hz).1 hx, one_mul]
    rw [this]
    symm
    rw [Int.floor_eq_iff]
    exact ⟨by simpa using h1, by simpa using h2⟩
  · intro hx
    rw [abs_of_neg hx] at h1 h2
    have : σ * (z : ℤ) = -z := by
      rcases Nat.eq_zero_or_pos z with hz | hz
      · simp [hz]
      · rw [(hs hz).2 hx, neg_one_mul]
    rw [this]
    symm
    rw [Int.ceil_eq_iff]
    push_cast
    exact ⟨by linarith, by linarith⟩

theorem absSum_cons (x : ℤ) (xs : List ℤ) : absSum (x :: xs) = x.natAbs + absSum xs := by
  simp [absSum]

/-- The sum of the formula, from index `k` on. -/
noncomputable def angleSum (n i : ℕ) : ℕ → List ℤ → ℝ
  | _, [] => 0
  | k, x :: xs => x * Real.cos ((2 * k + 1) * i * Real.pi / (2 * n)) + angleSum n i (k + 1) xs

theorem angleSum_eq (n i : ℕ) : ∀ (xs : List ℤ) (k : ℕ),
    angleSum n i k xs = ∑ j ∈ range xs.length, (xs.getD j 0 : ℝ) * Real.cos ((2 * (k + j : ℕ) + 1) * i * Real.pi / (2 * n)) := by
  intro xs
  induction xs with
  | nil => intro k; simp [angleSum]
  | cons x xs ih =>
    intro k
    rw [List.length_cons, Finset.sum_range_succ', angleSum, ih (k + 1), add_comm]
    congr 1
    refine Finset.sum_congr rfl fun j _ => ?_
    rw [List.getD_cons_succ, show k + 1 + j = k + (j + 1) by ring]

theorem abs_angleSum_le (n i : ℕ) : ∀ (xs : List ℤ) (k : ℕ), |angleSum n i k xs| ≤ absSum xs := by
  intro xs
  induction xs with
  | nil => intro k; simp [angleSum, absSum]
  | cons x xs ih =>
    intro k
    rw [angleSum, absSum_cons, Nat.cast_add]
    refine (abs_add_le _ _).trans (add_le_add ?_ (ih _))
    rw [abs_mul, Nat.cast_natAbs, Int.cast_abs]
    exact mul_le_of_le_one_right (abs_nonneg _) (Real.abs_cos_le_one _)

/-- The cosine depends on the step number modulo `4n`. -/
theorem cos_mod (n m : ℕ) (hn : 0 < n) :
    Real.cos ((m % (4 * n) : ℕ) * Real.pi / (2 * n)) = Real.cos (m * Real.pi / (2 * n)) := by
  have hn' : (n : ℝ) ≠ 0 := by positivity
  conv_rhs => rw [← Nat.mod_add_div m (4 * n)]
  have : ((m % (4 * n) + 4 * n * (m / (4 * n)) : ℕ) : ℝ) * Real.pi / (2 * n) =
      (m % (4 * n) : ℕ) * Real.pi / (2 * n) + (m / (4 * n) : ℕ) * (2 * Real.pi) := by
    push_cast
    field_simp
    ring
  rw [this, Real.cos_add_nat_mul_two_pi]

/-- `cosSum` against the exact sum. -/
theorem cosSum_close (tbl : Array ℤ) (n i : ℕ) (hn : 0 < n) (one E : ℝ)
    (ht : ∀ m < 4 * n, |((tbl.getD m 0 : ℤ) : ℝ) - one * Real.cos (m * Real.pi / (2 * n))| ≤ E) :
    ∀ (xs : List ℤ) (k : ℕ), |((cosSum tbl n i k xs : ℤ) : ℝ) - one * angleSum n i k xs| ≤ E * absSum xs := by
  intro xs
  induction xs with
  | nil => intro k; simp [cosSum, angleSum, absSum]
  | cons x xs ih =>
    intro k
    have h1 := ht ((2 * k + 1) * i % (4 * n)) (Nat.mod_lt _ (by omega))
    rw [cos_mod n _ hn] at h1
    push_cast at h1
    have h2 := ih (k + 1)
    rw [cosSum, angleSum, absSum_cons]
    push_cast
    have e : (x : ℝ) * (tbl.getD ((2 * k + 1) * i % (4 * n)) 0 : ℤ) + (cosSum tbl n i (k + 1) xs : ℤ) -
        one * (x * Real.cos ((2 * k + 1) * i * Real.pi / (2 * n)) + angleSum n i (k + 1) xs) =
        x * (((tbl.getD ((2 * k + 1) * i % (4 * n)) 0 : ℤ) : ℝ) - one * Real.cos ((2 * k + 1) * i * Real.pi / (2 * n)))
        + (((cosSum tbl n i (k + 1) xs : ℤ) : ℝ) - one * angleSum n i (k + 1) xs) := by ring
    rw [e, mul_add]
    refine (abs_add_le _ _).trans (add_le_add ?_ h2)
    rw [abs_mul, mul_comm E, Nat.cast_natAbs, Int.cast_abs]
    exact mul_le_mul_of_nonneg_left h1 (abs_nonneg _)

/-- Twice the sum of the formula as an integer polynomial in a root of unity. -/
noncomputable def anglePoly (n i : ℕ) : ℕ → List ℤ → ℤ[X]
  | _, [] => 0
  | k, x :: xs => C x * (X ^ ((2 * k + 1) * i) + X ^ ((4 * n - 1) * ((2 * k + 1) * i))) + anglePoly n i (k + 1) xs

theorem norm_anglePoly_le (n i : ℕ) (w : ℂ) (hw : ‖w‖ = 1) : ∀ (xs : List ℤ) (k : ℕ),
    ‖aeval w (anglePoly n i k xs)‖ ≤ 2 * absSum xs := by
  intro xs
  induction xs with
  | nil => intro k; simp [anglePoly, absSum]
  | cons x xs ih =>
    intro k
    rw [anglePoly, map_add, absSum_cons]
    refine (norm_add_le _ _).trans ?_
    rw [Nat.cast_add, mul_add (2 : ℝ)]
    refine add_le_add ?_ (ih _)
    rw [map_mul, norm_mul, map_add, map_pow, map_pow, aeval_X, aeval_C, Nat.cast_natAbs, Int.cast_abs]
    have h1 : ‖(algebraMap ℤ ℂ) x‖ = |(x : ℝ)| := by simp
    have h2 : ‖w ^ ((2 * k + 1) * i) + w ^ ((4 * n - 1) * ((2 * k + 1) * i))‖ ≤ 2 := by
      refine (norm_add_le _ _).trans ?_
      rw [norm_pow, norm_pow, hw, one_pow, one_pow]
      norm_num
    rw [h1, mul_comm]
    exact mul_le_mul_of_nonneg_right h2 (abs_nonneg _)

theorem aeval_anglePoly (n i : ℕ) (hn : 0 < n) : ∀ (xs : List ℤ) (k : ℕ),
    aeval (Complex.exp (2 * Real.pi * Complex.I / (4 * n : ℕ))) (anglePoly n i k xs) = ((2 * angleSum n i k xs : ℝ) : ℂ) := by
  have hn' : (n : ℂ) ≠ 0 := by exact_mod_cast hn.ne'
  intro xs
  induction xs with
  | nil => intro k; simp [anglePoly, angleSum]
  | cons x xs ih =>
    intro k
    rw [anglePoly, map_add, ih, angleSum, map_mul, map_add, map_pow, map_pow, aeval_X, aeval_C]
    have hinv : Complex.exp (2 * Real.pi * Complex.I / (4 * n : ℕ)) ^ (4 * n - 1) =
        Complex.exp (-(2 * Real.pi * Complex.I / (4 * n : ℕ))) := by
      rw [← Complex.exp_nat_mul, Nat.cast_sub (by omega)]
      have : (((4 * n : ℕ) : ℂ) - (1 : ℕ)) * (2 * Real.pi * Complex.I / (4 * n : ℕ)) =
          2 * Real.pi * Complex.I + -(2 * Real.pi * Complex.I / (4 * n : ℕ)) := by
        push_cast
        field_simp
        ring
      rw [this, Complex.exp_add, Complex.exp_two_pi_mul_I, one_mul]
    rw [pow_mul _ (4 * n - 1), hinv, ← Complex.exp_nat_mul, ← Complex.exp_nat_mul]
    have hc : Complex.exp ((((2 * k + 1) * i : ℕ) : ℂ) * (2 * Real.pi * Complex.I / (4 * n : ℕ))) +
        Complex.exp ((((2 * k + 1) * i : ℕ) : ℂ) * -(2 * Real.pi * Complex.I / (4 * n : ℕ))) =
        2 * Complex.cos (((2 * k + 1) * i * Real.pi / (2 * n) : ℝ) : ℂ) := by
      rw [Complex.two_cos]
      congr 2 <;> · push_cast; field_simp; ring
    rw [hc]
    push_cast
    simp
    ring

/-- THE SEPARATION: `2 (n z² - 2 S²)` is 0 or less, or not small, `S` the sum of the formula. -/
theorem separation (n i z : ℕ) (hn : 0 < n) (xs : List ℤ) (B : ℝ)
    (hB : 2 * n * (z : ℝ) ^ 2 + (2 * absSum xs) ^ 2 ≤ B) (hB1 : 1 ≤ B)
    (hpos : 0 < 2 * n * (z : ℝ) ^ 2 - (2 * angleSum n i 0 xs) ^ 2) :
    1 ≤ (2 * n * (z : ℝ) ^ 2 - (2 * angleSum n i 0 xs) ^ 2) * B ^ (2 * n - 1) := by
  have : NeZero (4 * n) := ⟨by omega⟩
  have hζ : IsPrimitiveRoot (Complex.exp (2 * Real.pi * Complex.I / (4 * n : ℕ))) (4 * n) :=
    Complex.isPrimitiveRoot_exp (4 * n) (by omega)
  set P : ℤ[X] := C (2 * n * z ^ 2 : ℤ) - anglePoly n i 0 xs ^ 2 with hP
  have hval : aeval (Complex.exp (2 * Real.pi * Complex.I / (4 * n : ℕ))) P =
      ((2 * n * (z : ℝ) ^ 2 - (2 * angleSum n i 0 xs) ^ 2 : ℝ) : ℂ) := by
    rw [hP, map_sub, map_pow, aeval_anglePoly n i hn, aeval_C]
    push_cast
    simp
  have hle : ∀ w : ℂ, w ^ (4 * n) = 1 → ‖aeval w P‖ ≤ B := by
    intro w hw
    have hw1 : ‖w‖ = 1 := Complex.norm_eq_one_of_pow_eq_one hw (by omega)
    rw [hP, map_sub, map_pow, aeval_C]
    refine (norm_sub_le _ _).trans (le_trans (add_le_add ?_ ?_) hB)
    · simp
    · rw [norm_pow]
      exact pow_le_pow_left₀ (norm_nonneg _) (norm_anglePoly_le n i w hw1 xs 0) 2
  have h := one_le_norm_mul_pow hζ P hle (by
    rw [hval]
    exact_mod_cast hpos.ne')
  rw [hval, Complex.norm_real, Real.norm_eq_abs, abs_of_pos hpos] at h
  refine h.trans (mul_le_mul_of_nonneg_left (pow_le_pow_right₀ hB1 ?_) hpos.le)
  have := totient_four_mul_le n
  omega

/-- How near an answer that is too large would be to the value it stands for. -/
theorem near_bounds (E M t w : ℝ) (hE : 1024 ≤ E) (ht0 : 0 ≤ t) (ht : t ≤ M)
    (h : w * E ^ 2 ≤ 2 * (E * t + 2 * M) ^ 2) :
    (2 * w - 4 * t ^ 2) * E ≤ 20 * M ^ 2 ∧ 2 * w + (2 * M) ^ 2 ≤ 12 * M * M := by
  have hM0 : 0 ≤ M := ht0.trans ht
  have hE0 : 0 < E := by linarith
  have hMt : M * t ≤ M * M := mul_le_mul_of_nonneg_left ht hM0
  have htt : t * t ≤ M * M := mul_le_mul ht ht ht0 hM0
  have hMM : 0 ≤ M * M := mul_nonneg hM0 hM0
  have h5 : E * (M * t) ≤ E * (M * M) := mul_le_mul_of_nonneg_left hMt hE0.le
  have h6 : 1024 * (M * M) ≤ E * (M * M) := mul_le_mul_of_nonneg_right hE hMM
  have h1 : (2 * w - 4 * t ^ 2) * E ≤ 20 * M ^ 2 := by
    have : (2 * w - 4 * t ^ 2) * E * E ≤ 20 * M ^ 2 * E := by
      have e1 : (2 * w - 4 * t ^ 2) * E * E = 2 * (w * E ^ 2) - 4 * (E * t) ^ 2 := by ring
      have e2 : 2 * (E * t + 2 * M) ^ 2 = 2 * (E * t) ^ 2 + 8 * (E * (M * t)) + 8 * (M * M) := by ring
      rw [e1]
      rw [e2] at h
      linarith
    exact le_of_mul_le_mul_right this hE0
  refine ⟨h1, ?_⟩
  have h2 := (le_div_iff₀ hE0).mpr h1
  have h7 : 20 * M ^ 2 / E ≤ M * M := by
    rw [div_le_iff₀ hE0]; linarith
  linarith

/-- The integer part of `sqrt(2/n) |S|` from an integer `a` near `2^(2g) S`. -/
theorem lineAc_abs (n i g : ℕ) (hn : 0 < n) (xs : List ℤ) (a : ℕ)
    (hg : 1024 * (12 * absSum xs * absSum xs + 4 * n + 1) ^ (2 * n) < 2 ^ g)
    (ha : abs ((a : ℝ) - 2 ^ (2 * g) * |angleSum n i 0 xs|) ≤ 2 ^ g * absSum xs) :
    ((isqrt (2 * (a + 2 ^ g * absSum xs) ^ 2 / (n * 2 ^ (4 * g))) : ℕ) : ℝ) ^ 2 ≤ 2 * angleSum n i 0 xs ^ 2 / n ∧
      2 * angleSum n i 0 xs ^ 2 / n < ((isqrt (2 * (a + 2 ^ g * absSum xs) ^ 2 / (n * 2 ^ (4 * g))) : ℕ) + 1 : ℝ) ^ 2 := by
  set M := absSum xs with hM
  set S := angleSum n i 0 xs with hS
  have hSM : |S| ≤ M := abs_angleSum_le n i xs 0
  have hn' : (0 : ℝ) < n := by exact_mod_cast hn
  set E : ℝ := 2 ^ g with hE
  have hE0 : 0 < E := by positivity
  have hone : (2 : ℝ) ^ (2 * g) = E ^ 2 := by rw [hE, ← pow_mul]; ring_nf
  have hone2 : (2 : ℝ) ^ (4 * g) = E ^ 4 := by rw [hE, ← pow_mul]; ring_nf
  set B : ℝ := 12 * M * M + 4 * n + 1 with hB
  have hM0 : (0 : ℝ) ≤ M := Nat.cast_nonneg M
  have hB1 : 1 ≤ B := by rw [hB]; nlinarith
  have hBE : 1024 * B ^ (2 * n) < E := by
    have : ((1024 * (12 * M * M + 4 * n + 1) ^ (2 * n) : ℕ) : ℝ) < ((2 ^ g : ℕ) : ℝ) := by exact_mod_cast hg
    push_cast at this
    exact this
  have hE1024 : 1024 ≤ E := by
    have := one_le_pow₀ hB1 (n := 2 * n)
    linarith
  obtain ⟨hlo, hhi⟩ := isqrt_div_spec (2 * (a + 2 ^ g * M) ^ 2) (n * 2 ^ (4 * g)) (by positivity)
  set z := isqrt (2 * (a + 2 ^ g * M) ^ 2 / (n * 2 ^ (4 * g))) with hz
  push_cast at hlo hhi
  rw [hone2, ← hE] at hlo hhi
  rw [hone] at ha
  obtain ⟨ha1, ha2⟩ := abs_le.mp ha
  have hS0 : 0 ≤ |S| := abs_nonneg S
  set A : ℝ := (a : ℝ) + E * M with hA
  have hA1 : E ^ 2 * |S| ≤ A := by linarith
  have hA2 : A ≤ E ^ 2 * |S| + 2 * E * M := by linarith
  have hA0 : 0 ≤ A := by positivity
  have hS2 : S ^ 2 = |S| ^ 2 := (sq_abs S).symm
  rw [le_div_iff₀ (by positivity)] at hlo
  rw [div_lt_iff₀ (by positivity)] at hhi
  have hE4 : (0 : ℝ) < E ^ 4 := by positivity
  constructor
  · -- `z` is not above the value: else the separation is violated
    by_contra hc
    push Not at hc
    rw [hS2, div_lt_iff₀ hn'] at hc
    have hpos : 0 < 2 * n * (z : ℝ) ^ 2 - (2 * angleSum n i 0 xs) ^ 2 := by
      have : (2 * angleSum n i 0 xs) ^ 2 = 4 * |S| ^ 2 := by rw [← hS2, hS]; ring
      rw [this]; linarith
    -- an upper bound of `n z²`
    have hub : n * (z : ℝ) ^ 2 * E ^ 2 ≤ 2 * (E * |S| + 2 * M) ^ 2 := by
      have h1 : (z : ℝ) ^ 2 * (n * E ^ 4) ≤ 2 * (E ^ 2 * |S| + 2 * E * M) ^ 2 := by
        refine hlo.trans ?_
        have := pow_le_pow_left₀ hA0 hA2 2
        linarith
      have h2 : 2 * (E ^ 2 * |S| + 2 * E * M) ^ 2 = 2 * (E * |S| + 2 * M) ^ 2 * E ^ 2 := by ring
      have h3 : (z : ℝ) ^ 2 * (n * E ^ 4) = n * (z : ℝ) ^ 2 * E ^ 2 * E ^ 2 := by ring
      rw [h2, h3] at h1
      exact le_of_mul_le_mul_right h1 (by positivity)
    obtain ⟨hα, hBz'⟩ := near_bounds E M |S| (n * (z : ℝ) ^ 2) hE1024 hS0 hSM hub
    have hα' : (2 * n * (z : ℝ) ^ 2 - (2 * S) ^ 2) * E ≤ 20 * M ^ 2 := by
      rw [show 2 * n * (z : ℝ) ^ 2 - (2 * S) ^ 2 = 2 * (n * (z : ℝ) ^ 2) - 4 * |S| ^ 2 by rw [← hS2]; ring]
      exact hα
    have hBz : 2 * n * (z : ℝ) ^ 2 + (2 * M) ^ 2 ≤ B := by
      rw [hB]; linarith
    have hsep := separation n i z hn xs B hBz hB1 hpos
    have hpow : B ^ (2 * n) = B * B ^ (2 * n - 1) := by
      rw [← pow_succ', show 2 * n - 1 + 1 = 2 * n by omega]
    have hBp : 0 < B ^ (2 * n - 1) := by positivity
    have hMB : 20 * (M : ℝ) ^ 2 ≤ 2 * B := by rw [hB]; nlinarith [mul_nonneg hM0 hM0]
    have h9 : E ≤ 20 * M ^ 2 * B ^ (2 * n - 1) := by
      calc E ≤ (2 * n * (z : ℝ) ^ 2 - (2 * angleSum n i 0 xs) ^ 2) * B ^ (2 * n - 1) * E := le_mul_of_one_le_left hE0.le hsep
        _ = (2 * n * (z : ℝ) ^ 2 - (2 * angleSum n i 0 xs) ^ 2) * E * B ^ (2 * n - 1) := by ring
        _ ≤ 20 * M ^ 2 * B ^ (2 * n - 1) := mul_le_mul_of_nonneg_right hα' hBp.le
    have h10 : 20 * M ^ 2 * B ^ (2 * n - 1) ≤ 2 * B ^ (2 * n) := by
      rw [hpow, ← mul_assoc]
      exact mul_le_mul_of_nonneg_right hMB hBp.le
    have : 0 < B ^ (2 * n) := by positivity
    linarith
  · rw [hS2, div_lt_iff₀ hn']
    have h1 : 2 * (E ^ 2 * |S|) ^ 2 ≤ 2 * A ^ 2 := by
      have := pow_le_pow_left₀ (by positivity : (0 : ℝ) ≤ E ^ 2 * |S|) hA1 2
      linarith
    have h2 : 2 * |S| ^ 2 * E ^ 4 < ((z : ℝ) + 1) ^ 2 * n * E ^ 4 := by
      calc 2 * |S| ^ 2 * E ^ 4 = 2 * (E ^ 2 * |S|) ^ 2 := by ring
        _ ≤ 2 * A ^ 2 := h1
        _ < _ := hhi
        _ = _ := by ring
    exact lt_of_mul_lt_mul_right h2 hE4.le

/-- What `lineDigits` promises. -/
theorem lineDigits_spec (n M : ℕ) : 1024 * (12 * M * M + 4 * n + 1) ^ (2 * n) < 2 ^ lineDigits n M :=
  Nat.lt_log2_self

/-- The squared bounds carried over to a scaled sum. -/
theorem abs_sqrt_mul_bounds (c n : ℕ) (hn : 0 < n) (S : ℝ) (z : ℕ) (h1 : (z : ℝ) ^ 2 ≤ c * S ^ 2 / n)
    (h2 : c * S ^ 2 / n < ((z : ℝ) + 1) ^ 2) :
    (z : ℝ) ≤ |Real.sqrt (c / n) * S| ∧ |Real.sqrt (c / n) * S| < z + 1 := by
  have hn' : (0 : ℝ) < n := by exact_mod_cast hn
  have hsq : |Real.sqrt (c / n) * S| ^ 2 = c * S ^ 2 / n := by
    rw [sq_abs, mul_pow, Real.sq_sqrt (by positivity)]; ring
  rw [← hsq] at h1 h2
  exact ⟨(pow_le_pow_iff_left₀ (by positivity) (abs_nonneg _) (by norm_num)).mp h1,
    (pow_lt_pow_iff_left₀ (abs_nonneg _) (by positivity) (by norm_num)).mp h2⟩

/-- `lineDc` is the truncation of `sqrt(1/n) Σ in[k]`. -/
theorem lineDc_spec (xs : List ℤ) (n : ℕ) (hn : 0 < n) :
    IsTrunc (Real.sqrt (1 / n) * (xs.sum : ℤ)) (lineDc n xs) := by
  obtain ⟨h1, h2⟩ := isqrt_div_spec (xs.sum.natAbs ^ 2) n hn
  have hc : ((xs.sum.natAbs ^ 2 : ℕ) : ℝ) = ((1 : ℕ) : ℝ) * ((xs.sum : ℤ) : ℝ) ^ 2 := by
    rw [Nat.cast_pow, Nat.cast_natAbs, Int.cast_abs, sq_abs]; simp
  rw [hc] at h1 h2
  obtain ⟨h3, h4⟩ := abs_sqrt_mul_bounds 1 n hn _ _ h1 h2
  rw [Nat.cast_one] at h3 h4
  refine isTrunc_of_abs _ _ _ h3 h4 fun hz => ?_
  have hn' : (0 : ℝ) < n := by exact_mod_cast hn
  have hs : 0 < Real.sqrt (1 / n) := Real.sqrt_pos.mpr (by positivity)
  have hz1 : (1 : ℝ) ≤ (isqrt (xs.sum.natAbs ^ 2 / n) : ℕ) := by exact_mod_cast hz
  constructor
  · intro hx
    have : 0 ≤ ((xs.sum : ℤ) : ℝ) := nonneg_of_mul_nonneg_right hx hs
    have hne : xs.sum ≠ 0 := by intro h0; rw [h0] at hz; simp [isqrt, isqrtDigits] at hz
    exact Int.sign_eq_one_of_pos (lt_of_le_of_ne (by exact_mod_cast this) hne.symm)
  · intro hx
    have : ((xs.sum : ℤ) : ℝ) < 0 := by
      by_contra hc
      push Not at hc
      have := mul_nonneg hs.le hc
      linarith
    exact Int.sign_eq_neg_one_of_neg (by exact_mod_cast this)

/-- `lineAc` is the truncation of `sqrt(2/n) Σ in[k] cos((2k+1) i π/(2n))`. -/
theorem lineAc_spec (xs : List ℤ) (n i : ℕ) (hn : 2 ≤ n) :
    IsTrunc (Real.sqrt (2 / n) * angleSum n i 0 xs)
      (lineAc (cosTable (2 * lineDigits n (absSum xs)) n) (lineDigits n (absSum xs)) n (absSum xs) i xs) := by
  have hg := lineDigits_spec n (absSum xs)
  set g := lineDigits n (absSum xs) with hgdef
  have hn0 : 0 < n := by omega
  have hn' : (0 : ℝ) < n := by exact_mod_cast hn0
  have hn2 : (2 : ℝ) ≤ n := by exact_mod_cast hn
  have hbase : 1024 * (4 * n + 1) ^ 4 ≤ 2 ^ g := by
    have h1 : (4 * n + 1) ^ 4 ≤ (12 * absSum xs * absSum xs + 4 * n + 1) ^ (2 * n) :=
      (Nat.pow_le_pow_right (by omega) (by omega)).trans (Nat.pow_le_pow_left (by omega) _)
    omega
  have hg15 : 15 ≤ g := by
    by_contra hc
    have h1 : 2 ^ g ≤ 2 ^ 14 := Nat.pow_le_pow_right (by norm_num) (by omega)
    have h2 : 9 ^ 4 ≤ (4 * n + 1) ^ 4 := Nat.pow_le_pow_left (by omega) 4
    omega
  have hM : 1024 * (12 * absSum xs * absSum xs + 1) ≤ 2 ^ g := by
    have h1 : (12 * absSum xs * absSum xs + 4 * n + 1) ^ 1 ≤ (12 * absSum xs * absSum xs + 4 * n + 1) ^ (2 * n) :=
      Nat.pow_le_pow_right (by omega) (by omega)
    rw [pow_one] at h1
    refine le_trans (Nat.mul_le_mul_left _ (le_trans ?_ h1)) hg.le
    omega
  have hcos := cosSum_close (cosTable (2 * g) n) n i hn0 (2 ^ (2 * g)) (2 ^ g)
    (fun m hm => cosTable_close g n hn0 hbase hg15 m hm) xs 0
  unfold lineAc
  set a := cosSum (cosTable (2 * g) n) n i 0 xs with ha
  set S := angleSum n i 0 xs with hS
  have habs : abs ((a.natAbs : ℝ) - 2 ^ (2 * g) * |S|) ≤ 2 ^ g * absSum xs := by
    have h1 := abs_abs_sub_abs_le (a : ℝ) (2 ^ (2 * g) * S)
    rw [abs_mul, abs_of_nonneg (by positivity : (0 : ℝ) ≤ 2 ^ (2 * g))] at h1
    rw [Nat.cast_natAbs, Int.cast_abs]
    exact h1.trans hcos
  obtain ⟨h1, h2⟩ := lineAc_abs n i g hn0 xs a.natAbs hg habs
  have h1' := h1
  have hcast : (2 : ℝ) = ((2 : ℕ) : ℝ) := by norm_num
  rw [hcast] at h1 h2
  obtain ⟨h3, h4⟩ := abs_sqrt_mul_bounds 2 n hn0 S _ (by exact_mod_cast h1) (by exact_mod_cast h2)
  rw [← hcast] at h3 h4
  refine isTrunc_of_abs _ _ _ h3 h4 fun hz => ?_
  -- a non-zero answer leaves no doubt about the sign
  have hS1 : 1 ≤ S ^ 2 := by
    have hz1 : (1 : ℝ) ≤ (isqrt (2 * (a.natAbs + 2 ^ g * absSum xs) ^ 2 / (n * 2 ^ (4 * g))) : ℕ) := by exact_mod_cast hz
    have h5 : (1 : ℝ) ≤ 2 * S ^ 2 / n := by
      refine le_trans ?_ h1'
      nlinarith
    rw [le_div_iff₀ hn'] at h5
    linarith
  have hE : (2 : ℝ) ^ (2 * g) = 2 ^ g * 2 ^ g := by rw [← pow_add]; ring_nf
  have hE0 : (0 : ℝ) < 2 ^ g := by positivity
  have hME : (absSum xs : ℝ) < 2 ^ g := by
    have h6 : absSum xs < 2 ^ g := by
      have h7 : absSum xs ≤ absSum xs * absSum xs := Nat.le_mul_self _
      have h8 : 12 * absSum xs * absSum xs = 12 * (absSum xs * absSum xs) := by ring
      omega
    exact_mod_cast h6
  rw [hE] at hcos
  obtain ⟨hc1, hc2⟩ := abs_le.mp hcos
  have hs : 0 < Real.sqrt (2 / n) := Real.sqrt_pos.mpr (by positivity)
  have hbig : (2 : ℝ) ^ g * absSum xs < 2 ^ g * 2 ^ g := mul_lt_mul_of_pos_left hME hE0
  have hEE : (0 : ℝ) < 2 ^ g * 2 ^ g := by positivity
  constructor
  · intro hx
    have h0 : 0 ≤ S := nonneg_of_mul_nonneg_right hx hs
    have hS1' : 1 ≤ S := by nlinarith
    have : (0 : ℝ) < a := by nlinarith
    exact Int.sign_eq_one_of_pos (by exact_mod_cast this)
  · intro hx
    have h0 : S < 0 := by
      by_contra hc
      push Not at hc
      have := mul_nonneg hs.le hc
      linarith
    have hS1' : S ≤ -1 := by nlinarith
    have : (a : ℝ) < 0 := by nlinarith
    exact Int.sign_eq_neg_one_of_neg (by exact_mod_cast this)

/-- `dctLine` is the formula of R213 and R214, on every line. -/
theorem dctLine_exact (xs : List ℤ) : IsDctLine xs (dctLine xs) := by
  refine ⟨by simp [dctLine], fun i hi => ?_⟩
  have hget : (dctLine xs).getD i 0 = if i = 0 then lineDc xs.length xs else
      lineAc (cosTable (2 * lineDigits xs.length (absSum xs)) xs.length) (lineDigits xs.length (absSum xs)) xs.length
        (absSum xs) i xs := by
    simp [dctLine, List.getD_eq_getElem?_getD, List.getElem?_map, List.getElem?_range hi]
  rw [hget]
  by_cases h0 : i = 0
  · subst h0
    have h := lineDc_spec xs xs.length (by omega)
    have hsum : ∑ k ∈ range xs.length, (xs.getD k 0 : ℝ) * Real.cos ((2 * k + 1) * (0 : ℕ) * Real.pi / (2 * xs.length))
        = (xs.sum : ℤ) := by
      have he : ∀ ys : List ℤ, ∑ k ∈ range ys.length, (ys.getD k 0 : ℝ) = (ys.sum : ℤ) := by
        intro ys
        induction ys with
        | nil => simp
        | cons y ys ih =>
          rw [List.length_cons, Finset.sum_range_succ', List.sum_cons, Int.cast_add, ← ih, add_comm]
          rfl
      rw [← he xs]
      refine Finset.sum_congr rfl fun k _ => ?_
      simp
    rw [if_pos rfl, if_pos rfl, hsum]
    exact h
  · have h := lineAc_spec xs xs.length i (by omega)
    rw [angleSum_eq] at h
    simp only [Nat.zero_add] at h
    rw [if_neg h0, if_neg h0]
    exact h

end Sys2Proof.Laws
end

