-- ==== Sys2Proof/Laws/Memory.lean ====
section
/-! SUPPORT. The stores: reading after writing, the canonical form under every operation, and bits. -/

namespace Sys2Proof.Laws

open Sys2Proof.Machine

/-! ## Bytes -/

theorem wfFrom_mono {lo lo' : Nat} (h : lo ≤ lo') : ∀ {m : Memory}, m.wfFrom lo' = true → m.wfFrom lo = true
  | [], _ => rfl
  | (k, v) :: m, hm => by
    simp only [Memory.wfFrom, Bool.and_eq_true, decide_eq_true_eq] at *
    exact ⟨⟨by omega, hm.1.2⟩, hm.2⟩

/-- Below every listed offset a store reads 0. -/
theorem read_of_lt_wfFrom {lo a : Nat} (h : a < lo) : ∀ {m : Memory}, m.wfFrom lo = true → m.read a = 0
  | [], _ => rfl
  | (k, v) :: m, hm => by
    simp only [Memory.wfFrom, Bool.and_eq_true, decide_eq_true_eq] at hm
    rw [Memory.read, if_neg (by omega)]
    exact read_of_lt_wfFrom (by omega) hm.2

theorem write_wfFrom {lo a : Nat} (v : Byte) (h : lo ≤ a) : ∀ {m : Memory}, m.wfFrom lo = true →
    (m.write a v).wfFrom lo = true
  | [], _ => by
    unfold Memory.write
    split <;> simp_all [Memory.wfFrom]
  | (k, w) :: m, hm => by
    simp only [Memory.wfFrom, Bool.and_eq_true, decide_eq_true_eq] at hm
    unfold Memory.write
    split
    · split <;> simp_all [Memory.wfFrom]
    · split
      · split
        · exact wfFrom_mono (by omega) hm.2
        · subst a; simp_all [Memory.wfFrom]
      · simp only [Memory.wfFrom, Bool.and_eq_true, decide_eq_true_eq]
        exact ⟨hm.1, write_wfFrom v (by omega) hm.2⟩

/-- A write keeps the canonical form. -/
theorem write_wf {m : Memory} (a : Nat) (v : Byte) (h : m.wf = true) : (m.write a v).wf = true :=
  write_wfFrom v (Nat.zero_le a) h

theorem read_write_wfFrom (a b : Nat) (v : Byte) : ∀ {lo : Nat} {m : Memory}, m.wfFrom lo = true →
    (m.write a v).read b = if b = a then v else m.read b
  | lo, [], _ => by
    unfold Memory.write
    split <;> rename_i hv
    · simp [Memory.read, hv]
    · simp [Memory.read, eq_comm]
  | lo, (k, w) :: m, hm => by
    simp only [Memory.wfFrom, Bool.and_eq_true, decide_eq_true_eq] at hm
    unfold Memory.write
    split
    · split <;> rename_i hv
      · by_cases hb : b = a
        · subst hb
          rw [if_pos rfl, Memory.read, if_neg (by omega), hv]
          exact read_of_lt_wfFrom (by omega) hm.2
        · rw [if_neg hb]
      · rw [Memory.read]
        simp only [eq_comm (a := a)]
    · split
      · subst a
        have h0 : Memory.read m k = 0 := read_of_lt_wfFrom (Nat.lt_succ_self k) hm.2
        split <;> rename_i hv <;> by_cases hb : b = k
        · subst hb; rw [if_pos rfl, h0, hv]
        · rw [if_neg hb, Memory.read, if_neg (Ne.symm hb)]
        · subst hb; rw [if_pos rfl, Memory.read, if_pos rfl]
        · rw [if_neg hb, Memory.read, if_neg (Ne.symm hb), Memory.read, if_neg (Ne.symm hb)]
      · rw [Memory.read, Memory.read, read_write_wfFrom a b v hm.2]
        by_cases hk : k = b
        · rw [if_pos hk, if_pos hk, if_neg (by omega)]
        · rw [if_neg hk, if_neg hk]

/-- A read after a write to the same offset gives the byte written; every other offset reads as before. -/
theorem read_write {m : Memory} (h : m.wf = true) (a b : Nat) (v : Byte) :
    (m.write a v).read b = if b = a then v else m.read b :=
  read_write_wfFrom a b v h

/-- Two canonical stores with the same bytes are one store. -/
theorem eq_of_read_wfFrom : ∀ {lo : Nat} {m m' : Memory}, m.wfFrom lo = true → m'.wfFrom lo = true →
    (∀ a, m.read a = m'.read a) → m = m'
  | _, [], [], _, _, _ => rfl
  | lo, [], (k, v) :: m, _, h, he => by
    simp only [Memory.wfFrom, Bool.and_eq_true, decide_eq_true_eq, bne_iff_ne] at h
    have := he k
    simp [Memory.read] at this
    exact absurd this.symm h.1.2
  | lo, (k, v) :: m, [], h, _, he => by
    simp only [Memory.wfFrom, Bool.and_eq_true, decide_eq_true_eq, bne_iff_ne] at h
    have := he k
    simp [Memory.read] at this
    exact absurd this h.1.2
  | lo, (k, v) :: m, (k', v') :: m', h, h', he => by
    simp only [Memory.wfFrom, Bool.and_eq_true, decide_eq_true_eq, bne_iff_ne] at h h'
    have hk : k = k' := by
      rcases Nat.lt_trichotomy k k' with hlt | heq | hgt
      · have := he k
        rw [Memory.read, if_pos rfl, Memory.read, if_neg (by omega), read_of_lt_wfFrom (by omega) h'.2] at this
        exact absurd this h.1.2
      · exact heq
      · have := he k'
        rw [Memory.read, if_neg (by omega), Memory.read, if_pos rfl, read_of_lt_wfFrom (by omega) h.2] at this
        exact absurd this.symm h'.1.2
    subst hk
    have hv : v = v' := by
      have := he k
      rwa [Memory.read, if_pos rfl, Memory.read, if_pos rfl] at this
    subst hv
    congr 1
    refine eq_of_read_wfFrom h.2 h'.2 fun a => ?_
    by_cases ha : k = a
    · subst ha
      rw [read_of_lt_wfFrom (by omega) h.2, read_of_lt_wfFrom (by omega) h'.2]
    · have := he a
      rwa [Memory.read, if_neg ha, Memory.read, if_neg ha] at this

theorem eq_of_read {m m' : Memory} (h : m.wf = true) (h' : m'.wf = true) (he : ∀ a, m.read a = m'.read a) : m = m' :=
  eq_of_read_wfFrom h h' he

/-! ## Sizes -/

theorem within_cons {k : Nat} {v : Byte} {m : Memory} {n : Nat} :
    Memory.within ((k, v) :: m) n = true ↔ k < n ∧ m.within n = true := by
  simp [Memory.within]

theorem within_mono {m : Memory} {n n' : Nat} (h : n ≤ n') (hm : m.within n = true) : m.within n' = true := by
  simp only [Memory.within, List.all_eq_true, decide_eq_true_eq] at *
  exact fun c hc => (hm c hc).trans_le h

theorem write_within {a n : Nat} (v : Byte) (h : a < n) : ∀ {m : Memory}, m.within n = true →
    (m.write a v).within n = true
  | [], _ => by
    unfold Memory.write
    split <;> simp [Memory.within, h]
  | (k, w) :: m, hm => by
    rw [within_cons] at hm
    unfold Memory.write
    split
    · split <;> simp only [within_cons] <;> tauto
    · split
      · split
        · exact hm.2
        · rw [within_cons]; exact ⟨h, hm.2⟩
      · rw [within_cons]; exact ⟨hm.1, write_within v h hm.2⟩

/-- A store inside a size reads 0 from that size on. -/
theorem read_of_within {n a : Nat} (h : n ≤ a) : ∀ {m : Memory}, m.within n = true → m.read a = 0
  | [], _ => rfl
  | (k, v) :: m, hm => by
    rw [within_cons] at hm
    rw [Memory.read, if_neg (by omega)]
    exact read_of_within h hm.2

theorem within_zero {m : Memory} (h : m.within 0 = true) : m = [] := by
  cases m with
  | nil => rfl
  | cons c m => simp [Memory.within] at h

/-! ## Whole stores -/

theorem ofBytesAt_wfFrom : ∀ (vs : List Byte) (a : Nat), (Memory.ofBytesAt a vs).wfFrom a = true
  | [], _ => rfl
  | v :: vs, a => by
    unfold Memory.ofBytesAt
    split
    · exact wfFrom_mono (Nat.le_succ a) (ofBytesAt_wfFrom vs (a + 1))
    · rename_i hv
      simp only [Memory.wfFrom, ofBytesAt_wfFrom vs (a + 1), le_refl, decide_true, Bool.true_and, Bool.and_true, bne_iff_ne]
      exact hv

theorem ofBytes_wf (vs : List Byte) : (Memory.ofBytes vs).wf = true := ofBytesAt_wfFrom vs 0

theorem ofBytesAt_within : ∀ (vs : List Byte) (a : Nat), (Memory.ofBytesAt a vs).within (a + vs.length) = true
  | [], _ => rfl
  | v :: vs, a => by
    have h := ofBytesAt_within vs (a + 1)
    rw [show a + 1 + vs.length = a + (v :: vs).length by simp; omega] at h
    unfold Memory.ofBytesAt
    split
    · exact h
    · rw [within_cons]
      exact ⟨by simp, h⟩

theorem ofBytes_within (vs : List Byte) {n : Nat} (h : vs.length ≤ n) : (Memory.ofBytes vs).within n = true := by
  have := ofBytesAt_within vs 0
  rw [Nat.zero_add] at this
  exact within_mono h this

theorem read_ofBytesAt : ∀ (vs : List Byte) (a b : Nat), (Memory.ofBytesAt a vs).read (a + b) = vs.getD b 0
  | [], _, _ => rfl
  | v :: vs, a, 0 => by
    unfold Memory.ofBytesAt
    split
    · rename_i hv
      have h0 : (Memory.ofBytesAt (a + 1) vs).read a = 0 :=
        read_of_lt_wfFrom (Nat.lt_succ_self a) (ofBytesAt_wfFrom vs (a + 1))
      exact h0.trans (by rw [List.getD_cons_zero, hv])
    · simp [Memory.read]
  | v :: vs, a, b + 1 => by
    have h := read_ofBytesAt vs (a + 1) b
    rw [show a + 1 + b = a + (b + 1) by omega] at h
    unfold Memory.ofBytesAt
    split
    · rw [h, List.getD_cons_succ]
    · rw [Memory.read, if_neg (by omega), h, List.getD_cons_succ]

/-- The store of a list of bytes reads as the list, and 0 after it. -/
@[simp] theorem read_ofBytes (vs : List Byte) (b : Nat) : (Memory.ofBytes vs).read b = vs.getD b 0 := by
  have := read_ofBytesAt vs 0 b
  rwa [Nat.zero_add] at this

theorem take_wfFrom (n : Nat) : ∀ {lo : Nat} {m : Memory}, m.wfFrom lo = true → (m.take n).wfFrom lo = true
  | _, [], _ => rfl
  | lo, (k, v) :: m, h => by
    simp only [Memory.wfFrom, Bool.and_eq_true, decide_eq_true_eq] at h
    have ih := take_wfFrom n h.2
    unfold Memory.take at *
    rw [List.filter_cons]
    split
    · simp only [Memory.wfFrom, Bool.and_eq_true, decide_eq_true_eq]
      exact ⟨h.1, ih⟩
    · exact wfFrom_mono (by omega) ih

theorem take_wf {m : Memory} (n : Nat) (h : m.wf = true) : (m.take n).wf = true := take_wfFrom n h

theorem take_within (m : Memory) (n : Nat) : (m.take n).within n = true := by
  simp [Memory.within, Memory.take]

/-- The first `n` bytes are copied, the rest is gone. -/
theorem read_take (n a : Nat) : ∀ (m : Memory), (m.take n).read a = if a < n then m.read a else 0
  | [] => by simp [Memory.take, Memory.read]
  | (k, v) :: m => by
    have ih := read_take n a m
    unfold Memory.take at *
    rw [List.filter_cons]
    by_cases hk : k < n <;> by_cases ha : k = a
    · subst ha; simp [hk, Memory.read]
    · simp only [hk, decide_true, if_true, Memory.read, if_neg ha, ih]
    · subst ha; simp [hk, ih]
    · simp only [hk, decide_false, Bool.false_eq_true, if_false, Memory.read, if_neg ha, ih]

theorem bytes_length (m : Memory) (a n : Nat) : (m.bytes a n).length = n := by simp [Memory.bytes]

theorem bytes_getD (m : Memory) (a n i : Nat) (h : i < n) : (m.bytes a n).getD i 0 = m.read (a + i) := by
  simp [Memory.bytes, List.getD_eq_getElem?_getD, List.getElem?_map, List.getElem?_range h]

/-! ## Bits -/

theorem setBit_wf {m : Memory} (b : Nat) (v : Bool) (h : m.wf = true) : (m.setBit b v).wf = true := write_wf _ _ h

theorem setBit_within {m : Memory} {b n : Nat} (v : Bool) (hb : b < 8 * n) (h : m.within n = true) :
    (m.setBit b v).within n = true := write_within _ (by omega) h

/-- `SetBit` changes exactly its bit. -/
theorem getBit_setBit {m : Memory} (h : m.wf = true) (b c : Nat) (v : Bool) :
    (m.setBit b v).getBit c = if c = b then v else m.getBit c := by
  unfold Memory.getBit Memory.setBit
  rw [read_write h]
  by_cases hd : c / 8 = b / 8
  · rw [if_pos hd]
    by_cases hm : c % 8 = b % 8
    · have hcb : c = b := by omega
      subst hcb
      have : c % 8 < 8 := Nat.mod_lt _ (by norm_num)
      cases v <;> simp [this]
    · rw [if_neg (by omega : c ≠ b), hd]
      have : c % 8 < 8 := Nat.mod_lt _ (by norm_num)
      cases v <;> simp [this] <;> tauto
  · rw [if_neg hd, if_neg (by rintro rfl; exact hd rfl)]

theorem putBits_wf {m : Memory} (pos : Nat) (src : Nat → Bool) (h : m.wf = true) :
    ∀ n, (m.putBits pos src n).wf = true
  | 0 => h
  | n + 1 => setBit_wf _ _ (putBits_wf pos src h n)

theorem putBits_within {m : Memory} {pos size : Nat} (src : Nat → Bool) (h : m.within size = true) :
    ∀ n, pos + n ≤ 8 * size → (m.putBits pos src n).within size = true
  | 0, _ => h
  | n + 1, hn => setBit_within _ (by omega) (putBits_within src h n (by omega))

/-- `CopyBits` (R70), one bit at a time: the range takes the source's bits, every other bit stays. -/
theorem getBit_putBits {m : Memory} (h : m.wf = true) (pos : Nat) (src : Nat → Bool) (c : Nat) :
    ∀ n, (m.putBits pos src n).getBit c = if pos ≤ c ∧ c < pos + n then src (c - pos) else m.getBit c
  | 0 => by
    simp only [Memory.putBits]
    rw [if_neg (by omega)]
  | n + 1 => by
    rw [Memory.putBits, getBit_setBit (putBits_wf pos src h n), getBit_putBits h pos src c n]
    by_cases hc : c = pos + n
    · subst hc; simp
    · rw [if_neg hc]
      by_cases hr : pos ≤ c ∧ c < pos + n
      · rw [if_pos hr, if_pos ⟨hr.1, by omega⟩]
      · rw [if_neg hr, if_neg (by omega)]

/-- A byte is its bits. -/
theorem read_eq_of_getBit {m m' : Memory} (h : ∀ b, m.getBit b = m'.getBit b) (a : Nat) : m.read a = m'.read a := by
  refine BitVec.eq_of_getLsbD_eq fun i hi => ?_
  have := h (8 * a + i)
  unfold Memory.getBit at this
  rwa [show (8 * a + i) / 8 = a by omega, show (8 * a + i) % 8 = i by omega] at this

/-- Two canonical stores with the same bits are one store. -/
theorem eq_of_getBit {m m' : Memory} (h : m.wf = true) (h' : m'.wf = true) (he : ∀ b, m.getBit b = m'.getBit b) :
    m = m' :=
  eq_of_read h h' (read_eq_of_getBit he)

theorem foldBits_getLsbD (f : Nat → Bool) (k : Nat) (hk : k < 8) : ∀ (l : List Nat) (v : Byte),
    (l.foldl (fun v k => if f k then v ||| BitVec.twoPow 8 k else v) v).getLsbD k =
      (v.getLsbD k || (decide (k ∈ l) && f k))
  | [], v => by simp
  | j :: l, v => by
    rw [List.foldl_cons, foldBits_getLsbD f k hk l]
    by_cases hj : k = j
    · subst hj
      cases hf : f k <;> simp [hk]
    · cases hf : f j <;> simp [hj, Ne.symm hj, BitVec.getLsbD_twoPow]

/-- Bit `k` of `byteOfBits f` is `f k`. -/
@[simp] theorem byteOfBits_getLsbD (f : Nat → Bool) (k : Nat) (hk : k < 8) : (byteOfBits f).getLsbD k = f k := by
  unfold byteOfBits
  rw [foldBits_getLsbD f k hk]
  simp [hk]

/-! ## Samples -/

/-- The four bytes of a sample are read back as the sample, where it fits 32 bits. -/
theorem readLE_four (m : Memory) (a : Nat) : m.readLE a 4 = (m.read a).toNat + 256 * ((m.read (a + 1)).toNat +
    256 * ((m.read (a + 2)).toNat + 256 * (m.read (a + 3)).toNat)) := by
  simp [Memory.readLE]

theorem sampleBytes_length (v : Int) : (sampleBytes v).length = 4 := rfl

end Sys2Proof.Laws
end

