-- ==== Sys2Proof/Laws/State.lean ====
section
/-! SUPPORT. What each named update of State does to each field. -/

namespace Sys2Proof.Laws

open Sys2Proof.Machine

@[simp] theorem setPixel_code (s : State) (k : PixelIdx) (p : PixelSlot) : (s.setPixel k p).code = s.code := rfl
@[simp] theorem setPixel_subcode (s : State) (k : PixelIdx) (p : PixelSlot) : (s.setPixel k p).subcode = s.subcode := rfl
@[simp] theorem setPixel_fault (s : State) (k : PixelIdx) (p : PixelSlot) : (s.setPixel k p).fault = s.fault := rfl
@[simp] theorem setPixel_cmd (s : State) (k : PixelIdx) (p : PixelSlot) : (s.setPixel k p).cmd = s.cmd := rfl
@[simp] theorem setPixel_arg (s : State) (k : PixelIdx) (p : PixelSlot) : (s.setPixel k p).arg = s.arg := rfl
@[simp] theorem setPixel_res (s : State) (k : PixelIdx) (p : PixelSlot) : (s.setPixel k p).res = s.res := rfl
@[simp] theorem setPixel_winSlot (s : State) (k : PixelIdx) (p : PixelSlot) : (s.setPixel k p).winSlot = s.winSlot := rfl
@[simp] theorem setPixel_winKind (s : State) (k : PixelIdx) (p : PixelSlot) : (s.setPixel k p).winKind = s.winKind := rfl
@[simp] theorem setPixel_winOff (s : State) (k : PixelIdx) (p : PixelSlot) : (s.setPixel k p).winOff = s.winOff := rfl
@[simp] theorem setPixel_pb (s : State) (k : PixelIdx) (p : PixelSlot) : (s.setPixel k p).pb = s.pb.set k p := rfl
@[simp] theorem setPixel_bs (s : State) (k : PixelIdx) (p : PixelSlot) : (s.setPixel k p).bs = s.bs := rfl
@[simp] theorem setPixel_xbuf (s : State) (k : PixelIdx) (p : PixelSlot) : (s.setPixel k p).xbuf = s.xbuf := rfl
@[simp] theorem setPixel_cfg (s : State) (k : PixelIdx) (p : PixelSlot) : (s.setPixel k p).cfg = s.cfg := rfl
@[simp] theorem setPixel_pending (s : State) (k : PixelIdx) (p : PixelSlot) : (s.setPixel k p).pending = s.pending := rfl
@[simp] theorem setPixel_rdata (s : State) (k : PixelIdx) (p : PixelSlot) : (s.setPixel k p).rdata = s.rdata := rfl
@[simp] theorem setPixel_stream (s : State) (k : PixelIdx) (p : PixelSlot) (j : StreamIdx) : (s.setPixel k p).stream j = s.stream j := rfl

@[simp] theorem setStream_code (s : State) (k : StreamIdx) (t : StreamSlot) : (s.setStream k t).code = s.code := rfl
@[simp] theorem setStream_subcode (s : State) (k : StreamIdx) (t : StreamSlot) : (s.setStream k t).subcode = s.subcode := rfl
@[simp] theorem setStream_fault (s : State) (k : StreamIdx) (t : StreamSlot) : (s.setStream k t).fault = s.fault := rfl
@[simp] theorem setStream_cmd (s : State) (k : StreamIdx) (t : StreamSlot) : (s.setStream k t).cmd = s.cmd := rfl
@[simp] theorem setStream_arg (s : State) (k : StreamIdx) (t : StreamSlot) : (s.setStream k t).arg = s.arg := rfl
@[simp] theorem setStream_res (s : State) (k : StreamIdx) (t : StreamSlot) : (s.setStream k t).res = s.res := rfl
@[simp] theorem setStream_winSlot (s : State) (k : StreamIdx) (t : StreamSlot) : (s.setStream k t).winSlot = s.winSlot := rfl
@[simp] theorem setStream_winKind (s : State) (k : StreamIdx) (t : StreamSlot) : (s.setStream k t).winKind = s.winKind := rfl
@[simp] theorem setStream_winOff (s : State) (k : StreamIdx) (t : StreamSlot) : (s.setStream k t).winOff = s.winOff := rfl
@[simp] theorem setStream_pb (s : State) (k : StreamIdx) (t : StreamSlot) : (s.setStream k t).pb = s.pb := rfl
@[simp] theorem setStream_bs (s : State) (k : StreamIdx) (t : StreamSlot) : (s.setStream k t).bs = s.bs.set k t := rfl
@[simp] theorem setStream_xbuf (s : State) (k : StreamIdx) (t : StreamSlot) : (s.setStream k t).xbuf = s.xbuf := rfl
@[simp] theorem setStream_cfg (s : State) (k : StreamIdx) (t : StreamSlot) : (s.setStream k t).cfg = s.cfg := rfl
@[simp] theorem setStream_pending (s : State) (k : StreamIdx) (t : StreamSlot) : (s.setStream k t).pending = s.pending := rfl
@[simp] theorem setStream_rdata (s : State) (k : StreamIdx) (t : StreamSlot) : (s.setStream k t).rdata = s.rdata := rfl
@[simp] theorem setStream_pixel (s : State) (k : StreamIdx) (t : StreamSlot) (j : PixelIdx) : (s.setStream k t).pixel j = s.pixel j := rfl

@[simp] theorem setXbuf_code (s : State) (m : Memory) : (s.setXbuf m).code = s.code := rfl
@[simp] theorem setXbuf_subcode (s : State) (m : Memory) : (s.setXbuf m).subcode = s.subcode := rfl
@[simp] theorem setXbuf_fault (s : State) (m : Memory) : (s.setXbuf m).fault = s.fault := rfl
@[simp] theorem setXbuf_cmd (s : State) (m : Memory) : (s.setXbuf m).cmd = s.cmd := rfl
@[simp] theorem setXbuf_arg (s : State) (m : Memory) : (s.setXbuf m).arg = s.arg := rfl
@[simp] theorem setXbuf_res (s : State) (m : Memory) : (s.setXbuf m).res = s.res := rfl
@[simp] theorem setXbuf_winSlot (s : State) (m : Memory) : (s.setXbuf m).winSlot = s.winSlot := rfl
@[simp] theorem setXbuf_winKind (s : State) (m : Memory) : (s.setXbuf m).winKind = s.winKind := rfl
@[simp] theorem setXbuf_winOff (s : State) (m : Memory) : (s.setXbuf m).winOff = s.winOff := rfl
@[simp] theorem setXbuf_pb (s : State) (m : Memory) : (s.setXbuf m).pb = s.pb := rfl
@[simp] theorem setXbuf_bs (s : State) (m : Memory) : (s.setXbuf m).bs = s.bs := rfl
@[simp] theorem setXbuf_xbuf (s : State) (m : Memory) : (s.setXbuf m).xbuf = m := rfl
@[simp] theorem setXbuf_cfg (s : State) (m : Memory) : (s.setXbuf m).cfg = s.cfg := rfl
@[simp] theorem setXbuf_pending (s : State) (m : Memory) : (s.setXbuf m).pending = s.pending := rfl
@[simp] theorem setXbuf_rdata (s : State) (m : Memory) : (s.setXbuf m).rdata = s.rdata := rfl
@[simp] theorem setXbuf_pixel (s : State) (m : Memory) (j : PixelIdx) : (s.setXbuf m).pixel j = s.pixel j := rfl
@[simp] theorem setXbuf_stream (s : State) (m : Memory) (j : StreamIdx) : (s.setXbuf m).stream j = s.stream j := rfl

@[simp] theorem succeed_code (s : State) (r0 r1 : Word) : (s.succeed r0 r1).code = .success := rfl
@[simp] theorem succeed_subcode (s : State) (r0 r1 : Word) : (s.succeed r0 r1).subcode = .success := rfl
@[simp] theorem succeed_fault (s : State) (r0 r1 : Word) : (s.succeed r0 r1).fault = s.fault := rfl
@[simp] theorem succeed_cmd (s : State) (r0 r1 : Word) : (s.succeed r0 r1).cmd = s.cmd := rfl
@[simp] theorem succeed_arg (s : State) (r0 r1 : Word) : (s.succeed r0 r1).arg = s.arg := rfl
@[simp] theorem succeed_res (s : State) (r0 r1 : Word) : (s.succeed r0 r1).res = results r0 r1 := rfl
@[simp] theorem succeed_winSlot (s : State) (r0 r1 : Word) : (s.succeed r0 r1).winSlot = s.winSlot := rfl
@[simp] theorem succeed_winKind (s : State) (r0 r1 : Word) : (s.succeed r0 r1).winKind = s.winKind := rfl
@[simp] theorem succeed_winOff (s : State) (r0 r1 : Word) : (s.succeed r0 r1).winOff = s.winOff := rfl
@[simp] theorem succeed_pb (s : State) (r0 r1 : Word) : (s.succeed r0 r1).pb = s.pb := rfl
@[simp] theorem succeed_bs (s : State) (r0 r1 : Word) : (s.succeed r0 r1).bs = s.bs := rfl
@[simp] theorem succeed_xbuf (s : State) (r0 r1 : Word) : (s.succeed r0 r1).xbuf = s.xbuf := rfl
@[simp] theorem succeed_cfg (s : State) (r0 r1 : Word) : (s.succeed r0 r1).cfg = s.cfg := rfl
@[simp] theorem succeed_pending (s : State) (r0 r1 : Word) : (s.succeed r0 r1).pending = s.pending := rfl
@[simp] theorem succeed_rdata (s : State) (r0 r1 : Word) : (s.succeed r0 r1).rdata = s.rdata := rfl
@[simp] theorem succeed_pixel (s : State) (r0 r1 : Word) (j : PixelIdx) : (s.succeed r0 r1).pixel j = s.pixel j := rfl
@[simp] theorem succeed_stream (s : State) (r0 r1 : Word) (j : StreamIdx) : (s.succeed r0 r1).stream j = s.stream j := rfl

@[simp] theorem fail_code (s : State) (c sub : Status) : (s.fail c sub).code = c := rfl
@[simp] theorem fail_subcode (s : State) (c sub : Status) : (s.fail c sub).subcode = sub := rfl
@[simp] theorem fail_fault (s : State) (c sub : Status) : (s.fail c sub).fault = s.fault := rfl
@[simp] theorem fail_cmd (s : State) (c sub : Status) : (s.fail c sub).cmd = s.cmd := rfl
@[simp] theorem fail_arg (s : State) (c sub : Status) : (s.fail c sub).arg = s.arg := rfl
@[simp] theorem fail_res (s : State) (c sub : Status) : (s.fail c sub).res = results 0 0 := rfl
@[simp] theorem fail_winSlot (s : State) (c sub : Status) : (s.fail c sub).winSlot = s.winSlot := rfl
@[simp] theorem fail_winKind (s : State) (c sub : Status) : (s.fail c sub).winKind = s.winKind := rfl
@[simp] theorem fail_winOff (s : State) (c sub : Status) : (s.fail c sub).winOff = s.winOff := rfl
@[simp] theorem fail_pb (s : State) (c sub : Status) : (s.fail c sub).pb = s.pb := rfl
@[simp] theorem fail_bs (s : State) (c sub : Status) : (s.fail c sub).bs = s.bs := rfl
@[simp] theorem fail_xbuf (s : State) (c sub : Status) : (s.fail c sub).xbuf = s.xbuf := rfl
@[simp] theorem fail_cfg (s : State) (c sub : Status) : (s.fail c sub).cfg = s.cfg := rfl
@[simp] theorem fail_pending (s : State) (c sub : Status) : (s.fail c sub).pending = s.pending := rfl
@[simp] theorem fail_rdata (s : State) (c sub : Status) : (s.fail c sub).rdata = s.rdata := rfl
@[simp] theorem fail_pixel (s : State) (c sub : Status) (j : PixelIdx) : (s.fail c sub).pixel j = s.pixel j := rfl
@[simp] theorem fail_stream (s : State) (c sub : Status) (j : StreamIdx) : (s.fail c sub).stream j = s.stream j := rfl

@[simp] theorem takeFault_code (s : State) (c : FaultCause) : (s.takeFault c).code = .executionFailure := rfl
@[simp] theorem takeFault_subcode (s : State) (c : FaultCause) : (s.takeFault c).subcode = .success := rfl
@[simp] theorem takeFault_fault (s : State) (c : FaultCause) : (s.takeFault c).fault = some c := rfl
@[simp] theorem takeFault_cmd (s : State) (c : FaultCause) : (s.takeFault c).cmd = s.cmd := rfl
@[simp] theorem takeFault_arg (s : State) (c : FaultCause) : (s.takeFault c).arg = s.arg := rfl
@[simp] theorem takeFault_res (s : State) (c : FaultCause) : (s.takeFault c).res = results 0 0 := rfl
@[simp] theorem takeFault_winSlot (s : State) (c : FaultCause) : (s.takeFault c).winSlot = s.winSlot := rfl
@[simp] theorem takeFault_winKind (s : State) (c : FaultCause) : (s.takeFault c).winKind = s.winKind := rfl
@[simp] theorem takeFault_winOff (s : State) (c : FaultCause) : (s.takeFault c).winOff = s.winOff := rfl
@[simp] theorem takeFault_pb (s : State) (c : FaultCause) : (s.takeFault c).pb = s.pb := rfl
@[simp] theorem takeFault_bs (s : State) (c : FaultCause) : (s.takeFault c).bs = s.bs := rfl
@[simp] theorem takeFault_xbuf (s : State) (c : FaultCause) : (s.takeFault c).xbuf = s.xbuf := rfl
@[simp] theorem takeFault_cfg (s : State) (c : FaultCause) : (s.takeFault c).cfg = s.cfg := rfl
@[simp] theorem takeFault_pending (s : State) (c : FaultCause) : (s.takeFault c).pending = s.pending := rfl
@[simp] theorem takeFault_rdata (s : State) (c : FaultCause) : (s.takeFault c).rdata = s.rdata := rfl
@[simp] theorem takeFault_pixel (s : State) (c : FaultCause) (j : PixelIdx) : (s.takeFault c).pixel j = s.pixel j := rfl
@[simp] theorem takeFault_stream (s : State) (c : FaultCause) (j : StreamIdx) : (s.takeFault c).stream j = s.stream j := rfl

@[simp] theorem takeWindowFault_code (s : State) : (s.takeWindowFault).code = s.code := rfl
@[simp] theorem takeWindowFault_subcode (s : State) : (s.takeWindowFault).subcode = s.subcode := rfl
@[simp] theorem takeWindowFault_fault (s : State) : (s.takeWindowFault).fault = some .winRange := rfl
@[simp] theorem takeWindowFault_cmd (s : State) : (s.takeWindowFault).cmd = s.cmd := rfl
@[simp] theorem takeWindowFault_arg (s : State) : (s.takeWindowFault).arg = s.arg := rfl
@[simp] theorem takeWindowFault_res (s : State) : (s.takeWindowFault).res = s.res := rfl
@[simp] theorem takeWindowFault_winSlot (s : State) : (s.takeWindowFault).winSlot = s.winSlot := rfl
@[simp] theorem takeWindowFault_winKind (s : State) : (s.takeWindowFault).winKind = s.winKind := rfl
@[simp] theorem takeWindowFault_winOff (s : State) : (s.takeWindowFault).winOff = s.winOff := rfl
@[simp] theorem takeWindowFault_pb (s : State) : (s.takeWindowFault).pb = s.pb := rfl
@[simp] theorem takeWindowFault_bs (s : State) : (s.takeWindowFault).bs = s.bs := rfl
@[simp] theorem takeWindowFault_xbuf (s : State) : (s.takeWindowFault).xbuf = s.xbuf := rfl
@[simp] theorem takeWindowFault_cfg (s : State) : (s.takeWindowFault).cfg = s.cfg := rfl
@[simp] theorem takeWindowFault_pending (s : State) : (s.takeWindowFault).pending = s.pending := rfl
@[simp] theorem takeWindowFault_rdata (s : State) : (s.takeWindowFault).rdata = s.rdata := rfl
@[simp] theorem takeWindowFault_pixel (s : State) (j : PixelIdx) : (s.takeWindowFault).pixel j = s.pixel j := rfl
@[simp] theorem takeWindowFault_stream (s : State) (j : StreamIdx) : (s.takeWindowFault).stream j = s.stream j := rfl

@[simp] theorem accept_code (s : State) (w : Word) : (s.accept w).code = s.code := rfl
@[simp] theorem accept_subcode (s : State) (w : Word) : (s.accept w).subcode = .success := rfl
@[simp] theorem accept_fault (s : State) (w : Word) : (s.accept w).fault = s.fault := rfl
@[simp] theorem accept_cmd (s : State) (w : Word) : (s.accept w).cmd = w := rfl
@[simp] theorem accept_arg (s : State) (w : Word) : (s.accept w).arg = s.arg := rfl
@[simp] theorem accept_res (s : State) (w : Word) : (s.accept w).res = results 0 0 := rfl
@[simp] theorem accept_winSlot (s : State) (w : Word) : (s.accept w).winSlot = s.winSlot := rfl
@[simp] theorem accept_winKind (s : State) (w : Word) : (s.accept w).winKind = s.winKind := rfl
@[simp] theorem accept_winOff (s : State) (w : Word) : (s.accept w).winOff = s.winOff := rfl
@[simp] theorem accept_pb (s : State) (w : Word) : (s.accept w).pb = s.pb := rfl
@[simp] theorem accept_bs (s : State) (w : Word) : (s.accept w).bs = s.bs := rfl
@[simp] theorem accept_xbuf (s : State) (w : Word) : (s.accept w).xbuf = s.xbuf := rfl
@[simp] theorem accept_cfg (s : State) (w : Word) : (s.accept w).cfg = s.cfg := rfl
@[simp] theorem accept_pending (s : State) (w : Word) : (s.accept w).pending = s.pending := rfl
@[simp] theorem accept_rdata (s : State) (w : Word) : (s.accept w).rdata = s.rdata := rfl
@[simp] theorem accept_pixel (s : State) (w : Word) (j : PixelIdx) : (s.accept w).pixel j = s.pixel j := rfl
@[simp] theorem accept_stream (s : State) (w : Word) (j : StreamIdx) : (s.accept w).stream j = s.stream j := rfl

@[simp] theorem resetEngine_code (s : State) : (s.resetEngine).code = State.reset.code := rfl
@[simp] theorem resetEngine_subcode (s : State) : (s.resetEngine).subcode = State.reset.subcode := rfl
@[simp] theorem resetEngine_fault (s : State) : (s.resetEngine).fault = State.reset.fault := rfl
@[simp] theorem resetEngine_cmd (s : State) : (s.resetEngine).cmd = State.reset.cmd := rfl
@[simp] theorem resetEngine_arg (s : State) : (s.resetEngine).arg = State.reset.arg := rfl
@[simp] theorem resetEngine_res (s : State) : (s.resetEngine).res = State.reset.res := rfl
@[simp] theorem resetEngine_winSlot (s : State) : (s.resetEngine).winSlot = State.reset.winSlot := rfl
@[simp] theorem resetEngine_winKind (s : State) : (s.resetEngine).winKind = State.reset.winKind := rfl
@[simp] theorem resetEngine_winOff (s : State) : (s.resetEngine).winOff = State.reset.winOff := rfl
@[simp] theorem resetEngine_pb (s : State) : (s.resetEngine).pb = State.reset.pb := rfl
@[simp] theorem resetEngine_bs (s : State) : (s.resetEngine).bs = State.reset.bs := rfl
@[simp] theorem resetEngine_xbuf (s : State) : (s.resetEngine).xbuf = State.reset.xbuf := rfl
@[simp] theorem resetEngine_cfg (s : State) : (s.resetEngine).cfg = s.cfg := rfl
@[simp] theorem resetEngine_pending (s : State) : (s.resetEngine).pending = s.pending := rfl
@[simp] theorem resetEngine_rdata (s : State) : (s.resetEngine).rdata = s.rdata := rfl

@[simp] theorem writeArg_code (s : State) (i : Fin 4) (v : Word) : (s.writeArg i v).code = s.code := rfl
@[simp] theorem writeArg_subcode (s : State) (i : Fin 4) (v : Word) : (s.writeArg i v).subcode = s.subcode := rfl
@[simp] theorem writeArg_fault (s : State) (i : Fin 4) (v : Word) : (s.writeArg i v).fault = s.fault := rfl
@[simp] theorem writeArg_cmd (s : State) (i : Fin 4) (v : Word) : (s.writeArg i v).cmd = s.cmd := rfl
@[simp] theorem writeArg_arg (s : State) (i : Fin 4) (v : Word) : (s.writeArg i v).arg = s.arg.set i v := rfl
@[simp] theorem writeArg_res (s : State) (i : Fin 4) (v : Word) : (s.writeArg i v).res = s.res := rfl
@[simp] theorem writeArg_winSlot (s : State) (i : Fin 4) (v : Word) : (s.writeArg i v).winSlot = s.winSlot := rfl
@[simp] theorem writeArg_winKind (s : State) (i : Fin 4) (v : Word) : (s.writeArg i v).winKind = s.winKind := rfl
@[simp] theorem writeArg_winOff (s : State) (i : Fin 4) (v : Word) : (s.writeArg i v).winOff = s.winOff := rfl
@[simp] theorem writeArg_pb (s : State) (i : Fin 4) (v : Word) : (s.writeArg i v).pb = s.pb := rfl
@[simp] theorem writeArg_bs (s : State) (i : Fin 4) (v : Word) : (s.writeArg i v).bs = s.bs := rfl
@[simp] theorem writeArg_xbuf (s : State) (i : Fin 4) (v : Word) : (s.writeArg i v).xbuf = s.xbuf := rfl
@[simp] theorem writeArg_cfg (s : State) (i : Fin 4) (v : Word) : (s.writeArg i v).cfg = s.cfg := rfl
@[simp] theorem writeArg_pending (s : State) (i : Fin 4) (v : Word) : (s.writeArg i v).pending = s.pending := rfl
@[simp] theorem writeArg_rdata (s : State) (i : Fin 4) (v : Word) : (s.writeArg i v).rdata = s.rdata := rfl
@[simp] theorem writeArg_pixel (s : State) (i : Fin 4) (v : Word) (j : PixelIdx) : (s.writeArg i v).pixel j = s.pixel j := rfl
@[simp] theorem writeArg_stream (s : State) (i : Fin 4) (v : Word) (j : StreamIdx) : (s.writeArg i v).stream j = s.stream j := rfl

@[simp] theorem writeWinSel_code (s : State) (v : Word) : (s.writeWinSel v).code = s.code := rfl
@[simp] theorem writeWinSel_subcode (s : State) (v : Word) : (s.writeWinSel v).subcode = s.subcode := rfl
@[simp] theorem writeWinSel_fault (s : State) (v : Word) : (s.writeWinSel v).fault = s.fault := rfl
@[simp] theorem writeWinSel_cmd (s : State) (v : Word) : (s.writeWinSel v).cmd = s.cmd := rfl
@[simp] theorem writeWinSel_arg (s : State) (v : Word) : (s.writeWinSel v).arg = s.arg := rfl
@[simp] theorem writeWinSel_res (s : State) (v : Word) : (s.writeWinSel v).res = s.res := rfl
@[simp] theorem writeWinSel_winSlot (s : State) (v : Word) : (s.writeWinSel v).winSlot = v.extractLsb' 0 4 := rfl
@[simp] theorem writeWinSel_winKind (s : State) (v : Word) : (s.writeWinSel v).winKind = v.extractLsb' 8 2 := rfl
@[simp] theorem writeWinSel_winOff (s : State) (v : Word) : (s.writeWinSel v).winOff = s.winOff := rfl
@[simp] theorem writeWinSel_pb (s : State) (v : Word) : (s.writeWinSel v).pb = s.pb := rfl
@[simp] theorem writeWinSel_bs (s : State) (v : Word) : (s.writeWinSel v).bs = s.bs := rfl
@[simp] theorem writeWinSel_xbuf (s : State) (v : Word) : (s.writeWinSel v).xbuf = s.xbuf := rfl
@[simp] theorem writeWinSel_cfg (s : State) (v : Word) : (s.writeWinSel v).cfg = s.cfg := rfl
@[simp] theorem writeWinSel_pending (s : State) (v : Word) : (s.writeWinSel v).pending = s.pending := rfl
@[simp] theorem writeWinSel_rdata (s : State) (v : Word) : (s.writeWinSel v).rdata = s.rdata := rfl
@[simp] theorem writeWinSel_pixel (s : State) (v : Word) (j : PixelIdx) : (s.writeWinSel v).pixel j = s.pixel j := rfl
@[simp] theorem writeWinSel_stream (s : State) (v : Word) (j : StreamIdx) : (s.writeWinSel v).stream j = s.stream j := rfl

@[simp] theorem bumpWindow_code (s : State) : (s.bumpWindow).code = s.code := rfl
@[simp] theorem bumpWindow_subcode (s : State) : (s.bumpWindow).subcode = s.subcode := rfl
@[simp] theorem bumpWindow_fault (s : State) : (s.bumpWindow).fault = s.fault := rfl
@[simp] theorem bumpWindow_cmd (s : State) : (s.bumpWindow).cmd = s.cmd := rfl
@[simp] theorem bumpWindow_arg (s : State) : (s.bumpWindow).arg = s.arg := rfl
@[simp] theorem bumpWindow_res (s : State) : (s.bumpWindow).res = s.res := rfl
@[simp] theorem bumpWindow_winSlot (s : State) : (s.bumpWindow).winSlot = s.winSlot := rfl
@[simp] theorem bumpWindow_winKind (s : State) : (s.bumpWindow).winKind = s.winKind := rfl
@[simp] theorem bumpWindow_winOff (s : State) : (s.bumpWindow).winOff = s.winOff + 1 := rfl
@[simp] theorem bumpWindow_pb (s : State) : (s.bumpWindow).pb = s.pb := rfl
@[simp] theorem bumpWindow_bs (s : State) : (s.bumpWindow).bs = s.bs := rfl
@[simp] theorem bumpWindow_xbuf (s : State) : (s.bumpWindow).xbuf = s.xbuf := rfl
@[simp] theorem bumpWindow_cfg (s : State) : (s.bumpWindow).cfg = s.cfg := rfl
@[simp] theorem bumpWindow_pending (s : State) : (s.bumpWindow).pending = s.pending := rfl
@[simp] theorem bumpWindow_rdata (s : State) : (s.bumpWindow).rdata = s.rdata := rfl
@[simp] theorem bumpWindow_pixel (s : State) (j : PixelIdx) : (s.bumpWindow).pixel j = s.pixel j := rfl
@[simp] theorem bumpWindow_stream (s : State) (j : StreamIdx) : (s.bumpWindow).stream j = s.stream j := rfl

/-! ## Slots after an update -/

theorem setPixel_pixel (s : State) (k j : PixelIdx) (p : PixelSlot) :
    (s.setPixel k p).pixel j = if j = k then p else s.pixel j := by
  unfold State.pixel State.setPixel
  simp only [Fin.getElem_fin, Vector.getElem_set, Fin.ext_iff, eq_comm]

@[simp] theorem setPixel_pixel_self (s : State) (k : PixelIdx) (p : PixelSlot) : (s.setPixel k p).pixel k = p := by
  rw [setPixel_pixel, if_pos rfl]

theorem setPixel_pixel_ne (s : State) {k j : PixelIdx} (p : PixelSlot) (h : j ≠ k) :
    (s.setPixel k p).pixel j = s.pixel j := by
  rw [setPixel_pixel, if_neg h]

theorem setStream_stream (s : State) (k j : StreamIdx) (t : StreamSlot) :
    (s.setStream k t).stream j = if j = k then t else s.stream j := by
  unfold State.stream State.setStream
  simp only [Fin.getElem_fin, Vector.getElem_set, Fin.ext_iff, eq_comm]

@[simp] theorem setStream_stream_self (s : State) (k : StreamIdx) (t : StreamSlot) : (s.setStream k t).stream k = t := by
  rw [setStream_stream, if_pos rfl]

theorem setStream_stream_ne (s : State) {k j : StreamIdx} (t : StreamSlot) (h : j ≠ k) :
    (s.setStream k t).stream j = s.stream j := by
  rw [setStream_stream, if_neg h]

@[simp] theorem resetEngine_pixel (s : State) (j : PixelIdx) : s.resetEngine.pixel j = .empty := by
  simp [State.pixel, State.resetEngine, State.reset]

@[simp] theorem resetEngine_stream (s : State) (j : StreamIdx) : s.resetEngine.stream j = .empty := by
  simp [State.stream, State.resetEngine, State.reset]

@[simp] theorem writeArg_argNat (s : State) (i j : Fin 4) (v : Word) :
    (s.writeArg i v).argNat j = if j = i then v.toNat else s.argNat j := by
  unfold State.argNat State.writeArg
  by_cases h : j = i
  · subst h; simp
  · simp only [h, if_false]
    rw [Fin.getElem_fin, Fin.getElem_fin, Vector.getElem_set_ne]
    intro e; exact h (Fin.ext e.symm)

/-! ## The words of the registers after an ending -/

@[simp] theorem results_res0 (r0 r1 : Word) : (results r0 r1)[0] = r0 := rfl
@[simp] theorem results_res1 (r0 r1 : Word) : (results r0 r1)[1] = r1 := rfl
@[simp] theorem results_res2 (r0 r1 : Word) : (results r0 r1)[2] = 0 := rfl
@[simp] theorem results_res3 (r0 r1 : Word) : (results r0 r1)[3] = 0 := rfl

end Sys2Proof.Laws
end

