-- ==== Sys2Proof/Laws/Ops.lean ====
section
/-! SUPPORT. What each shared operation can do, said once: the pool, the slots it makes, appending and reading, the ends of
commands, and the procedures that answer a buffer or a reason to stop. -/

namespace Sys2Proof.Laws

open Sys2Proof.Machine

/-! ## The pool -/

/-- `Alloc(n)` (R46) with `held` bytes of temporaries. -/
theorem canAlloc_iff (s : State) (held n : Nat) :
    s.canAlloc held n = true ↔ n ≤ bufMaxBytes ∧ s.poolHas (held + n) := by
  unfold State.canAlloc State.poolHas
  rw [Bool.and_eq_true, decide_eq_true_eq]
  refine and_congr Iff.rfl ?_
  cases s.cfg.poolBytes with
  | none => simp
  | some p => simp [Nat.add_assoc]

theorem canAlloc_zero_iff (s : State) (n : Nat) : s.canAlloc 0 n = true ↔ s.allocOk n := by
  rw [canAlloc_iff, Nat.zero_add]; rfl

theorem poolOk_iff (s : State) : s.poolOk = true ↔ s.poolHas 0 := by
  unfold State.poolOk State.poolHas
  cases s.cfg.poolBytes with
  | none => simp
  | some p => simp

theorem poolHas_mono {s : State} {m n : Nat} (h : m ≤ n) (hn : s.poolHas n) : s.poolHas m :=
  fun p hp => (Nat.add_le_add_left h _).trans (hn p hp)

theorem sum_set {α : Type} (f : α → Nat) : ∀ (l : List α) (i : Nat) (x : α) (h : i < l.length),
    ((l.set i x).map f).sum + f l[i] = (l.map f).sum + f x
  | y :: l, 0, x, _ => by simp; omega
  | y :: l, i + 1, x, h => by
    have := sum_set f l i x (by simpa using h)
    simp only [List.set_cons_succ, List.map_cons, List.sum_cons, List.getElem_cons_succ]
    omega

/-- The pool's account when a pixel slot is replaced (R45). -/
theorem poolUsed_setPixel (s : State) (k : PixelIdx) (p : PixelSlot) :
    (s.setPixel k p).poolUsed + (s.pixel k).cap.toNat = s.poolUsed + p.cap.toNat := by
  have h := sum_set (fun p : PixelSlot => p.cap.toNat) s.pb.toList k.val p (by simp)
  unfold State.poolUsed State.setPixel State.pixel
  simp only [Vector.toList_set]
  simp only [Vector.getElem_toList] at h
  simp only [Fin.getElem_fin]
  omega

/-- The pool's account when a stream slot is replaced. -/
theorem poolUsed_setStream (s : State) (k : StreamIdx) (t : StreamSlot) :
    (s.setStream k t).poolUsed + (s.stream k).capBytes = s.poolUsed + t.capBytes := by
  have h := sum_set (fun t : StreamSlot => t.capBytes) s.bs.toList k.val t (by simp)
  unfold State.poolUsed State.setStream State.stream
  simp only [Vector.toList_set]
  simp only [Vector.getElem_toList] at h
  simp only [Fin.getElem_fin]
  omega

/-! ## Slots -/

theorem empty_pixel_inv : PixelSlot.empty.inv = true := by decide

theorem empty_stream_inv : StreamSlot.empty.inv = true := by decide

theorem empty_wf : Memory.wf [] = true := rfl

theorem empty_within (n : Nat) : Memory.within [] n = true := rfl

/-- What the invariant says of a pixel slot. -/
theorem pixel_inv_iff (p : PixelSlot) : p.inv = true ↔ p = .empty ∨
    (p.valid = true ∧ formatWellformed p.format = true ∧ formatBpp p.format % 8 = 0 ∧
      p.cap.toNat = bufferBytes p.format p.width.toNat p.height.toNat ∧ p.data.wf = true ∧
      p.data.within p.cap.toNat = true) := by
  unfold PixelSlot.inv
  simp only [Bool.or_eq_true, decide_eq_true_eq, Bool.and_eq_true, beq_iff_eq, and_assoc]

/-- What the invariant says of a stream slot. -/
theorem stream_inv_iff (t : StreamSlot) : t.inv = true ↔
    t.rcur.toNat ≤ t.wcur.toNat ∧ t.wcur.toNat ≤ t.capbits.toNat ∧ t.capbits.toNat % 8 = 0 ∧
      t.data.wf = true ∧ t.data.within t.capBytes = true := by
  unfold StreamSlot.inv
  simp only [decide_eq_true_eq, Bool.and_eq_true, beq_iff_eq, and_assoc]

/-- Under the invariant an empty pixel slot is `PixelSlot.empty` (R31). -/
theorem pixel_eq_empty {p : PixelSlot} (h : p.inv = true) (he : p.isEmpty = true) : p = .empty := by
  rcases (pixel_inv_iff p).mp h with h | h
  · exact h
  · have hv := h.1
    unfold PixelSlot.isEmpty at he
    unfold PixelSlot.valid at hv
    simp only [Bool.and_eq_true, beq_iff_eq, bne_iff_ne] at he hv
    exact absurd he.1.1.1 hv.1.1.1

/-- Under the invariant an empty stream slot is `StreamSlot.empty` (R37). -/
theorem stream_eq_empty {t : StreamSlot} (h : t.inv = true) (he : t.isEmpty = true) : t = .empty := by
  obtain ⟨-, -, -, -, hw⟩ := (stream_inv_iff t).mp h
  unfold StreamSlot.isEmpty at he
  simp only [Bool.and_eq_true, beq_iff_eq] at he
  obtain ⟨⟨h1, h2⟩, h3⟩ := he
  have : t.data = [] := by
    apply within_zero
    have hc : t.capBytes = 0 := by rw [StreamSlot.capBytes, h1]; rfl
    rwa [hc] at hw
  cases t
  simp_all [StreamSlot.empty]

/-- Under the invariant a slot is valid exactly when it is not empty (R32). -/
theorem valid_iff_not_empty {p : PixelSlot} (h : p.inv = true) : p.valid = true ↔ p.isEmpty = false := by
  rcases (pixel_inv_iff p).mp h with h | h
  · subst h; decide
  · refine ⟨fun hv => ?_, fun _ => h.1⟩
    cases he : p.isEmpty with
    | false => rfl
    | true =>
      unfold PixelSlot.isEmpty at he
      unfold PixelSlot.valid at hv
      simp only [Bool.and_eq_true, beq_iff_eq, bne_iff_ne] at he hv
      exact absurd he.1.1.1 hv.1.1.1

theorem toNat_ofNat_of_le {n : Nat} (h : n ≤ bufMaxBytes) : (BitVec.ofNat 32 n).toNat = n := by
  rw [BitVec.toNat_ofNat]
  exact Nat.mod_eq_of_lt (by unfold bufMaxBytes at h; omega)

/-- A buffer that fits is a legal slot content (R31). -/
theorem buffer_inv {f : Word} {w h : Nat} {d : Memory} (hf : formatWellformed f = true) (hb : formatBpp f ≠ 0)
    (h8 : formatBpp f % 8 = 0) (hw0 : w ≠ 0) (hh0 : h ≠ 0) (hw : w ≤ bufMaxBytes) (hh : h ≤ bufMaxBytes)
    (hn : bufferBytes f w h ≤ bufMaxBytes) (hd : d.wf = true) (hin : d.within (bufferBytes f w h) = true) :
    (PixelSlot.buffer f w h d).inv = true := by
  rw [pixel_inv_iff]
  refine .inr ⟨?_, hf, h8, ?_, hd, ?_⟩
  · have hf0 : f ≠ 0 := by rintro rfl; exact hb rfl
    have hw' : BitVec.ofNat 32 w ≠ 0 := by
      intro e; apply hw0; rw [← toNat_ofNat_of_le hw, e]; rfl
    have hh' : BitVec.ofNat 32 h ≠ 0 := by
      intro e; apply hh0; rw [← toNat_ofNat_of_le hh, e]; rfl
    simp only [PixelSlot.valid, PixelSlot.buffer, Bool.and_eq_true, bne_iff_ne]
    exact ⟨⟨⟨hf0, hb⟩, hw'⟩, hh'⟩
  · simp only [PixelSlot.buffer]
    rw [toNat_ofNat_of_le hn, toNat_ofNat_of_le hw, toNat_ofNat_of_le hh]
  · simp only [PixelSlot.buffer]
    rw [toNat_ofNat_of_le hn]
    exact hin

/-- The store of a single-byte format holds one byte a pixel. -/
theorem bufferBytes_R8 (w h : Nat) : bufferBytes formatR8 w h = w * h := by
  have : formatBpp formatR8 = 8 := by decide
  rw [bufferBytes, this]; omega

theorem bufferBytes_R32S (w h : Nat) : bufferBytes formatR32S w h = 4 * w * h := by
  have : formatBpp formatR32S = 32 := by decide
  rw [bufferBytes, this, Nat.mul_assoc 4]; omega

/-- The stream `BS_RESIZE` and the comparators start from is a legal slot content. -/
theorem fresh_inv (n : Nat) : (StreamSlot.fresh n).inv = true := by
  rw [stream_inv_iff]
  refine ⟨Nat.le_refl _, Nat.zero_le _, ?_, rfl, rfl⟩
  simp only [StreamSlot.fresh, BitVec.toNat_ofNat]
  omega

theorem loaded_inv {x : Memory} {n : Nat} (hx : x.wf = true) (h : 8 * n < 2 ^ 32) :
    (StreamSlot.loaded x n).inv = true := by
  rw [stream_inv_iff]
  refine ⟨Nat.zero_le _, Nat.le_refl _, ?_, take_wf n hx, ?_⟩
  · simp only [StreamSlot.loaded, BitVec.toNat_ofNat]; omega
  · have : (StreamSlot.loaded x n).capBytes = n := by
      simp only [StreamSlot.capBytes, StreamSlot.loaded, BitVec.toNat_ofNat]; omega
    rw [this]
    exact take_within x n

/-! ## Appending and reading -/

/-- ALL THAT `StreamWrite` CAN DO (R145): nothing fits and nothing is answered, or the bits are at the write cursor, the
write cursor behind them, all else as it was. -/
theorem append_eq (t : StreamSlot) (src : Nat → Bool) (n : Nat) :
    (t.append src n = none ∧ t.capbits.toNat < t.wcur.toNat + n) ∨
    (t.wcur.toNat + n ≤ t.capbits.toNat ∧ t.append src n = some { t with
      data := t.data.putBits t.wcur.toNat src n, wcur := BitVec.ofNat 32 (t.wcur.toNat + n) }) := by
  unfold StreamSlot.append
  split
  · exact .inl ⟨rfl, by omega⟩
  · exact .inr ⟨by omega, rfl⟩

theorem append_some {t t' : StreamSlot} {src : Nat → Bool} {n : Nat} (h : t.append src n = some t') :
    t.wcur.toNat + n ≤ t.capbits.toNat ∧ t'.capbits = t.capbits ∧ t'.rcur = t.rcur ∧
      t'.wcur.toNat = t.wcur.toNat + n ∧ t'.data = t.data.putBits t.wcur.toNat src n := by
  rcases append_eq t src n with ⟨h1, -⟩ | ⟨h1, h2⟩
  · rw [h1] at h; cases h
  · rw [h2] at h
    cases h
    refine ⟨h1, rfl, rfl, ?_, rfl⟩
    rw [BitVec.toNat_ofNat]
    exact Nat.mod_eq_of_lt (by have := t.capbits.isLt; omega)

theorem append_inv {t t' : StreamSlot} {src : Nat → Bool} {n : Nat} (hi : t.inv = true)
    (h : t.append src n = some t') : t'.inv = true := by
  obtain ⟨h1, h2, h3, h4, h5⟩ := append_some h
  obtain ⟨i1, i2, i3, i4, i5⟩ := (stream_inv_iff t).mp hi
  rw [stream_inv_iff, h2, h3, h4, h5, StreamSlot.capBytes, h2]
  refine ⟨by omega, h1, i3, putBits_wf _ _ i4 _, putBits_within _ i5 _ ?_⟩
  unfold StreamSlot.capBytes
  omega

/-- The bits of a stream after an append. -/
theorem append_bits {t t' : StreamSlot} {src : Nat → Bool} {n : Nat} (hi : t.inv = true)
    (h : t.append src n = some t') : BitsCopied t.data t'.data t.wcur.toNat n src := by
  intro c
  rw [(append_some h).2.2.2.2, getBit_putBits ((stream_inv_iff t).mp hi).2.2.2.1]

/-- The read cursor moved within the written bits. -/
theorem seek_inv {t : StreamSlot} (hi : t.inv = true) {c : Nat} (hc : c ≤ t.wcur.toNat) :
    ({ t with rcur := BitVec.ofNat 32 c } : StreamSlot).inv = true := by
  obtain ⟨i1, i2, i3, i4, i5⟩ := (stream_inv_iff t).mp hi
  rw [stream_inv_iff]
  refine ⟨?_, i2, i3, i4, i5⟩
  simp only [BitVec.toNat_ofNat]
  have := t.wcur.isLt
  omega

theorem advance_inv {t : StreamSlot} (hi : t.inv = true) {n : Nat} (hn : n ≤ t.remaining) :
    (t.advance n).inv = true := by
  obtain ⟨i1, -⟩ := (stream_inv_iff t).mp hi
  exact seek_inv hi (by unfold StreamSlot.remaining at hn; omega)

/-! ## The ends of commands -/

@[simp] theorem stop_pb (s : State) (e : Stop) : (s.stop e).pb = s.pb := by cases e <;> rfl
@[simp] theorem stop_bs (s : State) (e : Stop) : (s.stop e).bs = s.bs := by cases e <;> rfl
@[simp] theorem stop_xbuf (s : State) (e : Stop) : (s.stop e).xbuf = s.xbuf := by cases e <;> rfl
@[simp] theorem stop_res (s : State) (e : Stop) : (s.stop e).res = results 0 0 := by cases e <;> rfl
@[simp] theorem stop_arg (s : State) (e : Stop) : (s.stop e).arg = s.arg := by cases e <;> rfl
@[simp] theorem stop_cmd (s : State) (e : Stop) : (s.stop e).cmd = s.cmd := by cases e <;> rfl
@[simp] theorem stop_winSlot (s : State) (e : Stop) : (s.stop e).winSlot = s.winSlot := by cases e <;> rfl
@[simp] theorem stop_winKind (s : State) (e : Stop) : (s.stop e).winKind = s.winKind := by cases e <;> rfl
@[simp] theorem stop_winOff (s : State) (e : Stop) : (s.stop e).winOff = s.winOff := by cases e <;> rfl
@[simp] theorem stop_cfg (s : State) (e : Stop) : (s.stop e).cfg = s.cfg := by cases e <;> rfl
@[simp] theorem stop_pending (s : State) (e : Stop) : (s.stop e).pending = s.pending := by cases e <;> rfl
@[simp] theorem stop_rdata (s : State) (e : Stop) : (s.stop e).rdata = s.rdata := by cases e <;> rfl

/-- A wrapped stop never carries `ExecutionFailure` as sub-code where the stop itself did not (R288). -/
def StopOk : Stop → Prop
  | .fail c sub => c ≠ .success ∧ sub ≠ .executionFailure ∧ (c = .executionFailure ∨ sub = .success)
  | .fault _ => True

theorem stopOk_wrap {e : Stop} (h : StopOk e) : StopOk e.wrap := by
  cases e with
  | fault f => trivial
  | fail c sub => cases c <;> simp_all [StopOk, Stop.wrap]

/-- A pixel slot replaced by a value it already has, and the like. -/
theorem setPixel_self (s : State) (k : PixelIdx) : s.setPixel k (s.pixel k) = s := by
  unfold State.setPixel State.pixel
  simp

theorem setStream_self (s : State) (k : StreamIdx) : s.setStream k (s.stream k) = s := by
  unfold State.setStream State.stream
  simp

/-! ## Procedures that answer a buffer -/

/-- What a procedure that answers a buffer promises: the slot is legal and the pool has its bytes beside the `held` ones. -/
def BufferOk (s : State) (held : Nat) (r : Except Stop PixelSlot) : Prop :=
  match r with
  | .ok p => p.inv = true ∧ p.valid = true ∧ s.poolHas (held + p.cap.toNat)
  | .error e => StopOk e

theorem valid_of_buffer_inv {p : PixelSlot} (h : p.inv = true) (hc : p.format ≠ 0) : p.valid = true := by
  rcases (pixel_inv_iff p).mp h with h | h
  · subst h; exact absurd rfl hc
  · exact h.1

theorem wellformed_channels {f : Word} (hc : formatChannels f ≠ 0) : formatBpp f ≠ 0 := by
  intro hb
  apply hc
  unfold formatBpp at hb
  have h0 : formatWidth f 0 = 0 := by omega
  have h1 : formatWidth f 1 = 0 := by omega
  have h2 : formatWidth f 2 = 0 := by omega
  have h3 : formatWidth f 3 = 0 := by omega
  simp [formatChannels, h0, h1, h2, h3]

theorem allocZeroed_ok (s : State) {f : Word} {w h : Nat} (hf : formatWellformed f = true) (hb : formatBpp f ≠ 0)
    (h8 : formatBpp f % 8 = 0) (hw0 : w ≠ 0) (hh0 : h ≠ 0) (hw : w ≤ bufMaxBytes) (hh : h ≤ bufMaxBytes) :
    BufferOk s 0 (s.allocZeroed f w h) := by
  unfold State.allocZeroed
  split
  · rename_i hc
    rw [canAlloc_iff] at hc
    have hi : (PixelSlot.buffer f w h []).inv = true :=
      buffer_inv hf hb h8 hw0 hh0 hw hh hc.1 rfl rfl
    refine ⟨hi, valid_of_buffer_inv hi ?_, ?_⟩
    · rintro rfl; exact hb rfl
    · simpa [PixelSlot.buffer, toNat_ofNat_of_le hc.1] using hc.2
  · simp [BufferOk, StopOk, Stop.plain]

theorem word_le (v : Word) : v.toNat ≤ bufMaxBytes := by
  have := v.isLt
  unfold bufMaxBytes
  omega

theorem argNat_le (s : State) (i : Fin 4) : s.argNat i ≤ bufMaxBytes := word_le _

theorem createBuffer_ok (s : State) (a : PixelIdx) (f : Word) (w h : Nat) (hw : w ≤ bufMaxBytes)
    (hh : h ≤ bufMaxBytes) : BufferOk s 0 (s.createBuffer a f w h) := by
  unfold State.createBuffer
  repeat' split
  all_goals first
    | (simp [BufferOk, StopOk, Stop.plain]; done)
    | skip
  rename_i h1 h2 h3 h4 h5
  exact allocZeroed_ok s (by simpa using h2) (wellformed_channels h3) (by simpa using h4) (by tauto) (by tauto) hw hh

theorem cloneBuffer_ok (s : State) (a b : PixelIdx) (hi : (s.pixel b).inv = true) :
    BufferOk s 0 (s.cloneBuffer a b) := by
  unfold State.cloneBuffer
  repeat' split
  all_goals first
    | (simp [BufferOk, StopOk, Stop.plain]; done)
    | skip
  rename_i h1 h2 h3
  exact ⟨hi, by simpa using h2, ((canAlloc_iff _ _ _).mp h3).2⟩

theorem redimBuffer_ok (s : State) (a : PixelIdx) (w h : Nat) (hi : (s.pixel a).inv = true) (hw : w ≤ bufMaxBytes)
    (hh : h ≤ bufMaxBytes) : BufferOk s 0 (s.redimBuffer a w h) := by
  unfold State.redimBuffer
  repeat' split
  all_goals first
    | (simp [BufferOk, StopOk, Stop.plain]; done)
    | skip
  rename_i h1 h2
  have hv : (s.pixel a).valid = true := by simpa using h1
  rcases (pixel_inv_iff _).mp hi with h0 | h0
  · rw [h0] at hv; exact absurd hv (by decide)
  · obtain ⟨-, hf, h8, -⟩ := h0
    have hb : formatBpp (s.pixel a).format ≠ 0 := by
      unfold PixelSlot.valid at hv
      simp only [Bool.and_eq_true, bne_iff_ne] at hv
      exact hv.1.1.2
    exact allocZeroed_ok s hf hb h8 (by tauto) (by tauto) hw hh

theorem validAs_valid {p : PixelSlot} {f : Word} (h : p.validAs f = true) : p.valid = true ∧ p.format = f := by
  unfold PixelSlot.validAs at h
  simpa using h

theorem valid_dims {p : PixelSlot} (h : p.valid = true) : p.width.toNat ≠ 0 ∧ p.height.toNat ≠ 0 := by
  unfold PixelSlot.valid at h
  simp only [Bool.and_eq_true, bne_iff_ne] at h
  refine ⟨fun e => h.1.2 ?_, fun e => h.2 ?_⟩
  · exact BitVec.eq_of_toNat_eq e
  · exact BitVec.eq_of_toNat_eq e

/-- `Desaturate` (R182). -/
theorem desaturate_ok (s : State) (held : Nat) (p : PixelSlot) : BufferOk s held (s.desaturate held p) := by
  unfold State.desaturate
  split
  · simp [BufferOk, StopOk, Stop.plain]
  · rename_i hv
    obtain ⟨hv, -⟩ := validAs_valid (by simpa using hv)
    obtain ⟨hw0, hh0⟩ := valid_dims hv
    dsimp only
    split
    · simp [BufferOk, StopOk, Stop.plain]
    · rename_i hc
      obtain ⟨hn, hp⟩ := (canAlloc_iff _ _ _).mp (by simpa using hc)
      have hbb := bufferBytes_R8 p.width.toNat p.height.toNat
      have hi : (PixelSlot.buffer formatR8 p.width.toNat p.height.toNat
          (.ofBytes ((List.range (p.width.toNat * p.height.toNat)).map (lumaAt p.data)))).inv = true :=
        buffer_inv (by decide) (by decide) (by decide) hw0 hh0 (word_le _) (word_le _) (by rw [hbb]; exact hn)
          (ofBytes_wf _) (ofBytes_within _ (by rw [hbb]; simp))
      refine ⟨hi, valid_of_buffer_inv hi (show formatR8 ≠ 0 by decide), ?_⟩
      simpa [PixelSlot.buffer, hbb, toNat_ofNat_of_le hn] using hp

theorem flatten_length_of {α : Type} (n : Nat) : ∀ (l : List (List α)), (∀ r ∈ l, r.length = n) →
    l.flatten.length = l.length * n
  | [], _ => by simp
  | r :: l, h => by
    rw [List.flatten_cons, List.length_append, flatten_length_of n l (fun r hr => h r (List.mem_cons_of_mem _ hr)),
      h r (List.mem_cons_self), List.length_cons]
    ring

theorem columnOf_length {α : Type} (d : α) (rows : List (List α)) (x : Nat) :
    (columnOf d rows x).length = rows.length := by simp [columnOf]

theorem resampleRows_length (m : Memory) (sw sh dw dh : Nat) :
    (resampleRows m sw sh dw dh).flatten.length = dh * dw := by
  unfold resampleRows
  rw [flatten_length_of dw]
  · simp
  · intro r hr
    simp only [List.mem_map] at hr
    obtain ⟨y, -, rfl⟩ := hr
    simp [columnOf_length]

/-- `Resize` (R192). -/
theorem resample_ok (s : State) (held : Nat) (p : PixelSlot) (dw dh : Nat) (hi : p.inv = true) (hw : dw ≤ bufMaxBytes)
    (hh : dh ≤ bufMaxBytes) : BufferOk s held (s.resample held p dw dh) := by
  unfold State.resample
  dsimp only
  repeat' split
  all_goals first
    | (simp [BufferOk, StopOk, Stop.plain]; done)
    | skip
  · rename_i h1 h2 h3 h4
    obtain ⟨hv, -⟩ := validAs_valid (by simpa using h1)
    exact ⟨hi, hv, ((canAlloc_iff _ _ _).mp (by simpa using h4)).2⟩
  · rename_i h1 h2 h3 h4 h5 h6 h7
    obtain ⟨-, hp1⟩ := (canAlloc_iff _ _ _).mp (by simpa using h5)
    obtain ⟨hn, hp⟩ := (canAlloc_iff _ _ _).mp (by simpa using h6)
    have hbb := bufferBytes_R8 dw dh
    have hi' : (PixelSlot.buffer formatR8 dw dh (.ofBytes ((resampleRows p.data p.width.toNat p.height.toNat dw dh).flatten.map
        (BitVec.ofNat 8)))).inv = true :=
      buffer_inv (by decide) (by decide) (by decide) (by tauto) (by tauto) hw hh (by rw [hbb]; exact hn)
        (ofBytes_wf _) (ofBytes_within _ (by rw [hbb, List.length_map, resampleRows_length, Nat.mul_comm]))
    refine ⟨hi', valid_of_buffer_inv hi' (show formatR8 ≠ 0 by decide), poolHas_mono ?_ hp⟩
    simp only [PixelSlot.buffer, hbb, toNat_ofNat_of_le hn]
    omega

theorem transformRows_length (m : Memory) (w h : Nat) : (transformRows m w h).flatten.length = h * w := by
  unfold transformRows
  rw [flatten_length_of w]
  · simp
  · intro r hr
    simp only [List.mem_map] at hr
    obtain ⟨y, -, rfl⟩ := hr
    simp [columnOf_length]

theorem flatMap_sampleBytes_length (l : List Int) : (l.flatMap sampleBytes).length = 4 * l.length := by
  induction l with
  | nil => rfl
  | cons v l ih => rw [List.flatMap_cons, List.length_append, ih, sampleBytes_length, List.length_cons]; ring

/-- `Transform` (R212). -/
theorem transform_ok (s : State) (held : Nat) (p : PixelSlot) : BufferOk s held (s.transform held p) := by
  unfold State.transform
  dsimp only
  repeat' split
  all_goals first
    | (simp [BufferOk, StopOk, Stop.plain, Stop.inner]; done)
    | skip
  rename_i h1 h2 h3
  obtain ⟨hv, -⟩ := validAs_valid (by simpa using h1)
  obtain ⟨hw0, hh0⟩ := valid_dims hv
  obtain ⟨hn, hp⟩ := (canAlloc_iff _ _ _).mp (by simpa using h3)
  have hbb := bufferBytes_R32S p.width.toNat p.height.toNat
  have hi' : (PixelSlot.buffer formatR32S p.width.toNat p.height.toNat
      (.ofBytes ((transformRows p.data p.width.toNat p.height.toNat).flatten.flatMap sampleBytes))).inv = true :=
    buffer_inv (by decide) (by decide) (by decide) hw0 hh0 (word_le _) (word_le _) (by rw [hbb]; exact hn)
      (ofBytes_wf _) (ofBytes_within _ (by
        rw [hbb, flatMap_sampleBytes_length, transformRows_length, Nat.mul_assoc, Nat.mul_comm p.height.toNat]))
  refine ⟨hi', valid_of_buffer_inv hi' (show formatR32S ≠ 0 by decide), poolHas_mono ?_ hp⟩
  simp only [PixelSlot.buffer, hbb, toNat_ofNat_of_le hn]
  omega

/-! ## Packing -/

/-- What `packFields` does to a stream, however it ends: it appends some number of bits. -/
theorem packFields_spec (bpp : Nat) : ∀ (es : List Nat) (t : StreamSlot), t.inv = true →
    (packFields bpp es t).1.inv = true ∧ (packFields bpp es t).1.capbits = t.capbits ∧
      (packFields bpp es t).1.rcur = t.rcur ∧ t.wcur.toNat ≤ (packFields bpp es t).1.wcur.toNat ∧
      ∀ c, c < t.wcur.toNat ∨ (packFields bpp es t).1.wcur.toNat ≤ c →
        (packFields bpp es t).1.data.getBit c = t.data.getBit c
  | [], t, hi => ⟨hi, rfl, rfl, Nat.le_refl _, fun _ _ => rfl⟩
  | e :: es, t, hi => by
    unfold packFields
    cases h : t.append e.testBit bpp with
    | none => exact ⟨hi, rfl, rfl, Nat.le_refl _, fun _ _ => rfl⟩
    | some t' =>
      obtain ⟨h1, h2, h3, h4, h5⟩ := append_some h
      obtain ⟨i1, i2, i3, i4, i5⟩ := packFields_spec bpp es t' (append_inv hi h)
      dsimp only
      refine ⟨i1, i2.trans h2, i3.trans h3, by omega, fun c hc => ?_⟩
      rw [i5 c (by omega), append_bits hi h c, if_neg (by omega)]

/-- What `QuantPack` does to a stream, however it ends: only `ExecutionFailure(CapacityLimit)` leaves bits behind without
success (R289). -/
theorem quantPack_spec (p : PixelSlot) (hs : Nat) (t : StreamSlot) (hi : t.inv = true) :
    (quantPack p hs t).1.inv = true ∧ (quantPack p hs t).1.capbits = t.capbits ∧
      (quantPack p hs t).1.rcur = t.rcur ∧ t.wcur.toNat ≤ (quantPack p hs t).1.wcur.toNat ∧
      (∀ c, c < t.wcur.toNat ∨ (quantPack p hs t).1.wcur.toNat ≤ c →
        (quantPack p hs t).1.data.getBit c = t.data.getBit c) ∧
      (∀ e, (quantPack p hs t).2 = some e → StopOk e ∧
        ((quantPack p hs t).1 = t ∨ e = .inner .capacityLimit)) := by
  unfold quantPack
  split
  · exact ⟨hi, rfl, rfl, Nat.le_refl _, fun _ _ => rfl, by rintro e ⟨⟩; exact ⟨trivial, .inl rfl⟩⟩
  · split
    · exact ⟨hi, rfl, rfl, Nat.le_refl _, fun _ _ => rfl, by
        rintro e ⟨⟩; exact ⟨by simp [StopOk, Stop.plain], .inl rfl⟩⟩
    · dsimp only
      have h := packFields_spec (min bppMax (bitsPerCoeff p hs)) (blockFields p (min bppMax (bitsPerCoeff p hs))) t hi
      generalize packFields (min bppMax (bitsPerCoeff p hs)) (blockFields p (min bppMax (bitsPerCoeff p hs))) t = r at h
      obtain ⟨t', b⟩ := r
      obtain ⟨h1, h2, h3, h4, h5⟩ := h
      cases b
      · exact ⟨h1, h2, h3, h4, h5, by rintro e ⟨⟩; exact ⟨by simp [StopOk, Stop.inner], .inr rfl⟩⟩
      · exact ⟨h1, h2, h3, h4, h5, by rintro e ⟨⟩⟩

theorem hashStages_stop (s : State) (held : Nat) (p : PixelSlot) (thumb : Nat) (h : thumbScale * thumb ≤ bufMaxBytes)
    {e : Stop} (he : s.hashStages held p thumb = .error e) : StopOk e := by
  unfold State.hashStages at he
  have hd := desaturate_ok s held p
  cases hg : s.desaturate held p with
  | error e' =>
    rw [hg] at he hd
    cases he
    exact stopOk_wrap hd
  | ok gray =>
    rw [hg] at he hd
    dsimp only at he
    have hr := resample_ok s (held + gray.cap.toNat) gray (thumbScale * thumb) (thumbScale * thumb) hd.1 h h
    cases hs : s.resample (held + gray.cap.toNat) gray (thumbScale * thumb) (thumbScale * thumb) with
    | error e' =>
      rw [hs] at he hr
      cases he
      exact stopOk_wrap hr
    | ok small =>
      rw [hs] at he hr
      dsimp only at he
      have ht := transform_ok s (held + gray.cap.toNat + small.cap.toNat) small
      cases htr : s.transform (held + gray.cap.toNat + small.cap.toNat) small with
      | error e' =>
        rw [htr] at he ht
        cases he
        exact stopOk_wrap ht
      | ok coeffs => rw [htr] at he; cases he

/-- What `Hash` does to a stream, however it ends. -/
theorem hashImage_spec (s : State) (held : Nat) (p : PixelSlot) (ts hs : Nat) (t : StreamSlot) (hi : t.inv = true) :
    (s.hashImage held p ts hs t).1.inv = true ∧ (s.hashImage held p ts hs t).1.capbits = t.capbits ∧
      (s.hashImage held p ts hs t).1.rcur = t.rcur ∧ t.wcur.toNat ≤ (s.hashImage held p ts hs t).1.wcur.toNat ∧
      (∀ c, c < t.wcur.toNat ∨ (s.hashImage held p ts hs t).1.wcur.toNat ≤ c →
        (s.hashImage held p ts hs t).1.data.getBit c = t.data.getBit c) ∧
      (∀ e, (s.hashImage held p ts hs t).2 = some e → StopOk e ∧
        ((s.hashImage held p ts hs t).1 = t ∨ e = .inner .capacityLimit)) := by
  have hbad : ∀ e, StopOk e → ((t, some e) : StreamSlot × Option Stop).1.inv = true ∧ t.capbits = t.capbits ∧
      t.rcur = t.rcur ∧ t.wcur.toNat ≤ t.wcur.toNat ∧
      (∀ c, c < t.wcur.toNat ∨ t.wcur.toNat ≤ c → t.data.getBit c = t.data.getBit c) ∧
      (∀ e', (some e : Option Stop) = some e' → StopOk e' ∧ (t = t ∨ e' = .inner .capacityLimit)) := by
    intro e he
    exact ⟨hi, rfl, rfl, Nat.le_refl _, fun _ _ => rfl, by rintro e' ⟨⟩; exact ⟨he, .inl rfl⟩⟩
  have hp : StopOk (.plain .invalidArgument) := by simp [StopOk, Stop.plain]
  unfold State.hashImage
  split
  · exact hbad _ hp
  split
  · exact hbad _ hp
  split
  · exact hbad _ hp
  rename_i hts
  split
  · exact hbad _ hp
  have hth : thumbScale * orDefault ts thumbDefault ≤ bufMaxBytes := by
    unfold orDefault thumbScale thumbDefault bufMaxBytes
    unfold thumbMax at hts
    split <;> omega
  cases h : s.hashStages held p (orDefault ts thumbDefault) with
  | error e => exact hbad e (hashStages_stop s held p _ hth h)
  | ok coeffs => exact quantPack_spec coeffs _ t hi

end Sys2Proof.Laws
end

