-- ==== Sys2Proof/Laws/PerInstr.lean ====
section
/-! SUPPORT. The family `EncodedWordMatches`: each command's encoded word lies in its row of spec/opcode_table.json, the
table's `mask` selecting the bits its `match` fixes. The rows are written here from that table, apart from the encoder. -/

namespace Sys2Proof.Laws.EncodedWordMatches

/-- The `mask` and the `match` of each command's row of spec/opcode_table.json. -/
def row : Instr → Word × Word
  | .nop => (0xFFFFFFFF, 0x00000000)
  | .pbCreate _ => (0xFFFFF8FF, 0x00000001)
  | .pbDestroy _ => (0xFFFFF8FF, 0x00000002)
  | .pbClone _ _ => (0xFFFF88FF, 0x00000003)
  | .pbRedim _ => (0xFFFFF8FF, 0x00000004)
  | .pbPitch _ => (0xFFFFF8FF, 0x00000005)
  | .pbBlkoff _ => (0xFFFFF8FF, 0x00000006)
  | .bsResize _ => (0xFFFFFCFF, 0x00000010)
  | .bsDestroy _ => (0xFFFFFCFF, 0x00000011)
  | .bsLoad _ => (0xFFFFFCFF, 0x00000012)
  | .bsCopy _ _ => (0xFFFFCCFF, 0x00000013)
  | .bsWbit _ => (0xFFFFFCFF, 0x00000014)
  | .bsWbyte _ => (0xFFFFFCFF, 0x00000015)
  | .bsWbits _ => (0xFFFFFCFF, 0x00000016)
  | .bsWbytes _ => (0xFFFFFCFF, 0x00000017)
  | .bsRbit _ => (0xFFFFFCFF, 0x00000018)
  | .bsRbyte _ => (0xFFFFFCFF, 0x00000019)
  | .bsRbits _ => (0xFFFFFCFF, 0x0000001A)
  | .bsRbytes _ => (0xFFFFFCFF, 0x0000001B)
  | .bsSeek _ => (0xFFFFFCFF, 0x0000001C)
  | .bsEq _ _ => (0xFFFFCCFF, 0x0000001D)
  | .desat _ _ => (0xFFFF88FF, 0x00000020)
  | .resize _ _ => (0xFFFF88FF, 0x00000021)
  | .dct2d _ _ => (0xFFFF88FF, 0x00000022)
  | .qpack _ _ => (0xFFFF8CFF, 0x00000023)
  | .hash _ _ => (0xFFFF8CFF, 0x00000024)
  | .hash64 _ => (0xFFFF8FFF, 0x00000025)
  | .cmp _ _ => (0xFFF88FFF, 0x00000026)
  | .cmp64 _ _ => (0xFFF88FFF, 0x00000027)

/-- The word of the command has the bits its row fixes, and is a legal command word. -/
def Statement (i : Instr) : Prop := encode i &&& (row i).1 = (row i).2 ∧ i.wellFormed = true

theorem nop : Statement .nop := by unfold Statement; decide
theorem pbCreate (a : PixelIdx) : Statement (.pbCreate a) := by
  unfold Statement; revert a; decide
theorem pbDestroy (a : PixelIdx) : Statement (.pbDestroy a) := by
  unfold Statement; revert a; decide
theorem pbClone (a : PixelIdx) (b : PixelIdx) : Statement (.pbClone a b) := by
  unfold Statement; revert a b; decide
theorem pbRedim (a : PixelIdx) : Statement (.pbRedim a) := by
  unfold Statement; revert a; decide
theorem pbPitch (a : PixelIdx) : Statement (.pbPitch a) := by
  unfold Statement; revert a; decide
theorem pbBlkoff (a : PixelIdx) : Statement (.pbBlkoff a) := by
  unfold Statement; revert a; decide
theorem bsResize (a : StreamIdx) : Statement (.bsResize a) := by
  unfold Statement; revert a; decide
theorem bsDestroy (a : StreamIdx) : Statement (.bsDestroy a) := by
  unfold Statement; revert a; decide
theorem bsLoad (a : StreamIdx) : Statement (.bsLoad a) := by
  unfold Statement; revert a; decide
theorem bsCopy (a : StreamIdx) (b : StreamIdx) : Statement (.bsCopy a b) := by
  unfold Statement; revert a b; decide
theorem bsWbit (a : StreamIdx) : Statement (.bsWbit a) := by
  unfold Statement; revert a; decide
theorem bsWbyte (a : StreamIdx) : Statement (.bsWbyte a) := by
  unfold Statement; revert a; decide
theorem bsWbits (a : StreamIdx) : Statement (.bsWbits a) := by
  unfold Statement; revert a; decide
theorem bsWbytes (a : StreamIdx) : Statement (.bsWbytes a) := by
  unfold Statement; revert a; decide
theorem bsRbit (a : StreamIdx) : Statement (.bsRbit a) := by
  unfold Statement; revert a; decide
theorem bsRbyte (a : StreamIdx) : Statement (.bsRbyte a) := by
  unfold Statement; revert a; decide
theorem bsRbits (a : StreamIdx) : Statement (.bsRbits a) := by
  unfold Statement; revert a; decide
theorem bsRbytes (a : StreamIdx) : Statement (.bsRbytes a) := by
  unfold Statement; revert a; decide
theorem bsSeek (a : StreamIdx) : Statement (.bsSeek a) := by
  unfold Statement; revert a; decide
theorem bsEq (a : StreamIdx) (b : StreamIdx) : Statement (.bsEq a b) := by
  unfold Statement; revert a b; decide
theorem desat (a : PixelIdx) (b : PixelIdx) : Statement (.desat a b) := by
  unfold Statement; revert a b; decide
theorem resize (a : PixelIdx) (b : PixelIdx) : Statement (.resize a b) := by
  unfold Statement; revert a b; decide
theorem dct2d (a : PixelIdx) (b : PixelIdx) : Statement (.dct2d a b) := by
  unfold Statement; revert a b; decide
theorem qpack (a : StreamIdx) (b : PixelIdx) : Statement (.qpack a b) := by
  unfold Statement; revert a b; decide
theorem hash (a : StreamIdx) (b : PixelIdx) : Statement (.hash a b) := by
  unfold Statement; revert a b; decide
theorem hash64 (b : PixelIdx) : Statement (.hash64 b) := by
  unfold Statement; revert b; decide
theorem cmp (b : PixelIdx) (c : PixelIdx) : Statement (.cmp b c) := by
  unfold Statement; revert b c; decide
theorem cmp64 (b : PixelIdx) (c : PixelIdx) : Statement (.cmp64 b c) := by
  unfold Statement; revert b c; decide

end Sys2Proof.Laws.EncodedWordMatches
end

