-- ==== Sys2Proof/Tests/Slice0.lean ====
section
/-! SUPPORT. The model's own tests: the checks of WellFormed, the decoding of a hand-written word for every command, one
step of every command with the values of spec/95_test_vectors.md and the rules' examples, and for every statement with
hypotheses a state and operands that meet them. -/

namespace Sys2Proof.Tests

open Sys2Proof.Machine

-- One theorem after another: concurrent kernel evaluations would each hold a thread and its stack.
set_option Elab.async false

/-! ## WellFormed: an ill-formed word for each check (spec/95_test_vectors.md 2.8) -/

theorem test_wellFormed_reserved : (CommandWord.ofWord 0x00100000).wellFormed = false := by decide
theorem test_wellFormed_opcode : (CommandWord.ofWord 0x00000007).wellFormed = false := by decide
theorem test_wellFormed_pixel : (CommandWord.ofWord 0x00000801).wellFormed = false := by decide
theorem test_wellFormed_stream : (CommandWord.ofWord 0x00000410).wellFormed = false := by decide
theorem test_wellFormed_unused_a : (CommandWord.ofWord 0x00000100).wellFormed = false := by decide
theorem test_wellFormed_unused_b : (CommandWord.ofWord 0x00001001).wellFormed = false := by decide
theorem test_wellFormed_unused_c : (CommandWord.ofWord 0x00010025).wellFormed = false := by decide
theorem test_wellFormed_pixel_c : (CommandWord.ofWord 0x00080026).wellFormed = false := by decide
theorem test_wellFormed_legal : (CommandWord.ofWord 0x00077026).wellFormed = true := by decide

theorem test_decode_names_reserved : decode 0x80000000 = .error .reservedBits := by decide
theorem test_decode_names_opcode : decode 0x0000001E = .error .unknownOpcode := by decide
theorem test_decode_names_fieldA : decode 0x00000125 = .error .fieldA := by decide
theorem test_decode_names_fieldB : decode 0x00001001 = .error .fieldB := by decide
theorem test_decode_names_fieldC : decode 0x00080026 = .error .fieldC := by decide

/-! ## Decoding: `OPC + A << 8 + B << 12 + C << 16`, written out from spec/30_encoding.md R91, R92, R96 -/

theorem test_decode_nop : decode 0x00000000 = .ok .nop := by decide
theorem test_decode_pbCreate : decode 0x00000701 = .ok (.pbCreate 7) := by decide
theorem test_decode_pbDestroy : decode 0x00000202 = .ok (.pbDestroy 2) := by decide
theorem test_decode_pbClone : decode 0x00001203 = .ok (.pbClone 2 1) := by decide
theorem test_decode_pbRedim : decode 0x00000004 = .ok (.pbRedim 0) := by decide
theorem test_decode_pbPitch : decode 0x00000505 = .ok (.pbPitch 5) := by decide
theorem test_decode_pbBlkoff : decode 0x00000306 = .ok (.pbBlkoff 3) := by decide
theorem test_decode_bsResize : decode 0x00000110 = .ok (.bsResize 1) := by decide
theorem test_decode_bsDestroy : decode 0x00000311 = .ok (.bsDestroy 3) := by decide
theorem test_decode_bsLoad : decode 0x00000112 = .ok (.bsLoad 1) := by decide
theorem test_decode_bsCopy : decode 0x00001213 = .ok (.bsCopy 2 1) := by decide
theorem test_decode_bsWbit : decode 0x00000114 = .ok (.bsWbit 1) := by decide
theorem test_decode_bsWbyte : decode 0x00000215 = .ok (.bsWbyte 2) := by decide
theorem test_decode_bsWbits : decode 0x00000316 = .ok (.bsWbits 3) := by decide
theorem test_decode_bsWbytes : decode 0x00000117 = .ok (.bsWbytes 1) := by decide
theorem test_decode_bsRbit : decode 0x00000118 = .ok (.bsRbit 1) := by decide
theorem test_decode_bsRbyte : decode 0x00000219 = .ok (.bsRbyte 2) := by decide
theorem test_decode_bsRbits : decode 0x0000031A = .ok (.bsRbits 3) := by decide
theorem test_decode_bsRbytes : decode 0x0000011B = .ok (.bsRbytes 1) := by decide
theorem test_decode_bsSeek : decode 0x0000011C = .ok (.bsSeek 1) := by decide
theorem test_decode_bsEq : decode 0x0000101D = .ok (.bsEq 0 1) := by decide
theorem test_decode_desat : decode 0x00000120 = .ok (.desat 1 0) := by decide
theorem test_decode_resize : decode 0x00001221 = .ok (.resize 2 1) := by decide
theorem test_decode_dct2d : decode 0x00002322 = .ok (.dct2d 3 2) := by decide
theorem test_decode_qpack : decode 0x00003123 = .ok (.qpack 1 3) := by decide
theorem test_decode_hash : decode 0x00004024 = .ok (.hash 0 4) := by decide
theorem test_decode_hash64 : decode 0x00007025 = .ok (.hash64 7) := by decide
theorem test_decode_cmp : decode 0x00010026 = .ok (.cmp 0 1) := by decide
theorem test_decode_cmp64 : decode 0x00021027 = .ok (.cmp64 1 2) := by decide
theorem test_encode_hash : encode (.hash 3 4) = 0x00004324 := by decide
theorem test_decodeTableWord : decodeTableWord 32 0x00077026 = some (.cmp 7 7) := by decide

/-! ## One step of each command -/

/-- The reset state with the given arguments, pixel slots 0 and 1, stream slots 0 and 1 and `XBUF`. -/
def boot (a : Vector Word 4 := #v[0, 0, 0, 0]) (p : PixelSlot := .empty) (q : PixelSlot := .empty)
    (t : StreamSlot := .empty) (u : StreamSlot := .empty) (x : List Byte := []) : State :=
  { State.reset with
    arg := a, pb := (State.reset.pb.set 0 p).set 1 q, bs := (State.reset.bs.set 0 t).set 1 u, xbuf := .ofBytes x }

/-- The state after a command; `s` with a mark where the command has none. -/
def out (i : Instr) (s : State) : State :=
  match exec i s with
  | .next t => t
  | _ => { s with rdata := 0xFFFFFFFF }

/-- An `R8` buffer of given bytes. -/
def gray (w h : Nat) (vs : List Byte) : PixelSlot := .buffer formatR8 w h (.ofBytes vs)

/-- A stream of given bytes and cursors. -/
def stream (vs : List Byte) (wcur rcur : Word) : StreamSlot :=
  ⟨BitVec.ofNat 32 (8 * vs.length), wcur, rcur, .ofBytes vs⟩

/-- `NOP` clears a stale status (R275). -/
theorem test_nop : (out .nop { boot with code := .invalidArgument }).statusWord = 0 := by decide

/-- The example of R122. -/
theorem test_pbCreate : (out (.pbCreate 0) (boot #v[0x00008208, 64, 64, 0])).pixel 0 =
    ⟨0x00008208, 64, 64, 12288, []⟩ := by decide

/-- A width field of 0 below one that is not (2.1). -/
theorem test_pbCreate_gap : (out (.pbCreate 0) (boot #v[0x00008008, 1, 1, 0])).statusWord = 1 := by decide

theorem test_pbDestroy : (out (.pbDestroy 0) (boot (p := gray 2 2 [1, 2, 3, 4]))).pixel 0 = .empty := by decide

/-- The example of R124. -/
theorem test_pbClone : (out (.pbClone 1 0) (boot (p := gray 2 2 [1, 2, 3, 4]))).pixel 1 =
    ⟨8, 2, 2, 4, [(0, 1), (1, 2), (2, 3), (3, 4)]⟩ := by decide

/-- The example of R125. -/
theorem test_pbRedim : (out (.pbRedim 0) (boot #v[0, 3, 1, 0] (p := gray 2 2 [1, 2, 3, 4]))).pixel 0 =
    ⟨8, 3, 1, 3, []⟩ := by decide

/-- The example of R126. -/
theorem test_pbPitch : (out (.pbPitch 0) (boot (p := .buffer formatR8G8B8 64 64 []))).res = #v[192, 12288, 0, 0] := by
  decide

/-- The example of R127. -/
theorem test_pbBlkoff : (out (.pbBlkoff 0) (boot #v[3, 2, 0, 0] (p := .buffer formatR8G8B8 64 64 []))).res =
    #v[393, 0, 0, 0] := by decide

/-- A column outside the image (2.1). -/
theorem test_pbBlkoff_outside : (out (.pbBlkoff 0) (boot #v[2, 0, 0, 0] (p := .buffer formatR8G8B8 2 2 []))).statusWord =
    1 := by decide

/-- The example of R141: the requested count is granted, the capacity is rounded up. -/
theorem test_bsResize : ((out (.bsResize 0) (boot #v[13, 0, 0, 0])).res[0],
    (out (.bsResize 0) (boot #v[13, 0, 0, 0])).register 0x200,
    (out (.bsResize 0) (boot #v[13, 0, 0, 0])).register 0x20C) = (13, 16, 5) := by decide

/-- 0xFFFFFFF9 bits are too many, and the slot is empty after it (2.2, R289). -/
theorem test_bsResize_tooMany : ((out (.bsResize 0) (boot #v[0xFFFFFFF9, 0, 0, 0] (t := stream [1] 8 0))).statusWord,
    (out (.bsResize 0) (boot #v[0xFFFFFFF9, 0, 0, 0] (t := stream [1] 8 0))).register 0x20C) = (1, 3) := by decide

theorem test_bsDestroy : (out (.bsDestroy 0) (boot (t := stream [1] 8 3))).register 0x20C = 3 := by decide

/-- The example of R143. -/
theorem test_bsLoad : (out (.bsLoad 1) (boot #v[2, 0, 0, 0] (x := [0xA5, 0x01, 0x77]))).stream 1 =
    ⟨16, 16, 0, [(0, 0xA5), (1, 0x01)]⟩ := by decide

/-- The example of R144. -/
theorem test_bsCopy : (out (.bsCopy 2 1) (boot (u := stream [0xA5, 0x01] 16 1))).stream 2 =
    ⟨16, 16, 1, [(0, 0xA5), (1, 0x01)]⟩ := by decide

/-- The example of R150. -/
theorem test_bsWbit : (out (.bsWbit 0) (boot #v[1, 0, 0, 0] (t := stream [0, 0] 0 0))).stream 0 =
    ⟨16, 1, 0, [(0, 1)]⟩ := by decide

/-- Writing 0 clears the bit (R150). -/
theorem test_bsWbit_clears : (out (.bsWbit 0) (boot #v[2, 0, 0, 0] (t := stream [0xFF] 3 0))).stream 0 =
    ⟨8, 4, 0, [(0, 0xF7)]⟩ := by decide

/-- The example of R151. -/
theorem test_bsWbyte : (out (.bsWbyte 0) (boot #v[0xFF, 0, 0, 0] (t := stream [1, 0] 1 0))).stream 0 =
    ⟨16, 9, 0, [(0, 0xFF), (1, 0x01)]⟩ := by decide

/-- Program P2: 4 bits of capacity left. -/
theorem test_bsWbyte_full : (out (.bsWbyte 0) (boot #v[0xAA, 0, 0, 0] (t := stream [0x2D, 0xFE, 0x0F] 20 0))).statusWord =
    4 := by decide

/-- The example of R152. -/
theorem test_bsWbits : (out (.bsWbits 0) (boot #v[10, 0, 0, 0] (t := stream [1, 0] 1 0) (x := [0xB6, 0x02]))).stream 0 =
    ⟨16, 11, 0, [(0, 0x6D), (1, 0x05)]⟩ := by decide

/-- The example of R153. -/
theorem test_bsWbytes : (out (.bsWbytes 0) (boot #v[2, 0, 0, 0] (t := stream [0, 0] 0 0) (x := [0x12, 0x34]))).stream 0 =
    ⟨16, 16, 0, [(0, 0x12), (1, 0x34)]⟩ := by decide

/-- The example of R154. -/
theorem test_bsRbit : ((out (.bsRbit 1) (boot (u := stream [0xA5, 0x01] 16 0))).res[0],
    (out (.bsRbit 1) (boot (u := stream [0xA5, 0x01] 16 0))).register 0x218) = (1, 1) := by decide

/-- The example of R155. -/
theorem test_bsRbyte : ((out (.bsRbyte 1) (boot (u := stream [0xA5, 0x01] 16 1))).res[0],
    (out (.bsRbyte 1) (boot (u := stream [0xA5, 0x01] 16 1))).register 0x218) = (0xD2, 9) := by decide

/-- An exhausted stream (2.2). -/
theorem test_bsRbyte_short : (out (.bsRbyte 1) (boot (u := stream [0xA5, 0x01] 16 9))).statusWord = 3 := by decide

/-- The example of R156: clamped, and the upper bit of the last touched byte of `XBUF` kept. -/
theorem test_bsRbits : ((out (.bsRbits 1) (boot #v[100, 0, 0, 0] (u := stream [0xA5, 0x01] 16 9) (x := [0xFF]))).res[0],
    (out (.bsRbits 1) (boot #v[100, 0, 0, 0] (u := stream [0xA5, 0x01] 16 9) (x := [0xFF]))).xbuf) =
    (7, [(0, 0x80)]) := by decide

/-- The example of R157. -/
theorem test_bsRbytes : ((out (.bsRbytes 1) (boot #v[5, 0, 0, 0] (u := stream [0xA5, 0x01] 16 0))).res[0],
    (out (.bsRbytes 1) (boot #v[5, 0, 0, 0] (u := stream [0xA5, 0x01] 16 0))).xbuf) =
    (2, [(0, 0xA5), (1, 0x01)]) := by decide

/-- Clamped to nothing (R157). -/
theorem test_bsRbytes_none : (out (.bsRbytes 1) (boot #v[1, 0, 0, 0] (u := stream [0xA5, 0x01] 16 16))).statusWord = 4 := by
  decide

/-- The examples of R158. -/
theorem test_bsSeek : ((out (.bsSeek 1) (boot #v[40, 0, 0, 0] (u := stream [0xA5, 0x01] 16 0))).register 0x218,
    (out (.bsSeek 1) (boot #v[3, 0, 0, 0] (u := stream [0xA5, 0x01] 16 0))).register 0x218) = (16, 3) := by decide

/-- The example of R160. -/
theorem test_bsEq : ((out (.bsEq 0 1) (boot (t := stream [0xA5, 1] 16 1) (u := stream [0xA5, 1] 16 1))).res[0],
    (out (.bsEq 0 1) (boot (t := stream [0xA5, 1] 16 1) (u := stream [0xA5, 1] 16 0))).res[0]) = (1, 0) := by decide

/-- Program P1: red, green, blue and (10, 20, 30). -/
theorem test_desat : (out (.desat 1 0) (boot (p := .buffer formatR8G8B8 2 2
    (.ofBytes [0xFF, 0, 0, 0, 0xFF, 0, 0, 0, 0xFF, 0x0A, 0x14, 0x1E])))).pixel 1 =
    gray 2 2 [0x4C, 0x96, 0x1C, 0x12] := by decide +kernel

/-- 4×4 to 2×2 (2.4), both passes. -/
theorem test_resize : (out (.resize 1 0) (boot #v[0, 2, 2, 0]
    (p := gray 4 4 [10, 20, 30, 40, 50, 60, 70, 80, 90, 100, 110, 120, 130, 140, 150, 160]))).pixel 1 =
    gray 2 2 [42, 59, 109, 126] := by decide +kernel

/-- Program P4: 2 samples to 3. -/
theorem test_resize_fault : (out (.resize 1 0) (boot #v[0, 3, 1, 0] (p := gray 2 1 [10, 20]))).statusWord = 0x00001105 := by
  decide +kernel

/-- The example of R211. -/
theorem test_dct2d : (out (.dct2d 1 0) (boot (p := gray 2 2 [1, 2, 3, 4]))).pixel 1 =
    .buffer formatR32S 2 2 (.ofBytes [4, 0, 0, 0, 0, 0, 0, 0, 0xFF, 0xFF, 0xFF, 0xFF, 0, 0, 0, 0]) := by decide +kernel

/-- Lines of 2.5, among them an exact integer (`[255, 255, 255, 255]`) and negative values. -/
theorem test_dctLine : (dctLine [255, 255, 255, 255], dctLine [255, 0, 0, 0], dctLine [5, 3, 1, 5],
    dctLine [8, 16, 24, 32, 40, 48, 56, 64]) =
    ([510, 0, 0, 0], [127, 166, 127, 69], [7, 0, 3, -1], [101, -51, 0, -5, 0, -1, 0, 0]) := by decide +kernel

/-- An 8×8 coefficient buffer whose block is the four given samples. -/
def coeffs (c00 c10 c01 c11 : Int) : PixelSlot :=
  .buffer formatR32S 8 8 (.ofBytes (sampleBytes c00 ++ sampleBytes c10 ++ List.replicate 24 0 ++ sampleBytes c01 ++
    sampleBytes c11))

/-- The example of R241 (case A of 2.6). -/
theorem test_qpack : (out (.qpack 0 0) (boot #v[0, 2, 0, 0] (p := coeffs 1000 (-5000) 9000 (-100)) (t := .fresh 16))).stream 0 =
    ⟨128, 16, 0, [(0, 0x33), (1, 0x34)]⟩ := by decide +kernel

/-- Case E of 2.6: a negative quotient, its low bits taken. -/
theorem test_qpack_negative : (out (.qpack 0 0) (boot #v[0, 4, 0, 0] (p := coeffs (-2000000) 0 0 0) (t := .fresh 16))).stream 0 =
    ⟨128, 32, 0, [(0, 0xEF), (1, 0x40), (2, 0x40), (3, 0x40)]⟩ := by decide +kernel

/-- A black 32×32 image, `thumbSize` 2, `hashSize` 4: every coefficient 0, so `v = twiceMax = 32640` and
`q = 32640 div 510 = 64` in each of the four fields of 8 bits (R233 to R237). -/
theorem test_hash : (out (.hash 0 0) (boot #v[2, 4, 0, 0] (p := .buffer formatR8G8B8 32 32 []) (t := .fresh 4))).stream 0 =
    ⟨32, 32, 0, [(0, 0x40), (1, 0x40), (2, 0x40), (3, 0x40)]⟩ := by decide +kernel

/-- An empty slot is no image (2.8). -/
theorem test_hash_empty : (out (.hash 0 4) boot).statusWord = 1 := by decide

theorem test_hash64_empty : (out (.hash64 0) boot).statusWord = 0x15 := by decide

theorem test_cmp_empty : (out (.cmp 7 7) boot).statusWord = 0x15 := by decide

theorem test_cmp64_empty : (out (.cmp64 0 1) boot).statusWord = 0x15 := by decide

/-- The example of R262, for the arithmetic alone: `d = 3`. -/
theorem test_cmp64_arithmetic : (f32Of256ths (similarity256ths .div64 3), f32Of256ths (similarity256ths .div256 3)) =
    (0x3F740000, 0x3F7D0000) := by decide

/-! ## A state and operands for the hypotheses of every statement

One theorem for each statement that has hypotheses, with one entry for each of its clauses. -/

theorem unbounded {s : State} (h : s.cfg.poolBytes = none) (n : Nat) : s.poolHas n := by
  intro p hp
  rw [h] at hp
  cases hp

theorem allocates {s : State} {n : Nat} (h : s.cfg.poolBytes = none) (hn : n ≤ bufMaxBytes) : s.allocOk n :=
  ⟨hn, unbounded h n⟩

/-- A pool that is full: nothing more can be allocated. -/
def full (s : State) : State := { s with cfg := ⟨some s.poolUsed, 256, .div64⟩ }

theorem full_refuses (s : State) (n : Nat) (hn : 0 < n) : ¬(full s).allocOk n := by
  rintro ⟨-, h⟩
  have h1 := h s.poolUsed rfl
  have h2 : (full s).poolUsed = s.poolUsed := rfl
  omega

/-- A pool with room for `n` bytes more, and no more. -/
def room (n : Nat) (s : State) : State := { s with cfg := ⟨some (s.poolUsed + n), 256, .div64⟩ }

theorem room_has (s : State) {m n : Nat} (h : m ≤ n) : (room n s).poolHas m := by
  intro p hp
  cases hp
  exact Nat.add_le_add_left h s.poolUsed

theorem room_refuses (s : State) {m n : Nat} (h : n < m) : ¬(room n s).poolHas m := by
  intro hp
  have h1 := hp _ rfl
  have h2 : (room n s).poolUsed = s.poolUsed := rfl
  omega

/-- The reset state with one move pending. -/
def moves (m : HostMove) : State := { State.reset with pending := [m] }

theorem witness_DecodeInvertsEncode : decode 0x00077026 = .ok (.cmp 7 7) := by decide

theorem witness_LegalWordsAreExactlyDecoded : (0x80000000 : Word).extractLsb' 20 12 ≠ 0 ∧
    ((0x00000007 : Word).extractLsb' 20 12 = 0 ∧ 0x07 ≤ ((0x00000007 : Word).extractLsb' 0 8).toNat) ∧
    ((0x0000001E : Word).extractLsb' 0 8).toNat = 0x1E ∧ ((0x0000001F : Word).extractLsb' 0 8).toNat = 0x1F ∧
    0x28 ≤ ((0x00000028 : Word).extractLsb' 0 8).toNat ∧
    (formatOf 0x26 = some .xPP ∧ formatOf ((0x00088826 : Word).extractLsb' 0 8) = some .xPP ∧
      (0x00088826 : Word).extractLsb' 20 12 = 0 ∧ FieldKind.unused.allows 8 = false) ∧
    (FieldKind.unused.allows 0 = true ∧ FieldKind.pixel.allows 8 = false) ∧ FieldKind.pixel.allows 7 = true := by decide

theorem witness_StepRunsDecodedCommand : (moves (.write 0x00C 0x00000120)).pending = [.write 0x00C 0x00000120] ∧
    (moves (.write 0x00C 0x00000120)).fault = none ∧ decode 0x00000120 = .ok (.desat 1 0) ∧
    State.reset.fault = none := by decide

theorem witness_IllegalWordEndsInvalidArgument : (moves (.write 0x00C 0x00000801)).pending = [.write 0x00C 0x00000801] ∧
    (moves (.write 0x00C 0x00000801)).fault = none ∧ (CommandWord.ofWord 0x00000801).wellFormed = false := by decide

theorem reset_inv : State.reset.Inv :=
  ⟨by decide, by decide, rfl, rfl, by decide, by decide, rfl, rfl⟩

theorem witness_StepKeepsInvariant : State.reset.Inv ∧ step State.reset = .next State.reset := ⟨reset_inv, rfl⟩

theorem witness_ResetClearsEngine :
    ((moves (.write 0x004 1)).pending = [.write 0x004 1] ∧ (1 : Word).getLsbD 0 = true) ∧
    ((moves (.write 0x004 2)).pending = [.write 0x004 2] ∧ (2 : Word).getLsbD 0 = false) ∧
    (moves .reset).pending = [.reset] := by decide

/-- A faulted engine with one move pending. -/
def faulted (m : HostMove) : State := { moves m with fault := some .winRange }

theorem witness_FaultedEngineIsFrozen : (∀ m, (faulted m).fault = some .winRange ∧ (faulted m).pending = [m]) ∧
    (0x3FC % 4 = 0 ∧ 0x3FC < 0x400 ∧ 0x3FC ≠ 0x038) ∧ (1 : Word).getLsbD 0 = true ∧
    step (faulted (.write 0x00C 0)) = .next { faulted (.write 0x00C 0) with pending := [] } :=
  ⟨fun _ => ⟨rfl, rfl⟩, by decide, by decide, rfl⟩

theorem witness_EveryRegisterAccessCompletes : State.reset.pending = [] ∧
    (∀ off v, (moves (.read off)).pending = [.read off] ∧ (moves (.write off v)).pending = [.write off v]) ∧
    (0x3FC % 4 = 0 ∧ 0x3FC < 0x400) ∧ (0x400 % 4 = 0 ∧ 0x400 ≤ 0x400) ∧ 0x3FE % 4 ≠ 0 :=
  ⟨rfl, fun _ _ => ⟨rfl, rfl⟩, by decide, by decide, by decide⟩

theorem witness_CommandsTouchOnlyTheirOwn : exec .nop State.reset = .next State.reset.succeed ∧
    pixelDest (.desat 1 0) ≠ some 0 ∧ streamDest (.bsRbits 0) ≠ some 1 ∧ writesXbuf (.bsWbits 0) = false :=
  ⟨rfl, by decide, by decide, rfl⟩

theorem witness_FaultsComeOnlyFromTheirCommands :
    (out (.resize 1 0) (boot #v[0, 3, 1, 0] (p := gray 2 1 [10, 20]))).fault = some .zeroWeight ∧
    (boot #v[0, 3, 1, 0] (p := gray 2 1 [10, 20])).fault = none ∧
    (out (.qpack 0 0) (boot #v[0, 1, 0, 0] (p := .buffer formatR32S 4 4 []))).fault = some .avgEmpty := by
  decide +kernel

theorem witness_FailedCommandsChangeNothingElse : State.reset.Inv ∧
    (out (.bsResize 0) State.reset).code ≠ .success ∧ (out (.hash 0 0) State.reset).code ≠ .success ∧
    (out (.pbPitch 0) State.reset).code ≠ .success ∧
    (out (.qpack 0 0) (boot #v[0, 16, 0, 0] (p := coeffs 50 (-3) (-3) (-1)) (t := .fresh 8))).statusWord = 0x45 :=
  ⟨reset_inv, by decide, by decide, by decide, by decide +kernel⟩

theorem witness_RegisterReadsAreIdempotent : (0x3FC % 4 = 0 ∧ 0x3FC < 0x400 ∧ 0x3FC ≠ 0x038) ∧
    (moves (.read 0x3FC)).pending = [.read 0x3FC] ∧ (0x038 < 0x03C ∧ 0x03C < 0x100) ∧
    (0x180 ≤ 0x180 ∧ 0x180 < 0x200) ∧ (0x240 ≤ 0x240 ∧ 0x240 < 0x400) := by decide

theorem witness_RegisterWritesStore : (∀ i : Fin 4, (moves (.write (0x010 + 4 * i.val) 7)).pending =
    [.write (0x010 + 4 * i.val) 7]) ∧ (moves (.write 0x030 7)).pending = [.write 0x030 7] ∧
    (moves (.write 0x034 7)).pending = [.write 0x034 7] ∧
    (0x000 < 0x004 ∧ 0x008 = 0x008 ∧ (0x020 ≤ 0x02C ∧ 0x02C < 0x030) ∧ 0x03C ≤ 0x03C) ∧
    (moves (.write 0x03C 7)).pending = [.write 0x03C 7] := by decide

/-- A state for a window access: kind, slot and offset, and the move. -/
def window (kind : BitVec 2) (slot : BitVec 4) (off : Word) (m : HostMove) : State :=
  { boot (p := gray 2 1 [10, 20]) (t := stream [0xA5] 8 0) (x := [7]) with
    winKind := kind, winSlot := slot, winOff := off, pending := [m] }

theorem window_inv (kind slot off m) : (window kind slot off m).Inv :=
  have h : (boot (p := gray 2 1 [10, 20]) (t := stream [0xA5] 8 0) (x := [7])).Inv := by constructor <;> decide
  ⟨h.pixels, h.streams, h.xbufWf, h.xbufWithin, h.xbufSize, h.xbufBits, h.pool, h.status⟩

theorem witness_WindowReadReturnsByte : (∀ kind slot off,
      (window kind slot off (.read 0x038)).pending = [.read 0x038] ∧
      (window kind slot off (.read 0x038)).fault = none) ∧
    (1 : Word).toNat < ((window 0 0 1 (.read 0x038)).pixel 0).cap.toNat ∧
    (0 : Word).toNat < ((window 1 0 0 (.read 0x038)).stream 0).capbits.toNat / 8 ∧
    (255 : Word).toNat < (window 2 0 255 (.read 0x038)).cfg.xbufBytes ∧
    ¬(2 : Word).toNat < ((window 0 0 2 (.read 0x038)).pixel 0).cap.toNat ∧
    ¬(1 : Word).toNat < ((window 1 0 1 (.read 0x038)).stream 0).capbits.toNat / 8 ∧
    ¬(256 : Word).toNat < (window 2 0 256 (.read 0x038)).cfg.xbufBytes :=
  ⟨fun _ _ _ => ⟨rfl, rfl⟩, by decide⟩

theorem witness_WindowWriteStoresByte : (∀ kind slot off,
      (window kind slot off (.write 0x038 9)).pending = [.write 0x038 9] ∧
      (window kind slot off (.write 0x038 9)).fault = none ∧ (window kind slot off (.write 0x038 9)).Inv) ∧
    (1 : Word).toNat < ((window 0 0 1 (.write 0x038 9)).pixel 0).cap.toNat ∧
    (0 : Word).toNat < ((window 1 0 0 (.write 0x038 9)).stream 0).capbits.toNat / 8 ∧
    (255 : Word).toNat < (window 2 0 255 (.write 0x038 9)).cfg.xbufBytes ∧
    ¬(2 : Word).toNat < ((window 0 0 2 (.write 0x038 9)).pixel 0).cap.toNat :=
  ⟨fun _ _ _ => ⟨rfl, rfl, window_inv _ _ _ _⟩, by decide⟩

theorem witness_PbCreateCompletes : let s := boot #v[0x00000008, 65535, 65537, 0]
    s.allocOk (s.arg[1].toNat * s.arg[2].toNat * formatBpp s.arg[0] / 8) ∧
    (s.pixel 0).isEmpty = true ∧ formatWellformed s.arg[0] = true ∧ formatChannels s.arg[0] ≠ 0 ∧
    formatBpp s.arg[0] % 8 = 0 ∧ s.arg[1] ≠ 0 ∧ s.arg[2] ≠ 0 :=
  ⟨allocates rfl (by decide), by decide⟩

theorem witness_PbCloneCompletes : let s := boot (p := gray 2 1 [10, 20])
    (s.pixel 1).isEmpty = true ∧ (s.pixel 0).valid = true ∧ s.allocOk (s.pixel 0).cap.toNat :=
  ⟨by decide, by decide, allocates rfl (by decide)⟩

theorem witness_PbRedimCompletes : let s := boot #v[0, 3, 1, 0] (p := gray 2 1 [10, 20])
    (s.pixel 0).valid = true ∧ s.arg[1] ≠ 0 ∧ s.arg[2] ≠ 0 ∧
    s.allocOk (s.arg[1].toNat * s.arg[2].toNat * formatBpp (s.pixel 0).format / 8) :=
  ⟨by decide, by decide, by decide, allocates rfl (by decide)⟩

theorem witness_PbPitchCompletes : ((boot (p := gray 2 1 [10, 20])).pixel 0).valid = true ∧
    ((boot (p := gray 2 1 [10, 20])).pixel 0).inv = true := by decide

theorem witness_PbBlkoffCompletes : let s := boot #v[1, 0, 0, 0] (p := gray 2 1 [10, 20])
    (s.pixel 0).valid = true ∧ (s.pixel 0).inv = true ∧ s.arg[0].toNat < (s.pixel 0).width.toNat ∧
    s.arg[1].toNat < (s.pixel 0).height.toNat := by decide

theorem witness_BlockOffsetIncreases : (gray 2 1 [10, 20]).valid = true ∧ (gray 2 1 [10, 20]).inv = true ∧ 0 < 1 := by
  decide

theorem witness_PixelCommandsFail : ¬(full (boot #v[0x00000008, 2, 1, 0])).allocOk 2 ∧
    ¬(full (boot (p := gray 2 1 [10, 20]))).allocOk 2 ∧
    ((boot (p := gray 2 1 [10, 20])).pixel 0).isEmpty = false ∧
    formatWellformed 0x00008008 = false ∧ formatChannels 0 = 0 ∧ formatBpp 0x00000007 % 8 ≠ 0 ∧
    ((boot #v[0x00000008, 2, 1, 0]).pixel 0).isEmpty = true ∧ ((boot).pixel 0).valid = false ∧
    ((full (boot (p := gray 2 1 [10, 20]))).pixel 0).valid = true ∧
    ((gray 2 1 [10, 20]).width.toNat ≤ (2 : Word).toNat ∧ (gray 2 1 [10, 20]).height.toNat ≤ (1 : Word).toNat) :=
  ⟨full_refuses _ _ (by decide), full_refuses _ _ (by decide), by decide⟩

theorem witness_BsResizeCompletes : let s := boot #v[0xFFFFFFF8, 0, 0, 0]
    s.arg[0] ≠ 0 ∧ s.arg[0].toNat ≤ 0xFFFFFFF8 ∧
    ({ s with bs := s.bs.set 0 ⟨0, 0, 0, []⟩ } : State).allocOk ((s.arg[0].toNat + 7) / 8) :=
  ⟨by decide, by decide, allocates rfl (by decide)⟩

theorem witness_BsResizeFailsEmpty : (boot #v[0, 0, 0, 0]).arg[0] = 0 ∧
    0xFFFFFFF8 < (boot #v[0xFFFFFFF9, 0, 0, 0]).arg[0].toNat ∧
    ((full (boot #v[1, 0, 0, 0])).arg[0] ≠ 0 ∧ (full (boot #v[1, 0, 0, 0])).arg[0].toNat ≤ 0xFFFFFFF8 ∧
      ¬(full (boot #v[1, 0, 0, 0])).allocOk 1) ∧
    { full (boot #v[1, 0, 0, 0]) with bs := (full (boot #v[1, 0, 0, 0])).bs.set 0 ⟨0, 0, 0, []⟩ } =
      full (boot #v[1, 0, 0, 0]) :=
  ⟨by decide, by decide, ⟨by decide, by decide, full_refuses _ _ (by decide)⟩, by decide⟩

theorem witness_BsLoadCompletes : let s := boot #v[256, 0, 0, 0]
    s.allocOk s.arg[0].toNat ∧ (s.stream 0).isEmpty = true ∧ s.arg[0] ≠ 0 ∧ s.arg[0].toNat ≤ s.cfg.xbufBytes ∧
    8 * s.arg[0].toNat ≤ bsMaxBits :=
  ⟨allocates rfl (by decide), by decide⟩

theorem witness_BsCopyCompletes : let s := boot (t := stream [0xA5] 8 1)
    (s.stream 1).isEmpty = true ∧ s.allocOk ((s.stream 0).capbits.toNat / 8) ∧ (s.stream 2).capbits = 0 :=
  ⟨by decide, allocates rfl (by decide), by decide⟩

theorem witness_StreamWritesComplete : let s := boot #v[1, 0, 0, 0] (t := stream [0x25] 0 0) (x := [7])
    (s.stream 0).inv = true ∧ (s.stream 0).wcur.toNat + 1 ≤ (s.stream 0).capbits.toNat ∧
    (s.stream 0).wcur.toNat + 8 ≤ (s.stream 0).capbits.toNat ∧ s.arg[0].toNat ≤ 8 * s.cfg.xbufBytes ∧
    (s.stream 0).wcur.toNat + s.arg[0].toNat ≤ (s.stream 0).capbits.toNat ∧ s.arg[0].toNat ≤ s.cfg.xbufBytes ∧
    (s.stream 0).wcur.toNat + 8 * s.arg[0].toNat ≤ (s.stream 0).capbits.toNat := by decide

theorem witness_StreamReadsComplete : let s := boot #v[1, 0, 0, 0] (t := stream [0x25] 8 0) (x := [7])
    (s.stream 0).inv = true ∧ s.xbuf.wf = true ∧ 1 ≤ (s.stream 0).wcur.toNat - (s.stream 0).rcur.toNat ∧
    8 ≤ (s.stream 0).wcur.toNat - (s.stream 0).rcur.toNat ∧
    (1 = min s.arg[0].toNat ((s.stream 0).wcur.toNat - (s.stream 0).rcur.toNat) ∧ 1 ≤ 8 * s.cfg.xbufBytes) ∧
    (1 = min s.arg[0].toNat (((s.stream 0).wcur.toNat - (s.stream 0).rcur.toNat) / 8) ∧ 1 ≤ s.cfg.xbufBytes) ∧
    0 = min (boot).arg[0].toNat ((((boot).stream 0).wcur.toNat - ((boot).stream 0).rcur.toNat) / 8) ∧
    (boot).arg[0] = 0 := by decide

theorem witness_StreamCommandsFail : let s := boot #v[257, 0, 0, 0] (t := stream [0x25] 8 8)
    let r := boot #v[2049, 0, 0, 0] (t := ⟨4096, 4096, 0, []⟩)
    let f := full (boot #v[1, 0, 0, 0] (u := stream [0x25] 8 8))
    (¬f.allocOk f.arg[0].toNat ∧ ¬f.allocOk ((f.stream 1).capbits.toNat / 8)) ∧
    (s.stream 0).isEmpty = false ∧ (boot).arg[0] = 0 ∧ s.cfg.xbufBytes < s.arg[0].toNat ∧
    (s.stream 0).capbits.toNat < (s.stream 0).wcur.toNat + 1 ∧ (s.stream 0).capbits.toNat < (s.stream 0).wcur.toNat + 8 ∧
    8 * r.cfg.xbufBytes < r.arg[0].toNat ∧ s.arg[0].toNat ≤ 8 * s.cfg.xbufBytes ∧
    (s.stream 0).capbits.toNat < (s.stream 0).wcur.toNat + s.arg[0].toNat ∧ f.arg[0].toNat ≤ f.cfg.xbufBytes ∧
    (f.stream 1).capbits.toNat < (f.stream 1).wcur.toNat + 8 * f.arg[0].toNat ∧
    (s.stream 0).wcur.toNat - (s.stream 0).rcur.toNat < 1 ∧ (s.stream 0).wcur.toNat - (s.stream 0).rcur.toNat < 8 ∧
    8 * r.cfg.xbufBytes < min r.arg[0].toNat ((r.stream 0).wcur.toNat - (r.stream 0).rcur.toNat) ∧
    (s.arg[0] ≠ 0 ∧ ((s.stream 0).wcur.toNat - (s.stream 0).rcur.toNat) / 8 = 0) ∧
    r.cfg.xbufBytes < min r.arg[0].toNat (((r.stream 0).wcur.toNat - (r.stream 0).rcur.toNat) / 8) ∧
    ((f.stream 0).isEmpty = true ∧ (f.stream 1).capbits ≠ 0) :=
  ⟨⟨full_refuses _ _ (by decide), full_refuses _ _ (by decide)⟩, by decide⟩

theorem witness_BsEqCompletes : ((boot).stream 0).capbits = ((boot).stream 1).capbits ∧
    ((boot).stream 0).wcur = ((boot).stream 1).wcur ∧ ((boot).stream 0).rcur = ((boot).stream 1).rcur ∧
    (∀ i < ((boot).stream 0).capbits.toNat / 8, ((boot).stream 0).data.read i = ((boot).stream 1).data.read i) ∧
    ((boot (t := stream [1] 8 0)).stream 0).capbits ≠ ((boot (t := stream [1] 8 0)).stream 1).capbits := by decide

theorem witness_WriteSeekReadRoundTrip : let s := boot (t := stream [0x25, 0] 5 2) (x := [0xB5])
    (s.stream 0).inv = true ∧ Memory.wf [(0, 3)] = true ∧ (11 : Word).toNat ≤ 8 * s.cfg.xbufBytes ∧
    (s.stream 0).wcur.toNat + (11 : Word).toNat ≤ (s.stream 0).capbits.toNat := by decide

theorem witness_CopyPathsAgree : Memory.wf [(0, 3), (2, 5)] = true ∧ 8 % 8 = 0 ∧ 16 % 8 = 0 := by decide

/-- An image of the least legal size plus `k` in width. -/
def image (w h : Nat) : PixelSlot := .buffer formatR8G8B8 w h (.ofBytes [1, 2, 3])

theorem witness_DesatCompletes : let s := boot (p := image 32 32)
    (s.pixel 1).isEmpty = true ∧ (s.pixel 0).validAs 0x00008208 = true ∧
    s.allocOk ((s.pixel 0).width.toNat * (s.pixel 0).height.toNat) :=
  ⟨by decide, by decide, allocates rfl (by decide)⟩

theorem witness_ResizeCompletes : let s := boot #v[0, 2, 1, 0] (p := gray 2 2 [10, 20, 30, 40])
    s.poolHas (s.arg[1].toNat * (s.pixel 0).height.toNat + s.arg[1].toNat * s.arg[2].toNat) ∧
    AxisOk (s.pixel 0).width.toNat s.arg[1].toNat ∧ AxisOk (s.pixel 0).height.toNat s.arg[2].toNat ∧
    (s.pixel 1).isEmpty = true ∧ (s.pixel 0).validAs 0x00000008 = true ∧ s.arg[1] ≠ 0 ∧ s.arg[2] ≠ 0 ∧
    ¬(s.arg[1] = (s.pixel 0).width ∧ s.arg[2] = (s.pixel 0).height) ∧
    s.arg[1].toNat * (s.pixel 0).height.toNat ≤ bufMaxBytes ∧ s.arg[1].toNat * s.arg[2].toNat ≤ bufMaxBytes :=
  ⟨unbounded rfl _, .inr (by decide), .inl (by decide), by decide⟩

theorem witness_ResizeToSameSizeClones : let s := boot #v[0, 2, 2, 0] (p := gray 2 2 [10, 20, 30, 40])
    (s.pixel 1).isEmpty = true ∧ (s.pixel 0).validAs 0x00000008 = true ∧ s.arg[1] = (s.pixel 0).width ∧
    s.arg[2] = (s.pixel 0).height ∧ s.allocOk (s.pixel 0).cap.toNat :=
  ⟨by decide, by decide, by decide, by decide, allocates rfl (by decide)⟩

theorem witness_ZeroWeightCondition : 2 ≤ 2 ∧ 2 ≤ 3 ∧ 2 * 2 - 1 ≤ 3 ∧ totalWeight 2 3 1 = 0 ∧ totalWeight 2 2 1 ≠ 0 := by
  decide

theorem witness_ResizeTakesZeroWeight : let s := boot #v[0, 3, 1, 0] (p := gray 2 1 [10, 20])
    let r := boot #v[0, 1, 3, 0] (p := gray 1 2 [10, 20])
    s.poolHas (s.arg[1].toNat * (s.pixel 0).height.toNat + s.arg[1].toNat * s.arg[2].toNat) ∧
    (s.pixel 1).isEmpty = true ∧ (s.pixel 0).validAs 0x00000008 = true ∧ s.arg[1] ≠ 0 ∧ s.arg[2] ≠ 0 ∧
    ((s.pixel 0).width = 1 → s.arg[1] = 1) ∧ ((s.pixel 0).height = 1 → s.arg[2] = 1) ∧
    (2 ≤ (s.pixel 0).width.toNat ∧ 2 * (s.pixel 0).width.toNat - 1 ≤ s.arg[1].toNat) ∧
    (2 ≤ (r.pixel 0).height.toNat ∧ 2 * (r.pixel 0).height.toNat - 1 ≤ r.arg[2].toNat) ∧
    s.arg[1].toNat * (s.pixel 0).height.toNat ≤ bufMaxBytes ∧ s.arg[1].toNat * s.arg[2].toNat ≤ bufMaxBytes :=
  ⟨unbounded rfl _, by decide⟩

theorem witness_ResampledLineProperties : (∀ v ∈ [10, 20, 30], 10 ≤ v ∧ v ≤ 30) ∧ axisFaults 3 4 = false ∧
    2 ≤ [10, 20].length ∧ ([10] : List Nat) ≠ [] := by decide

theorem witness_Dct2dCompletes : let s := boot (p := gray 2 2 [1, 2, 3, 4])
    (s.pixel 1).isEmpty = true ∧ (s.pixel 0).validAs 0x00000008 = true ∧
    4 * (s.pixel 0).width.toNat * (s.pixel 0).height.toNat ≤ bufMaxBytes ∧
    s.poolHas (8 * (s.pixel 0).width.toNat * (s.pixel 0).height.toNat) :=
  ⟨by decide, by decide, by decide, unbounded rfl _⟩

theorem witness_DctBounds : (∀ x ∈ ([5, -3] : List Int), x.natAbs ≤ 5) ∧ (∀ x ∈ ([5, 3] : List Int), 0 ≤ x) ∧
    exec (.dct2d 1 0) (boot (p := gray 2 2 [1, 2, 3, 4])) = .next (out (.dct2d 1 0) (boot (p := gray 2 2 [1, 2, 3, 4]))) ∧
    (out (.dct2d 1 0) (boot (p := gray 2 2 [1, 2, 3, 4]))).code = .success :=
  ⟨by decide, by decide, rfl, by decide +kernel⟩

theorem witness_ProcessingCommandsFail : let s := boot #v[0, 0, 1, 0] (p := gray 1 1 [9])
    let f := full (boot (p := image 1 1))
    let g := full (boot #v[0, 1, 1, 0] (p := gray 1 1 [9]))
    let r := room 3 (boot #v[0, 1, 2, 0] (p := gray 2 2 [9, 8, 7, 6]))
    (¬f.allocOk ((f.pixel 0).width.toNat * (f.pixel 0).height.toNat) ∧ ¬g.allocOk (g.pixel 0).cap.toNat ∧
      ¬(r.arg[1].toNat * (r.pixel 0).height.toNat ≤ bufMaxBytes ∧ r.arg[1].toNat * r.arg[2].toNat ≤ bufMaxBytes ∧
        r.poolHas (r.arg[1].toNat * (r.pixel 0).height.toNat + r.arg[1].toNat * r.arg[2].toNat)) ∧
      ¬(4 * (g.pixel 0).width.toNat * (g.pixel 0).height.toNat ≤ bufMaxBytes ∧
        g.poolHas (8 * (g.pixel 0).width.toNat * (g.pixel 0).height.toNat))) ∧
    (s.pixel 0).isEmpty = false ∧ (s.pixel 0).validAs 0x00008208 = false ∧
    ((f.pixel 1).isEmpty = true ∧ (f.pixel 0).validAs 0x00008208 = true) ∧
    s.arg[1] = 0 ∧ (boot #v[0, 1, 0, 0]).arg[2] = 0 ∧
    ((s.pixel 0).width = 1 ∧ s.arg[1] ≠ 1) ∧ (s.pixel 1).validAs 0x00000008 = false ∧
    ((s.pixel 0).height = 1 ∧ (boot #v[0, 1, 2, 0]).arg[2] ≠ 1) ∧
    ((g.pixel 1).isEmpty = true ∧ (g.pixel 0).validAs 0x00000008 = true ∧ g.arg[1] = (g.pixel 0).width ∧
      g.arg[2] = (g.pixel 0).height) ∧
    ((r.pixel 1).isEmpty = true ∧ (r.pixel 0).validAs 0x00000008 = true ∧ r.arg[1] ≠ 0 ∧ r.arg[2] ≠ 0 ∧
      ¬(r.arg[1] = (r.pixel 0).width ∧ r.arg[2] = (r.pixel 0).height) ∧ (r.pixel 0).width ≠ 1 ∧
      (r.pixel 0).height ≠ 1) :=
  ⟨⟨full_refuses _ _ (by decide), full_refuses _ _ (by decide), fun h => room_refuses _ (by decide) h.2.2,
    fun h => absurd (h.2 _ rfl) (by decide)⟩, by decide⟩

theorem witness_QpackCompletes : let s := boot #v[0, 2, 0, 0] (p := coeffs 1000 (-5000) 9000 (-100)) (t := .fresh 2)
    (s.stream 0).inv = true ∧ (s.pixel 0).validAs 0x01000020 = true ∧ 2 ≤ (s.pixel 0).width.toNat / 4 ∧
    (s.pixel 0).width.toNat / 4 ≤ (s.pixel 0).height.toNat ∧ s.arg[1].toNat ≤ 2147483648 ∧
    1 ≤ packWidth (s.pixel 0) s.arg[1].toNat ∧
    (s.stream 0).wcur.toNat + packWidth (s.pixel 0) s.arg[1].toNat * ((s.pixel 0).width.toNat / 4) ^ 2
      ≤ (s.stream 0).capbits.toNat := by decide +kernel

/-- `isImage` of an image of the tests, as one test of numbers. -/
theorem image_isImage (w h : Nat) (hi : (image w h).validAs formatR8G8B8 = true ∧ 32 ≤ (image w h).width.toNat ∧
    32 ≤ (image w h).height.toNat) : (image w h).isImage := hi

theorem witness_PackCapacityLimit :
    (let s := boot #v[0, 16, 0, 0] (p := coeffs 50 (-3) (-3) (-1)) (t := .fresh 8);
      (s.stream 0).inv = true ∧ (s.pixel 0).validAs 0x01000020 = true ∧ 2 ≤ (s.pixel 0).width.toNat / 4 ∧
      (s.pixel 0).width.toNat / 4 ≤ (s.pixel 0).height.toNat ∧ s.arg[1].toNat ≤ 2147483648 ∧
      1 ≤ packWidth (s.pixel 0) s.arg[1].toNat ∧ 2 < ((s.pixel 0).width.toNat / 4) ^ 2 ∧
      (s.stream 0).wcur.toNat + packWidth (s.pixel 0) s.arg[1].toNat * 2 ≤ (s.stream 0).capbits.toNat ∧
      (s.stream 0).capbits.toNat < (s.stream 0).wcur.toNat + packWidth (s.pixel 0) s.arg[1].toNat * (2 + 1)) ∧
    (let s := boot #v[2, 4, 0, 0] (p := image 32 32) (t := .fresh 3);
      (s.poolHas (hashPeak (s.pixel 0) (4 * 2)) ∧ (s.pixel 0).isImage) ∧
      (s.stream 0).inv = true ∧ (s.pixel 0).inv = true ∧ s.arg[0].toNat ≤ 2900 ∧
      s.arg[1].toNat ≤ 2147483648 ∧ 2 = (if s.arg[0] = 0 then 16 else s.arg[0].toNat) ∧
      4 = (if s.arg[1] = 0 then 32 else s.arg[1].toNat) ∧ 2 * 2 < (s.pixel 0).width.toNat ∧
      2 * 2 < (s.pixel 0).height.toNat ∧ 2 ^ 2 ≤ 4 * 8 ∧ 4 * 2 * (s.pixel 0).height.toNat ≤ bufMaxBytes ∧
      3 < 2 ^ 2 ∧ (s.stream 0).wcur.toNat + min 32 (4 * 8 / 2 ^ 2) * 3 ≤ (s.stream 0).capbits.toNat ∧
      (s.stream 0).capbits.toNat < (s.stream 0).wcur.toNat + min 32 (4 * 8 / 2 ^ 2) * (3 + 1)) :=
  ⟨by decide +kernel, ⟨unbounded rfl _, image_isImage 32 32 (by decide)⟩, by decide⟩

theorem witness_QpackStops : let s := boot #v[0, 0, 0, 0] (p := .buffer formatR32S 8 8 [])
    let r := boot #v[0, 2147483649, 0, 0] (p := .buffer formatR32S 7 1 []) (q := .buffer formatR32S 3 1 [])
    ((boot).pixel 0).validAs 0x01000020 = false ∧ (r.pixel 1).width.toNat / 4 = 0 ∧
    (PixelSlot.buffer formatR32S 8 1 []).height.toNat < (PixelSlot.buffer formatR32S 8 1 []).width.toNat / 4 ∧
    2147483648 < r.arg[1].toNat ∧
    ((r.pixel 0).validAs 0x01000020 = true ∧ (r.pixel 0).width.toNat / 4 = 1 ∧ s.arg[1].toNat ≤ 2147483648) ∧
    ((s.pixel 0).validAs 0x01000020 = true ∧ 2 ≤ (s.pixel 0).width.toNat / 4 ∧
      (s.pixel 0).width.toNat / 4 ≤ (s.pixel 0).height.toNat ∧
      s.arg[1].toNat * 8 < ((s.pixel 0).width.toNat / 4) ^ 2) := by decide +kernel

theorem witness_HashCompletes : let s := boot #v[2, 4, 0, 0] (p := image 32 32) (t := .fresh 4)
    (s.poolHas (hashPeak (s.pixel 0) (4 * 2)) ∧ (s.pixel 0).isImage) ∧
    (s.stream 0).inv = true ∧ (s.pixel 0).inv = true ∧ s.arg[0].toNat ≤ 2900 ∧
    s.arg[1].toNat ≤ 2147483648 ∧ 2 = (if s.arg[0] = 0 then 16 else s.arg[0].toNat) ∧
    4 = (if s.arg[1] = 0 then 32 else s.arg[1].toNat) ∧ 2 ≤ 2 ∧ 2 * 2 < (s.pixel 0).width.toNat ∧
    2 * 2 < (s.pixel 0).height.toNat ∧ 2 ^ 2 ≤ 4 * 8 ∧ 4 * 2 * (s.pixel 0).height.toNat ≤ bufMaxBytes ∧
    (s.stream 0).wcur.toNat + min 32 (4 * 8 / 2 ^ 2) * 2 ^ 2 ≤ (s.stream 0).capbits.toNat :=
  ⟨⟨unbounded rfl _, image_isImage 32 32 (by decide)⟩, by decide⟩

theorem witness_HashStops : let s := boot #v[16, 32, 0, 0] (p := image 32 32)
    let r := boot #v[1, 32, 0, 0] (p := image 32 32)
    let u := boot #v[3, 1, 0, 0] (p := image 32 32)
    ((room 7168 s).poolHas (thumbPeak (s.pixel 0) (4 * 16)) ∧ ¬(room 7167 s).poolHas (thumbPeak (s.pixel 0) (4 * 16))) ∧
    ¬(room 2319 u).poolHas (hashPeak (u.pixel 0) (4 * 3)) ∧ (room 2320 u).poolHas (hashPeak (u.pixel 0) (4 * 3)) ∧
    r.poolHas (hashPeak (r.pixel 0) 4) ∧ (s.pixel 0).isImage ∧
    2900 < (boot #v[2901, 0, 0, 0]).arg[0].toNat ∧ 2147483648 < (boot #v[0, 2147483649, 0, 0]).arg[1].toNat ∧
    ((s.pixel 0).inv = true ∧ s.arg[0].toNat ≤ 2900 ∧ s.arg[1].toNat ≤ 2147483648 ∧
      16 = (if s.arg[0] = 0 then 16 else s.arg[0].toNat) ∧ 32 = (if s.arg[1] = 0 then 32 else s.arg[1].toNat) ∧
      4 * 16 * (s.pixel 0).height.toNat ≤ bufMaxBytes ∧ (s.pixel 0).width.toNat ≤ 2 * 16) ∧
    (1 = (if r.arg[0] = 0 then 16 else r.arg[0].toNat) ∧ 4 * (r.pixel 0).height.toNat ≤ bufMaxBytes) ∧
    (3 = (if u.arg[0] = 0 then 16 else u.arg[0].toNat) ∧ 1 = (if u.arg[1] = 0 then 32 else u.arg[1].toNat) ∧
      2 * 3 < (u.pixel 0).width.toNat ∧ 2 * 3 < (u.pixel 0).height.toNat ∧ 1 * 8 < 3 ^ 2) :=
  ⟨⟨room_has _ (by decide), room_refuses _ (by decide)⟩, room_refuses _ (by decide),
    room_has _ (by decide), unbounded rfl _, image_isImage 32 32 (by decide), by decide⟩

theorem no_image : ¬PixelSlot.empty.isImage := fun h => absurd h.1 (by decide)

theorem witness_HashCommandsFail : let s := boot (p := image 32 32) (q := image 33 64)
    let r := boot (p := image 33 33) (q := image 33 64)
    (¬(s.pixel 2).isImage ∧ s.poolHas 32 ∧ ¬(full s).poolHas 8 ∧ ¬(room 31 s).poolHas 32) ∧
    ((s.pixel 0).isImage ∧ (s.pixel 1).isImage ∧ (r.pixel 0).isImage) ∧
    ¬(room (7 + hashPeak (s.pixel 0) 32) s).poolHas (8 + hashPeak (s.pixel 0) 32) ∧
    ¬(room (31 + thumbPeak (s.pixel 0) 64) s).poolHas (32 + thumbPeak (s.pixel 0) 64) ∧
    ¬(room (31 + hashPeak (r.pixel 0) 64) r).poolHas (32 + hashPeak (r.pixel 0) 64) ∧
    ((room (7 + hashPeak (s.pixel 1) 32) s).poolHas (8 + hashPeak (s.pixel 0) 32) ∧
      ¬(room (7 + hashPeak (s.pixel 1) 32) s).poolHas (8 + hashPeak (s.pixel 1) 32)) ∧
    ((room (63 + hashPeak (r.pixel 1) 64) r).poolHas (32 + hashPeak (r.pixel 0) 64) ∧
      ¬(room (63 + hashPeak (r.pixel 1) 64) r).poolHas (64 + hashPeak (r.pixel 1) 64)) ∧
    (let u := boot (p := image 33 33) (q := image 32 4096);
      ((room (63 + thumbPeak (u.pixel 1) 64) u).poolHas (32 + hashPeak (u.pixel 0) 64) ∧
        ¬(room (63 + thumbPeak (u.pixel 1) 64) u).poolHas (64 + thumbPeak (u.pixel 1) 64)) ∧ (u.pixel 1).isImage) ∧
    ((s.pixel 0).inv = true ∧ (s.pixel 1).inv = true ∧ (r.pixel 0).inv = true ∧
      33 ≤ (r.pixel 0).width.toNat ∧ 33 ≤ (r.pixel 0).height.toNat ∧ 33 ≤ (r.pixel 1).width.toNat ∧
      33 ≤ (r.pixel 1).height.toNat) :=
  ⟨⟨no_image, unbounded rfl _, fun h => absurd (h _ rfl) (by decide), room_refuses _ (by decide)⟩,
    ⟨image_isImage 32 32 (by decide), image_isImage 33 64 (by decide), image_isImage 33 33 (by decide)⟩,
    room_refuses _ (by decide), room_refuses _ (by decide), room_refuses _ (by decide),
    ⟨room_has _ (by decide), room_refuses _ (by decide)⟩, ⟨room_has _ (by decide), room_refuses _ (by decide)⟩,
    ⟨⟨room_has _ (by decide), room_refuses _ (by decide)⟩, image_isImage 32 4096 (by decide)⟩, by decide⟩

theorem witness_Hash64GivesZero : let s := boot (p := image 32 32)
    (s.pixel 0).inv = true ∧ (s.pixel 0).isImage ∧ s.poolHas (8 + hashPeak (s.pixel 0) 32) :=
  ⟨by decide, image_isImage 32 32 (by decide), unbounded rfl _⟩

theorem witness_CmpGivesOne : let s := boot (p := image 33 33) (q := image 33 64)
    (s.poolHas (32 + hashPeak (s.pixel 0) 64) ∧ s.poolHas (64 + hashPeak (s.pixel 1) 64)) ∧
    ((s.pixel 0).isImage ∧ (s.pixel 1).isImage) ∧ (s.pixel 0).inv = true ∧ (s.pixel 1).inv = true ∧
    33 ≤ (s.pixel 0).width.toNat ∧ 33 ≤ (s.pixel 0).height.toNat ∧ 33 ≤ (s.pixel 1).width.toNat ∧
    33 ≤ (s.pixel 1).height.toNat :=
  ⟨⟨unbounded rfl _, unbounded rfl _⟩, ⟨image_isImage 33 33 (by decide), image_isImage 33 64 (by decide)⟩, by decide⟩

theorem witness_CmpTakesZeroWeight : let s := boot (p := image 32 33) (q := image 33 32)
    let r := boot (p := image 33 33) (q := image 33 32)
    (s.poolHas (32 + thumbPeak (s.pixel 0) 64) ∧ r.poolHas (32 + hashPeak (r.pixel 0) 64) ∧
      r.poolHas (64 + thumbPeak (r.pixel 1) 64)) ∧
    ((s.pixel 0).isImage ∧ (r.pixel 0).isImage ∧ (r.pixel 1).isImage) ∧
    ((s.pixel 0).inv = true ∧ (s.pixel 0).width.toNat = 32 ∧ (s.pixel 1).height.toNat = 32) ∧
    ((r.pixel 0).inv = true ∧ 33 ≤ (r.pixel 0).width.toNat ∧ 33 ≤ (r.pixel 0).height.toNat ∧
      (r.pixel 1).inv = true ∧ (r.pixel 1).height.toNat = 32) :=
  ⟨⟨unbounded rfl _, unbounded rfl _, unbounded rfl _⟩,
    ⟨image_isImage 32 33 (by decide), image_isImage 33 33 (by decide), image_isImage 33 32 (by decide)⟩, by decide⟩

theorem witness_Cmp64GivesOne : let s := boot (p := image 32 32) (q := image 33 32)
    (s.pixel 0).inv = true ∧ (s.pixel 1).inv = true ∧ (s.pixel 0).isImage ∧ (s.pixel 1).isImage ∧
    s.poolHas (8 + hashPeak (s.pixel 0) 32) ∧ s.poolHas (8 + hashPeak (s.pixel 1) 32) :=
  ⟨by decide, by decide, image_isImage 32 32 (by decide),
    image_isImage 33 32 (by decide), unbounded rfl _, unbounded rfl _⟩

theorem witness_SimilarityPatterns : 1 ≤ 1 ∧ 256 ≤ 256 ∧ 64 ≤ 64 := by decide

end Sys2Proof.Tests
end

/-! The statements about the whole command set (spec/00_scope.md): what a command leaves as it was (R3), and the
binary32 patterns of the similarities (R13). -/

namespace Sys2Proof.Proofs

open Sys2Proof.Machine Sys2Proof.Laws

/-! ## The frame of a command -/

/-- `t` differs from `s` only where the command `i` may write: its destination slots, `XBUF` for the counted reads, the
status and the results (R3, R23, R41). -/
structure TouchesOnlyOwn (i : Instr) (s t : State) : Prop where
  arg : t.arg = s.arg
  cmd : t.cmd = s.cmd
  winSlot : t.winSlot = s.winSlot
  winKind : t.winKind = s.winKind
  winOff : t.winOff = s.winOff
  cfg : t.cfg = s.cfg
  pending : t.pending = s.pending
  rdata : t.rdata = s.rdata
  pixel : ∀ k, pixelDest i ≠ some k → t.pixel k = s.pixel k
  stream : ∀ k, streamDest i ≠ some k → t.stream k = s.stream k
  xbuf : writesXbuf i = false → t.xbuf = s.xbuf

namespace TouchesOnlyOwn

variable {i : Instr} {s t : State}

theorem refl (i : Instr) (s : State) : TouchesOnlyOwn i s s where
  arg := rfl
  cmd := rfl
  winSlot := rfl
  winKind := rfl
  winOff := rfl
  cfg := rfl
  pending := rfl
  rdata := rfl
  pixel _ _ := rfl
  stream _ _ := rfl
  xbuf _ := rfl

/-! Each named update of the state keeps the frame, where the command may make it. -/

theorem succeed (h : TouchesOnlyOwn i s t) (r0 r1 : Word) : TouchesOnlyOwn i s (t.succeed r0 r1) := { h with }

theorem fail (h : TouchesOnlyOwn i s t) (c sub : Status) : TouchesOnlyOwn i s (t.fail c sub) := { h with }

theorem takeFault (h : TouchesOnlyOwn i s t) (c : FaultCause) : TouchesOnlyOwn i s (t.takeFault c) := { h with }

theorem stop (h : TouchesOnlyOwn i s t) (e : Stop) : TouchesOnlyOwn i s (t.stop e) := by
  cases e with
  | fail c sub => exact h.fail c sub
  | fault c => exact h.takeFault c

theorem setPixel (h : TouchesOnlyOwn i s t) {a : PixelIdx} (ha : pixelDest i = some a) (p : PixelSlot) :
    TouchesOnlyOwn i s (t.setPixel a p) :=
  { h with
    pixel := fun k hk => by
      have hne : k ≠ a := by rintro rfl; exact hk ha
      rw [setPixel_pixel_ne t p hne, h.pixel k hk] }

theorem setStream (h : TouchesOnlyOwn i s t) {a : StreamIdx} (ha : streamDest i = some a) (u : StreamSlot) :
    TouchesOnlyOwn i s (t.setStream a u) :=
  { h with
    stream := fun k hk => by
      have hne : k ≠ a := by rintro rfl; exact hk ha
      rw [setStream_stream_ne t u hne, h.stream k hk] }

theorem setXbuf (h : TouchesOnlyOwn i s t) (hx : writesXbuf i = true) (m : Memory) :
    TouchesOnlyOwn i s (t.setXbuf m) :=
  { h with xbuf := fun hx' => absurd (hx.symm.trans hx') Bool.noConfusion }

/-! The shared ends of commands. -/

theorem endCreate (h : TouchesOnlyOwn i s t) {a : PixelIdx} (ha : pixelDest i = some a) (r : Except Stop PixelSlot) :
    TouchesOnlyOwn i s (t.endCreate a r) := by
  cases r with
  | ok p => exact (h.setPixel ha p).succeed 0 0
  | error e => exact h.stop e

theorem endAppend (h : TouchesOnlyOwn i s t) {a : StreamIdx} (ha : streamDest i = some a) (r : Option StreamSlot) :
    TouchesOnlyOwn i s (t.endAppend a r) := by
  cases r with
  | some u => exact (h.setStream ha u).succeed 0 0
  | none => exact h.fail .capacityLimit .success

theorem endPack (h : TouchesOnlyOwn i s t) {a : StreamIdx} (ha : streamDest i = some a)
    (r : StreamSlot × Option Stop) : TouchesOnlyOwn i s (t.endPack a r) := by
  obtain ⟨u, e⟩ := r
  cases e with
  | none => exact (h.setStream ha u).succeed 0 0
  | some e => exact (h.setStream ha u).stop e

theorem endRead (h : TouchesOnlyOwn i s t) {a : StreamIdx} (ha : streamDest i = some a) (hx : writesXbuf i = true)
    (n count : Nat) : TouchesOnlyOwn i s (t.endRead a n count) :=
  ((h.setXbuf hx _).setStream ha _).succeed _ 0

end TouchesOnlyOwn

/-- The command `i` run in `s` ends in a next state, and that state differs from `s` only where `i` may write. -/
def EndsTouchingOnlyOwn (i : Instr) (s : State) (o : Host.Outcome State Fault Refusal) : Prop :=
  ∃ t, o = .next t ∧ TouchesOnlyOwn i s t

namespace EndsTouchingOnlyOwn

variable {i : Instr} {s t : State}

theorem next (h : TouchesOnlyOwn i s t) : EndsTouchingOnlyOwn i s (.next t) := ⟨t, rfl, h⟩

/-- A test that fails ends the command with a code and writes nothing else. -/
theorem fails (i : Instr) (s : State) (c : Status) : EndsTouchingOnlyOwn i s (.next (s.fail c)) :=
  next ((TouchesOnlyOwn.refl i s).fail c .success)

/-- A command that writes nothing but its results. -/
theorem succeeds (i : Instr) (s : State) (r0 r1 : Word) : EndsTouchingOnlyOwn i s (.next (s.succeed r0 r1)) :=
  next ((TouchesOnlyOwn.refl i s).succeed r0 r1)

theorem stops (i : Instr) (s : State) (e : Stop) : EndsTouchingOnlyOwn i s (.next (s.stop e)) :=
  next ((TouchesOnlyOwn.refl i s).stop e)

theorem creates (s : State) {a : PixelIdx} (ha : pixelDest i = some a) (r : Except Stop PixelSlot) :
    EndsTouchingOnlyOwn i s (.next (s.endCreate a r)) :=
  next ((TouchesOnlyOwn.refl i s).endCreate ha r)

theorem appends (s : State) {a : StreamIdx} (ha : streamDest i = some a) (r : Option StreamSlot) :
    EndsTouchingOnlyOwn i s (.next (s.endAppend a r)) :=
  next ((TouchesOnlyOwn.refl i s).endAppend ha r)

theorem packs (s : State) {a : StreamIdx} (ha : streamDest i = some a) (r : StreamSlot × Option Stop) :
    EndsTouchingOnlyOwn i s (.next (s.endPack a r)) :=
  next ((TouchesOnlyOwn.refl i s).endPack ha r)

theorem reads (s : State) {a : StreamIdx} (ha : streamDest i = some a) (hx : writesXbuf i = true) (n count : Nat) :
    EndsTouchingOnlyOwn i s (.next (s.endRead a n count)) :=
  next ((TouchesOnlyOwn.refl i s).endRead ha hx n count)

/-- A command that replaces its stream slot and writes its results. -/
theorem replacesStream (s : State) {a : StreamIdx} (ha : streamDest i = some a) (u : StreamSlot) (r0 r1 : Word) :
    EndsTouchingOnlyOwn i s (.next ((s.setStream a u).succeed r0 r1)) :=
  next (((TouchesOnlyOwn.refl i s).setStream ha u).succeed r0 r1)

/-- Both branches of a test of the command's rule keep the frame. -/
theorem ite {c : Prop} {_ : Decidable c} {o o' : Host.Outcome State Fault Refusal} (h : EndsTouchingOnlyOwn i s o)
    (h' : EndsTouchingOnlyOwn i s o') : EndsTouchingOnlyOwn i s (if c then o else o') := by
  by_cases hc : c
  · rwa [if_pos hc]
  · rwa [if_neg hc]

end EndsTouchingOnlyOwn

open EndsTouchingOnlyOwn

/-- `BS_RESIZE` empties its slot first, so its failing ends have replaced the slot too (R141). -/
theorem execBsResize_touchesOnlyOwn (a : StreamIdx) (s : State) :
    EndsTouchingOnlyOwn (.bsResize a) s (execBsResize a s) := by
  have emptied : TouchesOnlyOwn (.bsResize a) s (s.setStream a .empty) := (TouchesOnlyOwn.refl _ s).setStream rfl _
  unfold execBsResize
  exact ite (next (emptied.fail _ _)) (ite (next (emptied.fail _ _)) (next ((emptied.setStream rfl _).succeed _ _)))

theorem execHash64_touchesOnlyOwn (b : PixelIdx) (s : State) :
    EndsTouchingOnlyOwn (.hash64 b) s (execHash64 b s) := by
  unfold execHash64
  cases s.hash64 (s.pixel b) with
  | ok v => exact succeeds _ s _ _
  | error e => exact stops _ s e

theorem execCmp_touchesOnlyOwn (b c : PixelIdx) (s : State) :
    EndsTouchingOnlyOwn (.cmp b c) s (execCmp b c s) := by
  unfold execCmp
  cases s.compareImages (s.pixel b) (s.pixel c) with
  | ok m => exact succeeds _ s _ _
  | error e => exact stops _ s e

theorem execCmp64_touchesOnlyOwn (b c : PixelIdx) (s : State) :
    EndsTouchingOnlyOwn (.cmp64 b c) s (execCmp64 b c s) := by
  unfold execCmp64
  cases s.compareImages64 (s.pixel b) (s.pixel c) with
  | ok d => exact succeeds _ s _ _
  | error e => exact stops _ s e

/-- Every command ends in a next state and keeps its frame. Each arm follows the tests of the command's rule: a failing
test writes the code only, the last end is the one that may write the destination. -/
theorem exec_touchesOnlyOwn (i : Instr) (s : State) : EndsTouchingOnlyOwn i s (exec i s) := by
  cases i with
  | nop => exact succeeds _ s 0 0
  | pbCreate a => exact creates s rfl _
  | pbDestroy a => exact next (((TouchesOnlyOwn.refl _ s).setPixel rfl .empty).succeed 0 0)
  | pbClone a b => exact creates s rfl _
  | pbRedim a => exact creates s rfl _
  | pbPitch a => exact ite (fails _ s _) (succeeds _ s _ _)
  | pbBlkoff a => exact ite (fails _ s _) (ite (fails _ s _) (succeeds _ s _ 0))
  | bsResize a => exact execBsResize_touchesOnlyOwn a s
  | bsDestroy a => exact replacesStream s rfl .empty 0 0
  | bsLoad a => exact ite (fails _ s _) (ite (fails _ s _) (ite (fails _ s _) (replacesStream s rfl _ 0 0)))
  | bsCopy a b => exact ite (fails _ s _) (ite (fails _ s _) (replacesStream s rfl _ 0 0))
  | bsWbit a => exact appends s rfl _
  | bsWbyte a => exact appends s rfl _
  | bsWbits a => exact ite (fails _ s _) (appends s rfl _)
  | bsWbytes a => exact ite (fails _ s _) (appends s rfl _)
  | bsRbit a => exact ite (fails _ s _) (replacesStream s rfl _ _ 0)
  | bsRbyte a => exact ite (fails _ s _) (replacesStream s rfl _ _ 0)
  | bsRbits a => exact ite (fails _ s _) (reads s rfl rfl _ _)
  | bsRbytes a => exact ite (fails _ s _) (ite (fails _ s _) (reads s rfl rfl _ _))
  | bsSeek a => exact replacesStream s rfl _ 0 0
  | bsEq a b => exact succeeds _ s _ 0
  | desat a b => exact ite (fails _ s _) (creates s rfl _)
  | resize a b => exact ite (fails _ s _) (creates s rfl _)
  | dct2d a b => exact ite (fails _ s _) (creates s rfl _)
  | qpack a b => exact ite (fails _ s _) (ite (fails _ s _) (packs s rfl _))
  | hash a b => exact packs s rfl _
  | hash64 b => exact execHash64_touchesOnlyOwn b s
  | cmp b c => exact execCmp_touchesOnlyOwn b c s
  | cmp64 b c => exact execCmp64_touchesOnlyOwn b c s

/-- Settles O12: the frame of every command, from the frame of its end. -/
theorem commandsTouchOnlyTheirOwn : Obligations.CommandsTouchOnlyTheirOwn := by
  unfold Obligations.CommandsTouchOnlyTheirOwn
  intro i s t h
  obtain ⟨t', ht, frame⟩ := exec_touchesOnlyOwn i s
  obtain rfl : t' = t := Host.Outcome.next.inj (ht.symm.trans h)
  exact ⟨frame.arg, frame.cmd, frame.winSlot, frame.winKind, frame.winOff, frame.cfg, frame.pending, frame.rdata,
    frame.pixel, frame.stream, frame.xbuf⟩

/-! ## The patterns of the similarities -/

/-- Shifting the leading one of `k` to bit 23 gives a significand of exactly 24 bits. -/
theorem significand_bounds {k : Nat} (h1 : 1 ≤ k) (h2 : k < 256) :
    2 ^ 23 ≤ k * 2 ^ (23 - k.log2) ∧ k * 2 ^ (23 - k.log2) < 2 ^ 24 := by
  have hlog : k.log2 < 8 := (Nat.log2_lt (by omega)).mpr h2
  have hlo : 2 ^ k.log2 ≤ k := Nat.log2_self_le (by omega)
  have hhi : k < 2 ^ (k.log2 + 1) := Nat.lt_log2_self
  constructor
  · calc 2 ^ 23 = 2 ^ k.log2 * 2 ^ (23 - k.log2) := by rw [← pow_add]; congr 1; omega
      _ ≤ k * 2 ^ (23 - k.log2) := Nat.mul_le_mul_right _ hlo
  · calc k * 2 ^ (23 - k.log2) < 2 ^ (k.log2 + 1) * 2 ^ (23 - k.log2) :=
          Nat.mul_lt_mul_of_pos_right hhi (Nat.two_pow_pos _)
      _ = 2 ^ 24 := by rw [← pow_add]; congr 1; omega

/-- The pattern of a value between 0 and 1: the biased exponent of `k/256` over the fraction of `k` (R13). -/
theorem f32Of256ths_toNat {k : Nat} (h1 : 1 ≤ k) (h2 : k < 256) :
    (f32Of256ths k).toNat = 2 ^ 23 * (k.log2 + 119) + k * 2 ^ (23 - k.log2) % 2 ^ 23 := by
  have hlog : k.log2 < 8 := (Nat.log2_lt (by omega)).mpr h2
  obtain ⟨-, hsig⟩ := significand_bounds h1 h2
  have hexp : (BitVec.ofNat 32 (k.log2 + 119) <<< 23).toNat = 2 ^ 23 * (k.log2 + 119) := by
    rw [BitVec.toNat_shiftLeft, BitVec.toNat_ofNat, Nat.shiftLeft_eq]
    omega
  have hfrac : ((BitVec.ofNat 32 k <<< (23 - k.log2)) &&& 0x7FFFFF#32).toNat = k * 2 ^ (23 - k.log2) % 2 ^ 23 := by
    have hk : k % 2 ^ 32 = k := Nat.mod_eq_of_lt (by omega)
    have hs : k * 2 ^ (23 - k.log2) % 2 ^ 32 = k * 2 ^ (23 - k.log2) := Nat.mod_eq_of_lt (by omega)
    rw [BitVec.toNat_and, BitVec.toNat_shiftLeft, BitVec.toNat_ofNat, Nat.shiftLeft_eq, hk, hs]
    exact Nat.and_two_pow_sub_one_eq_mod _ 23
  unfold f32Of256ths
  rw [if_neg (by omega), if_neg (by omega)]
  dsimp only
  rw [BitVec.toNat_or, hexp, hfrac]
  exact (Nat.two_pow_add_eq_or_of_lt (Nat.mod_lt _ (Nat.two_pow_pos 23)) _).symm

/-- The pattern `f32(k/256)` read as a binary32 number of sign 0 is `k/256`: the significand with its hidden bit, times
two to the biased exponent, is `k` at the scale `2^(127 + 23 - 8)`. -/
theorem f32Of256ths_value {k : Nat} (h1 : 1 ≤ k) (h2 : k ≤ 256) :
    (2 ^ 23 + (f32Of256ths k).toNat % 2 ^ 23) * 2 ^ ((f32Of256ths k).toNat / 2 ^ 23) = k * 2 ^ 142 := by
  rcases Nat.lt_or_eq_of_le h2 with hlt | rfl
  · have hlog : k.log2 < 8 := (Nat.log2_lt (by omega)).mpr hlt
    obtain ⟨hlo, hhi⟩ := significand_bounds h1 hlt
    have hpat := f32Of256ths_toNat h1 hlt
    have hfrac : 2 ^ 23 + (f32Of256ths k).toNat % 2 ^ 23 = k * 2 ^ (23 - k.log2) := by omega
    have hexp : (f32Of256ths k).toNat / 2 ^ 23 = k.log2 + 119 := by omega
    rw [hfrac, hexp, Nat.mul_assoc, ← pow_add]
    congr 2
    omega
  · decide

/-- The similarity of `CMP64` in 256ths, for both divisors (R262). -/
theorem similarity256ths_spec {d : Nat} (hd : d ≤ 64) :
    64 * similarity256ths .div64 d = 256 * (64 - d) ∧ similarity256ths .div256 d = 256 - d := by
  refine ⟨?_, rfl⟩
  simp only [similarity256ths]
  omega

/-- Settles O60: the value of the pattern by its exponent and fraction, and the similarity by its divisor. -/
theorem similarityPatterns : Obligations.SimilarityPatterns :=
  ⟨fun _ h1 h2 => f32Of256ths_value h1 h2, rfl, fun _ hd => similarity256ths_spec hd⟩

end Sys2Proof.Proofs

/-! The family of the engine's state (spec/10_state.md): what one move of the host is, what each register reads as and what
a write to it does, the reset, stream equality, and the invariant that every step keeps. -/

namespace Sys2Proof.Proofs

open Sys2Proof.Machine Sys2Proof.Laws

-- One theorem after another, as in the tests: in one text with them, waiting threads would each hold a stack.
set_option Elab.async false

/-! ## One move of the host -/

/-- An aligned offset inside the register space is an access of the interface (R60, R66). -/
theorem atRegister_access {off : Nat} (h4 : off % 4 = 0) (hlt : off < 0x400)
    (k : Host.Outcome State Fault Refusal) : atRegister off k = k := by
  rw [atRegister, if_neg (by omega), if_neg (by omega)]

theorem atRegister_outside {off : Nat} (h4 : off % 4 = 0) (hge : 0x400 ≤ off)
    (k : Host.Outcome State Fault Refusal) : atRegister off k = .fault (.outsideRegisterSpace off) := by
  rw [atRegister, if_neg (by omega), if_pos hge]

theorem atRegister_misaligned {off : Nat} (h4 : off % 4 ≠ 0) (k : Host.Outcome State Fault Refusal) :
    atRegister off k = .refused (.notARegisterAccess off) := by
  rw [atRegister, if_pos h4]

section step
variable {s : State} {rest : List HostMove} {off : Nat} {v : Word}

/-- With no move to come the engine stays as it is (R20). -/
theorem step_of_idle (h : s.pending = []) : step s = .next s := by
  simp only [step, h]

theorem step_of_pending {m : HostMove} (h : s.pending = m :: rest) :
    step s = hostMove { s with pending := rest } m := by
  simp only [step, h]

theorem step_read (h : s.pending = .read off :: rest) (h4 : off % 4 = 0) (hlt : off < 0x400) :
    step s = .next { (({ s with pending := rest } : State).hostRead off).2 with
      rdata := (({ s with pending := rest } : State).hostRead off).1 } :=
  (step_of_pending h).trans (atRegister_access h4 hlt _)

theorem step_write (h : s.pending = .write off v :: rest) (h4 : off % 4 = 0) (hlt : off < 0x400) :
    step s = ({ s with pending := rest } : State).hostWrite off v :=
  (step_of_pending h).trans (atRegister_access h4 hlt _)

/-- An access that is none of the interface stops the model by name, read or write. -/
theorem step_outside (h : s.pending = .read off :: rest ∨ s.pending = .write off v :: rest) (h4 : off % 4 = 0)
    (hge : 0x400 ≤ off) : step s = .fault (.outsideRegisterSpace off) := by
  rcases h with h | h <;> exact (step_of_pending h).trans (atRegister_outside h4 hge _)

theorem step_misaligned (h : s.pending = .read off :: rest ∨ s.pending = .write off v :: rest) (h4 : off % 4 ≠ 0) :
    step s = .refused (.notARegisterAccess off) := by
  rcases h with h | h <;> exact (step_of_pending h).trans (atRegister_misaligned h4 _)

end step

/-! ## Every access completes -/

/-- Every command ends in a next state, which its frame says already. -/
theorem exec_next (i : Instr) (s : State) : ∃ t, exec i s = .next t := by
  obtain ⟨t, ht, -⟩ := exec_touchesOnlyOwn i s
  exact ⟨t, ht⟩

theorem writeCmd_next (s : State) (w : Word) : ∃ t, s.writeCmd w = .next t := by
  unfold State.writeCmd
  split
  · exact ⟨_, rfl⟩
  · cases decode w with
    | ok i => exact exec_next i _
    | error e => exact ⟨_, rfl⟩

/-- Only the write to `CMD` can do more than name its next state. -/
theorem hostWrite_next (s : State) (off : Nat) (v : Word) : ∃ t, s.hostWrite off v = .next t := by
  unfold State.hostWrite
  split
  case h_2 => exact writeCmd_next s v
  all_goals exact ⟨_, rfl⟩

/-- Settles O11: commands end by their frame, an access is one of the interface or stops by name. -/
theorem everyRegisterAccessCompletes : Obligations.EveryRegisterAccessCompletes := by
  unfold Obligations.EveryRegisterAccessCompletes
  refine ⟨exec_next, fun _ => step_of_idle, fun s rest off v h => ⟨fun h4 hlt => ?_, step_outside h, step_misaligned h⟩⟩
  rcases h with h | h
  · exact ⟨_, step_read h h4 hlt⟩
  · rw [step_write h h4 hlt]; exact hostWrite_next _ off v

/-! ## What the registers read as -/

/-- From the data window on, the register map holds the slots' descriptors and nothing else (R22). -/
theorem register_of_ge (s : State) {off : Nat} (h : 0x038 ≤ off) : s.register off =
    if h : 0x100 ≤ off ∧ off < 0x180 then (s.pixel ⟨(off - 0x100) / 16, by omega⟩).register (off % 16 / 4)
    else if h : 0x200 ≤ off ∧ off < 0x240 then (s.stream ⟨(off - 0x200) / 16, by omega⟩).register (off % 16 / 4)
    else 0 := by
  unfold State.register
  split
  case h_14 => rfl
  all_goals omega

/-- The descriptor registers of pixel slot `k` (R30). -/
theorem register_pixel (s : State) (k : PixelIdx) {j off : Nat} (hj : j < 4) (hoff : off = 0x100 + 0x10 * k.val + 4 * j) :
    s.register off = (s.pixel k).register j := by
  have hslot : (off - 0x100) / 16 = k.val := by omega
  have hword : off % 16 / 4 = j := by omega
  rw [register_of_ge s (by omega), dif_pos (by omega), hword]
  congr 2
  exact Fin.ext hslot

/-- The descriptor registers of stream slot `k` (R38). -/
theorem register_stream (s : State) (k : StreamIdx) {j off : Nat} (hj : j < 4) (hoff : off = 0x200 + 0x10 * k.val + 4 * j) :
    s.register off = (s.stream k).register j := by
  have hslot : (off - 0x200) / 16 = k.val := by omega
  have hword : off % 16 / 4 = j := by omega
  rw [register_of_ge s (by omega), dif_neg (by omega), dif_pos (by omega), hword]
  congr 2
  exact Fin.ext hslot

theorem register_unlisted (s : State) {off : Nat}
    (h : (0x038 < off ∧ off < 0x100) ∨ (0x180 ≤ off ∧ off < 0x200) ∨ (0x240 ≤ off ∧ off < 0x400)) :
    s.register off = 0 := by
  rw [register_of_ge s (by omega), dif_neg (by omega), dif_neg (by omega)]

theorem register_arg (s : State) (i : Fin 4) : s.register (0x010 + 4 * i.val) = s.arg[i] := by
  fin_cases i <;> rfl

theorem register_res (s : State) (i : Fin 4) : s.register (0x020 + 4 * i.val) = s.res[i] := by
  fin_cases i <;> rfl

/-- A read of a register other than `WIN_DATA` has no side effect (R69). -/
theorem hostRead_of_ne_window (s : State) {off : Nat} (h : off ≠ 0x038) : s.hostRead off = (s.register off, s) := by
  rw [State.hostRead, if_neg h]

/-! The fields of `WIN_SEL` (R22). -/

theorem winSelWord_getLsbD (s : State) (i : Nat) : s.winSelWord.getLsbD i =
    if i < 4 then s.winSlot.getLsbD i else if 8 ≤ i ∧ i < 10 then s.winKind.getLsbD (i - 8) else false := by
  change ((0 : BitVec 22) ++ s.winKind ++ (0 : BitVec 4) ++ s.winSlot).getLsbD i = _
  simp only [BitVec.getLsbD_append]
  grind

theorem winSelWord_slot (s : State) : s.winSelWord.extractLsb' 0 4 = s.winSlot := by
  refine BitVec.eq_of_getLsbD_eq fun i hi => ?_
  rw [BitVec.getLsbD_extractLsb', winSelWord_getLsbD]
  simp [hi]

theorem winSelWord_kind (s : State) : s.winSelWord.extractLsb' 8 2 = s.winKind := by
  refine BitVec.eq_of_getLsbD_eq fun i hi => ?_
  rw [BitVec.getLsbD_extractLsb', winSelWord_getLsbD, if_neg (by omega), if_pos (by omega)]
  simp [hi]

/-- The bits of `WIN_SEL` outside `SLOT` and `KIND` are 0: the mask names them. -/
theorem winSelWord_rest (s : State) : s.winSelWord &&& 0xFFFFFCF0 = 0 := by
  have hmask : ∀ i : Fin 32, (0xFFFFFCF0 : Word).getLsbD i = (decide (4 ≤ i.val ∧ i.val < 8) || decide (10 ≤ i.val)) := by
    decide
  refine BitVec.eq_of_getLsbD_eq fun i hi => ?_
  rw [BitVec.getLsbD_and, winSelWord_getLsbD, hmask ⟨i, hi⟩]
  grind

/-- Settles O17: no read but that of `WIN_DATA` has an effect, and the register map word by word. -/
theorem registerReadsAreIdempotent : Obligations.RegisterReadsAreIdempotent := by
  unfold Obligations.RegisterReadsAreIdempotent
  constructor
  · intro s off rest h4 hlt hne hp
    rw [step_read hp h4 hlt, hostRead_of_ne_window _ hne]
    rfl
  · intro s
    have hpixel (k : PixelIdx) : s.register (0x100 + 0x10 * k.val) = (s.pixel k).format ∧
        s.register (0x104 + 0x10 * k.val) = (s.pixel k).width ∧
        s.register (0x108 + 0x10 * k.val) = (s.pixel k).height ∧
        s.register (0x10C + 0x10 * k.val) = (s.pixel k).cap :=
      ⟨register_pixel s k (j := 0) (by omega) (by omega), register_pixel s k (j := 1) (by omega) (by omega),
        register_pixel s k (j := 2) (by omega) (by omega), register_pixel s k (j := 3) (by omega) (by omega)⟩
    exact ⟨rfl, rfl, rfl, fun i => ⟨register_arg s i, register_res s i⟩, winSelWord_slot s, winSelWord_kind s,
      winSelWord_rest s, rfl, hpixel, fun _ => register_unlisted s⟩

/-! The fields of `STATUS` (R24). -/

theorem statusWord_getLsbD (s : State) (i : Nat) : s.statusWord.getLsbD i =
    if i < 4 then s.code.toField.getLsbD i
    else if i < 8 then s.subcode.toField.getLsbD (i - 4)
    else if i = 8 then s.fault.isSome
    else if 12 ≤ i ∧ i < 16 then (faultCauseField s.fault).getLsbD (i - 12)
    else false := by
  have hflag : (faultFlag s.fault).getLsbD 0 = s.fault.isSome := by cases s.fault <;> simp [faultFlag]
  change ((0 : BitVec 16) ++ faultCauseField s.fault ++ (0 : BitVec 3) ++ faultFlag s.fault ++ s.subcode.toField ++
    s.code.toField).getLsbD i = _
  simp only [BitVec.getLsbD_append]
  grind

theorem statusWord_code (s : State) : s.statusWord.extractLsb' 0 4 = s.code.toField := by
  refine BitVec.eq_of_getLsbD_eq fun i hi => ?_
  rw [BitVec.getLsbD_extractLsb', statusWord_getLsbD]
  simp [hi]

theorem statusWord_subcode (s : State) : s.statusWord.extractLsb' 4 4 = s.subcode.toField := by
  refine BitVec.eq_of_getLsbD_eq fun i hi => ?_
  rw [BitVec.getLsbD_extractLsb', statusWord_getLsbD, if_neg (by omega), if_pos (by omega)]
  simp [hi]

theorem statusWord_fault (s : State) : s.statusWord.getLsbD 8 = s.fault.isSome :=
  statusWord_getLsbD s 8

theorem statusWord_cause (s : State) : s.statusWord.extractLsb' 12 4 = faultCauseField s.fault := by
  refine BitVec.eq_of_getLsbD_eq fun i hi => ?_
  rw [BitVec.getLsbD_extractLsb', statusWord_getLsbD, if_neg (by omega), if_neg (by omega), if_neg (by omega),
    if_pos (by omega)]
  simp [hi]

/-- Bits 11:9 and 31:16 are 0. -/
theorem statusWord_reserved (s : State) {start len : Nat} (h : 9 ≤ start ∧ start + len ≤ 12 ∨ 16 ≤ start) :
    s.statusWord.extractLsb' start len = 0 := by
  refine BitVec.eq_of_getLsbD_eq fun i hi => ?_
  rw [BitVec.getLsbD_extractLsb', statusWord_getLsbD, if_neg (by omega), if_neg (by omega), if_neg (by omega),
    if_neg (by omega), Bool.and_false]
  simp

/-- Settles O15: each field of the word is the number of what the state holds. -/
theorem statusWordFields : Obligations.StatusWordFields := by
  unfold Obligations.StatusWordFields
  intro s
  rw [show s.register 0x008 = s.statusWord from rfl, statusWord_code, statusWord_subcode, statusWord_fault,
    statusWord_cause, statusWord_reserved s (.inl (by decide)), statusWord_reserved s (.inr (by decide))]
  refine ⟨?_, ?_, rfl, rfl, ?_, rfl⟩
  · cases s.code <;> rfl
  · cases s.subcode <;> rfl
  · rcases s.fault with _ | c
    · rfl
    · cases c <;> rfl

/-! The flags of a stream slot (R38). -/

theorem flagsWord_getLsbD (t : StreamSlot) (i : Nat) : t.flagsWord.getLsbD i =
    if i = 0 then t.flagEmpty else if i = 1 then t.flagFull else if i = 2 then t.flagAlloc else false := by
  change ((0 : BitVec 29) ++ BitVec.ofBool t.flagAlloc ++ BitVec.ofBool t.flagFull ++
    BitVec.ofBool t.flagEmpty).getLsbD i = _
  simp only [BitVec.getLsbD_append, BitVec.getLsbD_ofBool]
  grind

theorem flagsWord_empty (t : StreamSlot) : t.flagsWord.getLsbD 0 = decide (t.rcur = t.wcur) :=
  flagsWord_getLsbD t 0

theorem flagsWord_full (t : StreamSlot) : t.flagsWord.getLsbD 1 = decide (t.wcur = t.capbits) :=
  flagsWord_getLsbD t 1

theorem flagsWord_alloc (t : StreamSlot) : t.flagsWord.getLsbD 2 = decide (t.capbits ≠ 0) := by
  refine (flagsWord_getLsbD t 2).trans ?_
  rw [decide_not]
  rfl

theorem flagsWord_rest (t : StreamSlot) {j : Nat} (h : 3 ≤ j) : t.flagsWord.getLsbD j = false := by
  rw [flagsWord_getLsbD, if_neg (by omega), if_neg (by omega), if_neg (by omega)]

/-- Settles O16: the four words of the slot's descriptor, the flags bit by bit. -/
theorem streamDescriptorRegisters : Obligations.StreamDescriptorRegisters := by
  unfold Obligations.StreamDescriptorRegisters
  refine ⟨fun s k => ?_, rfl⟩
  have hflags : s.register (0x20C + 0x10 * k.val) = (s.stream k).flagsWord :=
    register_stream s k (j := 3) (by omega) (by omega)
  rw [hflags]
  exact ⟨register_stream s k (j := 0) (by omega) (by omega), register_stream s k (j := 1) (by omega) (by omega),
    register_stream s k (j := 2) (by omega) (by omega), flagsWord_empty _, flagsWord_full _, flagsWord_alloc _,
    fun _ => flagsWord_rest _⟩

/-! ## What a write to a register does -/

theorem hostWrite_arg (s : State) (i : Fin 4) (v : Word) :
    s.hostWrite (0x010 + 4 * i.val) v = .next (s.writeArg i v) := by
  fin_cases i <;> rfl

/-- Read-only and unlisted registers ignore a write (R22). -/
theorem hostWrite_ignored (s : State) {off : Nat} (v : Word)
    (h : off < 0x004 ∨ off = 0x008 ∨ (0x020 ≤ off ∧ off < 0x030) ∨ 0x03C ≤ off) : s.hostWrite off v = .next s := by
  unfold State.hostWrite
  split
  case h_10 => rfl
  all_goals omega

/-- Settles O18: a write is the update its register names, and none where the register ignores it. -/
theorem registerWritesStore : Obligations.RegisterWritesStore := by
  unfold Obligations.RegisterWritesStore
  intro s v rest
  refine ⟨fun i hp => ?_, fun hp => step_write hp rfl (by decide), fun hp => step_write hp rfl (by decide),
    fun off h4 hlt h hp => ?_⟩
  · rw [step_write hp (by omega) (by omega), hostWrite_arg]
    rfl
  · rw [step_write hp h4 hlt, hostWrite_ignored _ v h]

/-! ## Reset -/

/-- Settles O9: `CTRL` bit 0 and the platform's reset are one operation. -/
theorem resetClearsEngine : Obligations.ResetClearsEngine := by
  unfold Obligations.ResetClearsEngine
  intro s rest
  refine ⟨fun v hp hv => ?_, fun v hp hv => ?_, fun hp => step_of_pending hp, rfl⟩
  · rw [step_write hp rfl (by decide)]
    exact congrArg Host.Outcome.next (if_pos hv)
  · rw [step_write hp rfl (by decide)]
    exact congrArg Host.Outcome.next (if_neg (Bool.eq_false_iff.mp hv))

@[simp] theorem empty_pixel_register (j : Nat) : PixelSlot.empty.register j = 0 := by
  unfold PixelSlot.register
  split <;> rfl

/-- An empty stream's flags are `EMPTY` and `FULL` (R52). -/
theorem empty_stream_register : ∀ j, StreamSlot.empty.register j = if 3 ≤ j then 3 else 0
  | 0 | 1 | 2 => rfl
  | j + 3 => (if_pos (Nat.le_add_left 3 j)).symm

theorem reset_pixel (k : PixelIdx) : State.reset.pixel k = .empty := resetEngine_pixel State.reset k

theorem reset_stream (k : StreamIdx) : State.reset.stream k = .empty := resetEngine_stream State.reset k

/-- The register map after reset (R52): the registers before the data window one by one, then the empty slots. -/
theorem reset_register {off : Nat} (h4 : off % 4 = 0) : State.reset.register off =
    if off = 0x000 then 0x494E5331
    else if off = 0x20C ∨ off = 0x21C ∨ off = 0x22C ∨ off = 0x23C then 3 else 0 := by
  rcases Nat.lt_or_ge off 0x038 with hlt | hge
  · interval_cases off <;> rfl
  · rw [register_of_ge _ hge, if_neg (by omega)]
    simp only [reset_pixel, reset_stream, empty_pixel_register, empty_stream_register]
    by_cases hp : 0x100 ≤ off ∧ off < 0x180
    · rw [dif_pos hp, if_neg (by omega)]
    · rw [dif_neg hp]
      by_cases hs : 0x200 ≤ off ∧ off < 0x240
      · rw [dif_pos hs]
        congr 1
        exact propext ⟨fun _ => by omega, fun _ => by omega⟩
      · rw [dif_neg hs, if_neg (by omega)]

/-- Settles O6: the register map after reset, and the state under it. -/
theorem resetRegistersRead : Obligations.ResetRegistersRead := by
  unfold Obligations.ResetRegistersRead
  exact ⟨fun _ => reset_register, reset_pixel, reset_stream, fun _ => rfl, by decide, rfl⟩

/-! ## Stream equality -/

theorem bytes_eq_iff (m m' : Memory) (n : Nat) : m.bytes 0 n = m'.bytes 0 n ↔ ∀ i < n, m.read i = m'.read i := by
  simp [Memory.bytes]

/-- Equality of streams (R39). -/
theorem equal_iff (t u : StreamSlot) : t.equal u = true ↔ t.capbits = u.capbits ∧ t.wcur = u.wcur ∧ t.rcur = u.rcur ∧
    ∀ i < t.capbits.toNat / 8, t.data.read i = u.data.read i := by
  simp only [StreamSlot.equal, Bool.and_eq_true, beq_iff_eq, and_assoc]
  refine and_congr_right fun hcap => and_congr_right fun _ => and_congr_right fun _ => ?_
  have hbytes : u.capBytes = t.capBytes := by rw [StreamSlot.capBytes, StreamSlot.capBytes, hcap]
  rw [hbytes]
  exact bytes_eq_iff _ _ _

theorem exec_bsEq (a b : StreamIdx) (s : State) :
    exec (.bsEq a b) s = .next (s.succeed (if (s.stream a).equal (s.stream b) then 1 else 0)) := rfl

/-- Settles O36: the two results of `BS_EQ` by `equal_iff`. -/
theorem bsEqCompletes : Obligations.BsEqCompletes := by
  unfold Obligations.BsEqCompletes
  intro a b s
  rw [← equal_iff, exec_bsEq]
  exact ⟨fun h => by rw [if_pos h]; rfl, fun h => by rw [if_neg h]; rfl⟩

end Sys2Proof.Proofs

/-! The engine's invariant (R31, R36, R46, R24, spec/60_exceptions.md R288 to R290): it holds after reset, each named update
of the state keeps it under its own condition, and so does every end of a command and every move of the host. -/

namespace Sys2Proof.Proofs

open Sys2Proof.Machine Sys2Proof.Laws

-- One theorem after another, as in the tests: in one text with them, waiting threads would each hold a stack.
set_option Elab.async false

/-! ## The conditions of an update -/

/-- What the invariant says of the status, the results and the fault (R24, R288 to R290). -/
theorem statusOk_iff (s : State) : s.statusOk = true ↔
    s.subcode ≠ .executionFailure ∧ (s.code = .executionFailure ∨ s.subcode = .success) ∧
      (s.code = .success ∨ s.res = results 0 0) ∧
      (s.fault = none ∨ s.fault = some .winRange ∨ s.code = .executionFailure ∧ s.subcode = .success) := by
  simp only [State.statusOk, Bool.and_eq_true, Bool.or_eq_true, beq_iff_eq, bne_iff_ne, and_assoc, or_assoc]

/-- The pool holds a pixel slot's new buffer where it had room for it beside the old one. -/
theorem poolOk_setPixel_of_has {s : State} {p : PixelSlot} (k : PixelIdx) (h : s.poolHas p.cap.toNat) :
    (s.setPixel k p).poolOk = true := by
  refine (poolOk_iff _).mpr fun b hb => ?_
  have hroom := h b hb
  have hsum := poolUsed_setPixel s k p
  omega

/-- A buffer no larger than the slot's own needs no room. -/
theorem poolOk_setPixel_of_le {s : State} {p : PixelSlot} {k : PixelIdx} (h : s.poolOk = true)
    (hle : p.cap.toNat ≤ (s.pixel k).cap.toNat) : (s.setPixel k p).poolOk = true := by
  refine (poolOk_iff _).mpr fun b hb => ?_
  have hroom := (poolOk_iff s).mp h b hb
  have hsum := poolUsed_setPixel s k p
  omega

theorem poolOk_setStream_of_has {s : State} {u : StreamSlot} (k : StreamIdx) (h : s.poolHas u.capBytes) :
    (s.setStream k u).poolOk = true := by
  refine (poolOk_iff _).mpr fun b hb => ?_
  have hroom := h b hb
  have hsum := poolUsed_setStream s k u
  omega

theorem poolOk_setStream_of_le {s : State} {u : StreamSlot} {k : StreamIdx} (h : s.poolOk = true)
    (hle : u.capBytes ≤ (s.stream k).capBytes) : (s.setStream k u).poolOk = true := by
  refine (poolOk_iff _).mpr fun b hb => ?_
  have hroom := (poolOk_iff s).mp h b hb
  have hsum := poolUsed_setStream s k u
  omega

/-- An allocation that did not fail has its bytes in the pool. -/
theorem poolHas_of_canAlloc {s : State} {n : Nat} (h : ¬s.canAlloc 0 n = false) : s.poolHas n :=
  ((canAlloc_zero_iff s n).mp (Bool.not_eq_false _ ▸ h)).2

theorem fresh_capBytes_le (n : Nat) : (StreamSlot.fresh n).capBytes ≤ n := by
  simp only [StreamSlot.capBytes, StreamSlot.fresh, BitVec.toNat_ofNat]
  omega

theorem loaded_capBytes_le (x : Memory) (n : Nat) : (StreamSlot.loaded x n).capBytes ≤ n := by
  simp only [StreamSlot.capBytes, StreamSlot.loaded, BitVec.toNat_ofNat]
  omega

theorem capBytes_le_of_capbits_eq {t u : StreamSlot} (h : u.capbits = t.capbits) : u.capBytes ≤ t.capBytes := by
  rw [StreamSlot.capBytes, StreamSlot.capBytes, h]

/-! ## Updates that keep the invariant -/

theorem setPixel_inv {s : State} {k : PixelIdx} {p : PixelSlot} (h : s.Inv) (hp : p.inv = true)
    (hpool : (s.setPixel k p).poolOk = true) : (s.setPixel k p).Inv :=
  { h with
    pool := hpool
    pixels := fun j => by
      rw [setPixel_pixel]
      split
      · exact hp
      · exact h.pixels j }

theorem setStream_inv {s : State} {k : StreamIdx} {u : StreamSlot} (h : s.Inv) (hu : u.inv = true)
    (hpool : (s.setStream k u).poolOk = true) : (s.setStream k u).Inv :=
  { h with
    pool := hpool
    streams := fun j => by
      rw [setStream_stream]
      split
      · exact hu
      · exact h.streams j }

theorem setXbuf_inv {s : State} {m : Memory} (h : s.Inv) (hwf : m.wf = true)
    (hin : m.within s.cfg.xbufBytes = true) : (s.setXbuf m).Inv :=
  { h with xbufWf := hwf, xbufWithin := hin }

/-- A reset keeps the parameters, and with them their bounds; every slot is empty. -/
theorem resetEngine_inv {s : State} (hsize : 16 ≤ s.cfg.xbufBytes) (hbits : 8 * s.cfg.xbufBytes ≤ bsMaxBits) :
    s.resetEngine.Inv where
  pixels k := by rw [resetEngine_pixel]; exact empty_pixel_inv
  streams k := by rw [resetEngine_stream]; exact empty_stream_inv
  xbufWf := empty_wf
  xbufWithin := empty_within _
  xbufSize := hsize
  xbufBits := hbits
  pool := by
    have hused : s.resetEngine.poolUsed = 0 := show State.reset.poolUsed = 0 by decide
    refine (poolOk_iff _).mpr fun b _ => ?_
    omega
  status := rfl

/-- Settles O7: the reset state is what a reset of the engine makes of the default parameters. -/
theorem resetMeetsInvariant : Obligations.ResetMeetsInvariant := by
  unfold Obligations.ResetMeetsInvariant
  exact resetEngine_inv (s := State.reset) (by decide) (by decide)

/-! ## The data window -/

/-- ALL THAT `WIN_SEL` CAN SELECT (R74): a pixel store, a stream store, `XBUF`, or no store. -/
theorem window_cases (s : State) :
    (∃ k, s.window = ((s.pixel k).data, (s.pixel k).cap.toNat) ∧
      ∀ m, s.setWindow m = s.setPixel k { s.pixel k with data := m }) ∨
    (∃ k, s.window = ((s.stream k).data, (s.stream k).capBytes) ∧
      ∀ m, s.setWindow m = s.setStream k { s.stream k with data := m }) ∨
    (s.window = (s.xbuf, s.cfg.xbufBytes) ∧ ∀ m, s.setWindow m = s.setXbuf m) ∨
    (s.window = ([], 0) ∧ ∀ m, s.setWindow m = s) := by
  rcases hk : s.winKind.toNat with _ | _ | _ | n <;> simp only [State.window, State.setWindow, hk]
  case zero =>
    by_cases hs : s.winSlot.toNat < 8
    · exact .inl ⟨⟨_, hs⟩, by rw [dif_pos hs], fun m => by rw [dif_pos hs]⟩
    · simp only [dif_neg hs]; tauto
  case succ.zero =>
    by_cases hs : s.winSlot.toNat < 4
    · exact .inr (.inl ⟨⟨_, hs⟩, by simp only [dif_pos hs], fun m => by simp only [dif_pos hs]⟩)
    · simp only [dif_neg hs]; tauto
  case succ.succ.zero =>
    by_cases hs : s.winSlot.toNat = 0
    · simp only [if_pos hs]; tauto
    · simp only [if_neg hs]; tauto
  case succ.succ.succ => tauto

/-- A byte written inside a pixel slot's store keeps the slot legal; an empty slot has no store. -/
theorem pixel_write_inv {p : PixelSlot} (h : p.inv = true) {a : Nat} (ha : a < p.cap.toNat) (v : Byte) :
    ({ p with data := p.data.write a v } : PixelSlot).inv = true := by
  rcases (pixel_inv_iff p).mp h with rfl | ⟨hv, hf, h8, hcap, hwf, hin⟩
  · exact absurd ha (Nat.not_lt_zero a)
  · exact (pixel_inv_iff _).mpr (.inr ⟨hv, hf, h8, hcap, write_wf a v hwf, write_within v ha hin⟩)

theorem stream_write_inv {t : StreamSlot} (h : t.inv = true) {a : Nat} (ha : a < t.capBytes) (v : Byte) :
    ({ t with data := t.data.write a v } : StreamSlot).inv = true := by
  obtain ⟨hr, hw, h8, hwf, hin⟩ := (stream_inv_iff t).mp h
  exact (stream_inv_iff _).mpr ⟨hr, hw, h8, write_wf a v hwf, write_within v ha hin⟩

theorem setWindow_inv {s : State} (h : s.Inv) {a : Nat} (ha : a < s.window.2) (v : Byte) :
    (s.setWindow (s.window.1.write a v)).Inv := by
  rcases window_cases s with ⟨k, hw, hset⟩ | ⟨k, hw, hset⟩ | ⟨hw, hset⟩ | ⟨-, hset⟩
  · rw [hw] at ha
    rw [hset, hw]
    exact setPixel_inv h (pixel_write_inv (h.pixels k) ha v) (poolOk_setPixel_of_le h.pool (Nat.le_refl _))
  · rw [hw] at ha
    rw [hset, hw]
    exact setStream_inv h (stream_write_inv (h.streams k) ha v) (poolOk_setStream_of_le h.pool (Nat.le_refl _))
  · rw [hw] at ha
    rw [hset, hw]
    exact setXbuf_inv h (write_wf a v h.xbufWf) (write_within v ha h.xbufWithin)
  · rw [hset]
    exact h

/-- `WIN_RANGE` is the one fault that leaves the status as it is (R290). -/
theorem takeWindowFault_inv {s : State} (h : s.Inv) : s.takeWindowFault.Inv := by
  obtain ⟨hsub, hcode, hres, -⟩ := (statusOk_iff s).mp h.status
  exact { h with status := (statusOk_iff _).mpr ⟨hsub, hcode, hres, .inr (.inl rfl)⟩ }

theorem bumpWindow_inv {s : State} (h : s.Inv) : s.bumpWindow.Inv := { h with }

theorem readWindow_inv {s : State} (h : s.Inv) : s.readWindow.2.Inv := by
  unfold State.readWindow
  split
  · exact h
  split
  · exact bumpWindow_inv h
  · exact takeWindowFault_inv h

theorem writeWindow_inv {s : State} (h : s.Inv) (v : Word) : (s.writeWindow v).Inv := by
  unfold State.writeWindow
  split
  · exact h
  split
  case isTrue hr => exact bumpWindow_inv (setWindow_inv h (of_decide_eq_true hr) _)
  case isFalse => exact takeWindowFault_inv h

/-! ## A running command

A command runs with no fault taken (R93); the fault it may take is its last act. -/

/-- The invariant in the midst of a command. -/
structure Running (s : State) : Prop where
  inv : s.Inv
  noFault : s.fault = none

theorem stopOk_plain {c : Status} (h : c ≠ .success) : StopOk (.plain c) := ⟨h, Status.noConfusion, .inr rfl⟩

namespace Running

variable {s : State}

theorem setPixel (h : Running s) {k : PixelIdx} {p : PixelSlot} (hp : p.inv = true)
    (hpool : (s.setPixel k p).poolOk = true) : Running (s.setPixel k p) :=
  ⟨setPixel_inv h.inv hp hpool, h.noFault⟩

theorem setStream (h : Running s) {k : StreamIdx} {u : StreamSlot} (hu : u.inv = true)
    (hpool : (s.setStream k u).poolOk = true) : Running (s.setStream k u) :=
  ⟨setStream_inv h.inv hu hpool, h.noFault⟩

/-- The slot's stream replaced by one of its capacity. -/
theorem setStream_sameCap (h : Running s) {k : StreamIdx} {u : StreamSlot} (hu : u.inv = true)
    (hcap : u.capbits = (s.stream k).capbits) : Running (s.setStream k u) :=
  h.setStream hu (poolOk_setStream_of_le h.inv.pool (capBytes_le_of_capbits_eq hcap))

theorem clearStream (h : Running s) (k : StreamIdx) : Running (s.setStream k .empty) :=
  h.setStream empty_stream_inv (poolOk_setStream_of_le h.inv.pool (Nat.zero_le _))

theorem clearPixel (h : Running s) (k : PixelIdx) : Running (s.setPixel k .empty) :=
  h.setPixel empty_pixel_inv (poolOk_setPixel_of_le h.inv.pool (Nat.zero_le _))

/-! The ends of commands. -/

theorem succeed (h : Running s) (r0 r1 : Word) : (s.succeed r0 r1).Inv :=
  { h.inv with
    status := (statusOk_iff _).mpr ⟨Status.noConfusion, .inr rfl, .inl rfl, .inl h.noFault⟩ }

theorem stop (h : Running s) {e : Stop} (he : StopOk e) : (s.stop e).Inv := by
  cases e with
  | fail c sub =>
    obtain ⟨-, hsub, hcode⟩ := he
    exact { h.inv with status := (statusOk_iff _).mpr ⟨hsub, hcode, .inr rfl, .inl h.noFault⟩ }
  | fault c =>
    exact { h.inv with
      status := (statusOk_iff _).mpr ⟨Status.noConfusion, .inl rfl, .inr rfl, .inr (.inr ⟨rfl, rfl⟩)⟩ }

theorem fail (h : Running s) {c : Status} (hc : c ≠ .success) : (s.fail c).Inv := h.stop (stopOk_plain hc)

theorem endCreate (h : Running s) {r : Except Stop PixelSlot} (k : PixelIdx) (hr : BufferOk s 0 r) :
    (s.endCreate k r).Inv := by
  cases r with
  | ok p =>
    obtain ⟨hp, -, hpool⟩ := hr
    rw [Nat.zero_add] at hpool
    exact (h.setPixel hp (poolOk_setPixel_of_has k hpool)).succeed 0 0
  | error e => exact h.stop hr

theorem endAppend (h : Running s) (k : StreamIdx) (src : Nat → Bool) (n : Nat) :
    (s.endAppend k ((s.stream k).append src n)).Inv := by
  cases hr : (s.stream k).append src n with
  | some u =>
    obtain ⟨-, hcap, -⟩ := append_some hr
    exact (h.setStream_sameCap (append_inv (h.inv.streams k) hr) hcap).succeed 0 0
  | none => exact h.fail Status.noConfusion

theorem endPack (h : Running s) {k : StreamIdx} {r : StreamSlot × Option Stop} (hi : r.1.inv = true)
    (hcap : r.1.capbits = (s.stream k).capbits) (he : ∀ e, r.2 = some e → StopOk e) : (s.endPack k r).Inv := by
  obtain ⟨u, _ | e⟩ := r
  · exact (h.setStream_sameCap hi hcap).succeed 0 0
  · exact (h.setStream_sameCap hi hcap).stop (he e rfl)

/-- A counted read within the stream's bits and the size of `XBUF` (R156, R157). -/
theorem endRead (h : Running s) {k : StreamIdx} {n : Nat} (hn : n ≤ (s.stream k).remaining)
    (hx : n ≤ 8 * s.cfg.xbufBytes) (count : Nat) : (s.endRead k n count).Inv := by
  have hxbuf : Running (s.setXbuf (copyBits s.xbuf 0 (s.stream k).data (s.stream k).rcur.toNat n)) :=
    ⟨setXbuf_inv h.inv (putBits_wf _ _ h.inv.xbufWf _) (putBits_within _ h.inv.xbufWithin _ (by omega)), h.noFault⟩
  exact (hxbuf.setStream_sameCap (advance_inv (h.inv.streams k) hn) rfl).succeed _ 0

end Running

/-- The next state of an outcome, where it has one, meets the invariant. -/
def EndsInv (o : Host.Outcome State Fault Refusal) : Prop := ∀ t, o = .next t → t.Inv

namespace EndsInv

theorem next {s : State} (h : s.Inv) : EndsInv (.next s) := by
  rintro t ⟨⟩
  exact h

/-- A test of a command's rule: each branch may use what the test said. -/
theorem ite {c : Prop} {_ : Decidable c} {o o' : Host.Outcome State Fault Refusal} (h : c → EndsInv o)
    (h' : ¬c → EndsInv o') : EndsInv (if c then o else o') := by
  by_cases hc : c
  · rw [if_pos hc]; exact h hc
  · rw [if_neg hc]; exact h' hc

/-- A test of a command's rule that ends the command with the code `c` where it holds. -/
theorem guard {p : Prop} {_ : Decidable p} {s : State} {c : Status} {o : Host.Outcome State Fault Refusal}
    (h : Running s) (h' : ¬p → EndsInv o) (hc : c ≠ .success := by exact Status.noConfusion) :
    EndsInv (if p then .next (s.fail c) else o) :=
  ite (fun _ => next (h.fail hc)) h'

end EndsInv

open EndsInv

/-! ## The reasons for which the hash commands stop -/

theorem hash64_stopOk {s : State} {p : PixelSlot} {e : Stop} (he : s.hash64 p = .error e) : StopOk e := by
  obtain ⟨-, -, -, -, -, hstop⟩ := hashImage_spec s hash64Bytes p 8 8 (.fresh hash64Bytes) (fresh_inv _)
  unfold State.hash64 at he
  split at he
  · cases he
    exact ⟨Status.noConfusion, Status.noConfusion, .inl rfl⟩
  · split at he
    case h_1 e' heq =>
      cases he
      exact stopOk_wrap (hstop e' (by rw [heq])).1
    case h_2 => cases he

theorem defaultHash_stopOk {s : State} {held : Nat} {p : PixelSlot} {e : Stop}
    (he : s.defaultHash held p = .error e) : StopOk e := by
  obtain ⟨-, -, -, -, -, hstop⟩ := hashImage_spec s (held + cmpBytes) p 0 0 (.fresh cmpBytes) (fresh_inv _)
  unfold State.defaultHash at he
  split at he
  · cases he
    exact ⟨Status.noConfusion, Status.noConfusion, .inl rfl⟩
  · split at he
    case h_1 e' heq =>
      cases he
      exact stopOk_wrap (hstop e' (by rw [heq])).1
    case h_2 => cases he

theorem compareImages_stopOk {s : State} {p q : PixelSlot} {e : Stop} (he : s.compareImages p q = .error e) :
    StopOk e := by
  unfold State.compareImages at he
  cases ht : s.defaultHash 0 p with
  | error e' => rw [ht] at he; cases he; exact defaultHash_stopOk ht
  | ok t =>
    rw [ht] at he
    cases hu : s.defaultHash cmpBytes q with
    | error e' => rw [hu] at he; cases he; exact defaultHash_stopOk hu
    | ok u =>
      rw [hu] at he
      dsimp only at he
      split at he
      · cases he; exact ⟨Status.noConfusion, Status.noConfusion, .inl rfl⟩
      · cases he

theorem compareImages64_stopOk {s : State} {p q : PixelSlot} {e : Stop} (he : s.compareImages64 p q = .error e) :
    StopOk e := by
  unfold State.compareImages64 at he
  cases hv : s.hash64 p with
  | error e' => rw [hv] at he; cases he; exact hash64_stopOk hv
  | ok v =>
    rw [hv] at he
    cases hw : s.hash64 q with
    | error e' => rw [hw] at he; cases he; exact hash64_stopOk hw
    | ok w => rw [hw] at he; cases he

/-! ## Every command keeps the invariant

The commands whose tests and ends need an argument of their own first. -/

section commands
variable {s : State} (h : Running s)
include h

/-- The pool has room for the new store after the old one is freed (R141). -/
theorem execBsResize_inv (a : StreamIdx) : EndsInv (execBsResize a s) := by
  have emptied := h.clearStream a
  refine guard emptied fun _ => guard emptied fun hroom => next ?_
  have hpool := poolHas_mono (fresh_capBytes_le _) (poolHas_of_canAlloc hroom)
  exact (emptied.setStream (fresh_inv _) (poolOk_setStream_of_has a hpool)).succeed _ 0

/-- A whole `XBUF` of bits fits a capacity register (R35, R143). -/
theorem execBsLoad_inv (a : StreamIdx) : EndsInv (execBsLoad a s) := by
  refine guard h fun _ => guard h fun hn => guard h fun hroom => next ?_
  have hbits : 8 * s.argNat 0 < 2 ^ 32 := by
    have hxbuf : 8 * s.cfg.xbufBytes ≤ 0xFFFFFFF8 := h.inv.xbufBits
    omega
  have hpool := poolHas_mono (loaded_capBytes_le s.xbuf _) (poolHas_of_canAlloc hroom)
  exact (h.setStream (loaded_inv h.inv.xbufWf hbits) (poolOk_setStream_of_has a hpool)).succeed 0 0

/-- Copying a stream without a store allocates nothing (R144). -/
theorem execBsCopy_inv (a b : StreamIdx) : EndsInv (execBsCopy a b s) := by
  refine guard h fun _ => guard h fun hroom => next ?_
  have hpool : (s.setStream a (s.stream b)).poolOk = true := by
    by_cases hcap : (s.stream b).capbits = 0
    · have hzero : (s.stream b).capBytes = 0 := by rw [StreamSlot.capBytes, hcap]; rfl
      exact poolOk_setStream_of_le h.inv.pool (hzero.trans_le (Nat.zero_le _))
    · exact poolOk_setStream_of_has a (poolHas_of_canAlloc fun hfull => hroom ⟨hcap, hfull⟩)
  exact (h.setStream (h.inv.streams b) hpool).succeed 0 0

/-- The single-item reads advance the cursor within the written bits (R154, R155). -/
theorem advanced_inv (a : StreamIdx) {n : Nat} (hn : ¬(s.stream a).remaining < n) (r0 : Word) :
    ((s.setStream a ((s.stream a).advance n)).succeed r0).Inv :=
  (h.setStream_sameCap (advance_inv (h.inv.streams a) (Nat.le_of_not_lt hn)) rfl).succeed r0 0

theorem execBsRbits_inv (a : StreamIdx) : EndsInv (execBsRbits a s) :=
  guard h fun hx => next (h.endRead (Nat.min_le_right _ _) (Nat.le_of_not_lt hx) _)

theorem execBsRbytes_inv (a : StreamIdx) : EndsInv (execBsRbytes a s) := by
  refine guard h fun _ => guard h fun hx => next (h.endRead ?_ ?_ _) <;> omega

/-- The read cursor goes no further than the write cursor (R158). -/
theorem execBsSeek_inv (a : StreamIdx) : EndsInv (execBsSeek a s) :=
  next ((h.setStream_sameCap (seek_inv (h.inv.streams a) (Nat.min_le_right _ _)) rfl).succeed 0 0)

theorem execQpack_inv (a : StreamIdx) (b : PixelIdx) : EndsInv (execQpack a b s) := by
  obtain ⟨hi, hcap, -, -, -, hstop⟩ := quantPack_spec (s.pixel b) (s.argNat 1) (s.stream a) (h.inv.streams a)
  exact guard h fun _ => guard h fun _ => next (h.endPack hi hcap fun e he => (hstop e he).1)

theorem execHash_inv (a : StreamIdx) (b : PixelIdx) : EndsInv (execHash a b s) := by
  obtain ⟨hi, hcap, -, -, -, hstop⟩ :=
    hashImage_spec s 0 (s.pixel b) (s.argNat 0) (s.argNat 1) (s.stream a) (h.inv.streams a)
  exact next (h.endPack hi hcap fun e he => (hstop e he).1)

theorem execHash64_inv (b : PixelIdx) : EndsInv (execHash64 b s) := by
  unfold execHash64
  cases hr : s.hash64 (s.pixel b) with
  | ok v => exact next (h.succeed _ _)
  | error e => exact next (h.stop (hash64_stopOk hr))

theorem execCmp_inv (b c : PixelIdx) : EndsInv (execCmp b c s) := by
  unfold execCmp
  cases hr : s.compareImages (s.pixel b) (s.pixel c) with
  | ok m => exact next (h.succeed _ _)
  | error e => exact next (h.stop (compareImages_stopOk hr))

theorem execCmp64_inv (b c : PixelIdx) : EndsInv (execCmp64 b c s) := by
  unfold execCmp64
  cases hr : s.compareImages64 (s.pixel b) (s.pixel c) with
  | ok d => exact next (h.succeed _ _)
  | error e => exact next (h.stop (compareImages64_stopOk hr))

/-- Every command keeps the invariant: its tests in their order, then the end that its rule gives it. -/
theorem exec_inv (i : Instr) : EndsInv (exec i s) := by
  cases i with
  | nop => exact next (h.succeed 0 0)
  | pbCreate a => exact next (h.endCreate a (createBuffer_ok s a _ _ _ (argNat_le s 1) (argNat_le s 2)))
  | pbDestroy a => exact next ((h.clearPixel a).succeed 0 0)
  | pbClone a b => exact next (h.endCreate a (cloneBuffer_ok s a b (h.inv.pixels b)))
  | pbRedim a =>
    exact next (h.endCreate a (redimBuffer_ok s a _ _ (h.inv.pixels a) (argNat_le s 1) (argNat_le s 2)))
  | pbPitch a => exact guard h fun _ => next (h.succeed _ _)
  | pbBlkoff a => exact guard h fun _ => guard h fun _ => next (h.succeed _ 0)
  | bsResize a => exact execBsResize_inv h a
  | bsDestroy a => exact next ((h.clearStream a).succeed 0 0)
  | bsLoad a => exact execBsLoad_inv h a
  | bsCopy a b => exact execBsCopy_inv h a b
  | bsWbit a => exact next (h.endAppend a _ 1)
  | bsWbyte a => exact next (h.endAppend a _ 8)
  | bsWbits a => exact guard h fun _ => next (h.endAppend a _ _)
  | bsWbytes a => exact guard h fun _ => next (h.endAppend a _ _)
  | bsRbit a => exact guard h fun hn => next (advanced_inv h a hn _)
  | bsRbyte a => exact guard h fun hn => next (advanced_inv h a hn _)
  | bsRbits a => exact execBsRbits_inv h a
  | bsRbytes a => exact execBsRbytes_inv h a
  | bsSeek a => exact execBsSeek_inv h a
  | bsEq a b => exact next (h.succeed _ 0)
  | desat a b => exact guard h fun _ => next (h.endCreate a (desaturate_ok s 0 _))
  | resize a b =>
    exact guard h fun _ =>
      next (h.endCreate a (resample_ok s 0 _ _ _ (h.inv.pixels b) (argNat_le s 1) (argNat_le s 2)))
  | dct2d a b => exact guard h fun _ => next (h.endCreate a (transform_ok s 0 _))
  | qpack a b => exact execQpack_inv h a b
  | hash a b => exact execHash_inv h a b
  | hash64 b => exact execHash64_inv h b
  | cmp b c => exact execCmp_inv h b c
  | cmp64 b c => exact execCmp64_inv h b c

end commands

/-! ## Every move of the host keeps the invariant -/

/-- An accepted word leaves results and sub-code 0, whatever the last `CODE` was (R93). -/
theorem accept_running {s : State} (h : s.Inv) (hf : s.fault = none) (w : Word) : Running (s.accept w) :=
  ⟨{ h with status := (statusOk_iff _).mpr ⟨Status.noConfusion, .inr rfl, .inr rfl, .inl hf⟩ }, hf⟩

theorem writeCmd_inv {s : State} (h : s.Inv) (w : Word) : EndsInv (s.writeCmd w) := by
  unfold State.writeCmd
  refine ite (fun _ => next h) fun hf => ?_
  have accepted := accept_running h (Option.not_isSome_iff_eq_none.mp hf) w
  cases decode w with
  | ok i => exact exec_inv accepted i
  | error e => exact next (accepted.fail Status.noConfusion)

theorem writeCtrl_inv {s : State} (h : s.Inv) (v : Word) : (s.writeCtrl v).Inv := by
  unfold State.writeCtrl
  split
  · exact resetEngine_inv h.xbufSize h.xbufBits
  · exact h

/-- The writes by the register they name; the argument and window registers are outside the invariant. -/
theorem hostWrite_inv {s : State} (h : s.Inv) (off : Nat) (v : Word) : EndsInv (s.hostWrite off v) := by
  unfold State.hostWrite
  split
  case h_1 => exact next (writeCtrl_inv h v)
  case h_2 => exact writeCmd_inv h v
  case h_9 => exact next (writeWindow_inv h v)
  all_goals exact next { h with }

theorem hostRead_inv {s : State} (h : s.Inv) (off : Nat) : (s.hostRead off).2.Inv := by
  unfold State.hostRead
  split
  · exact readWindow_inv h
  · exact h

theorem setRdata_inv {s : State} (h : s.Inv) (w : Word) : ({ s with rdata := w } : State).Inv := { h with }

theorem atRegister_endsInv {k : Host.Outcome State Fault Refusal} (h : EndsInv k) (off : Nat) :
    EndsInv (atRegister off k) := by
  unfold atRegister
  exact ite (fun _ _ hn => nomatch hn) fun _ => ite (fun _ _ hn => nomatch hn) fun _ => h

theorem hostMove_inv {s : State} (h : s.Inv) (m : HostMove) : EndsInv (hostMove s m) := by
  cases m with
  | read off => exact atRegister_endsInv (next (setRdata_inv (hostRead_inv h off) _)) off
  | write off v => exact atRegister_endsInv (hostWrite_inv h off v) off
  | reset => exact next (resetEngine_inv h.xbufSize h.xbufBits)

/-- Settles O8: a step is the next move of the host, and each move keeps the invariant. -/
theorem stepKeepsInvariant : Obligations.StepKeepsInvariant := by
  unfold Obligations.StepKeepsInvariant
  intro s t h hstep
  cases hp : s.pending with
  | nil => exact next h t ((step_of_idle hp).symm.trans hstep)
  | cons m rest =>
    have hrest : ({ s with pending := rest } : State).Inv := { h with }
    exact hostMove_inv hrest m t ((step_of_pending hp).symm.trans hstep)

end Sys2Proof.Proofs

/-! The family of the stores and the data window (spec/20_memory.md): what a read and a write of `WIN_DATA` do, how the
offset of a pixel grows, and the paths of `CopyBits`. -/

namespace Sys2Proof.Proofs

open Sys2Proof.Machine Sys2Proof.Laws

-- One theorem after another, as in the tests: in one text with them, waiting threads would each hold a stack.
set_option Elab.async false

/-! ## What the window selects

`window_cases` lists the stores; here each is named by its `KIND` and `SLOT` (R74). -/

section selection
variable {s : State}

theorem window_of_pixel {k : PixelIdx} (hkind : s.winKind = 0) (hslot : s.winSlot.toNat = k.val) :
    s.window = ((s.pixel k).data, (s.pixel k).cap.toNat) := by
  simp [State.window, hkind, hslot]

theorem window_of_stream {k : StreamIdx} (hkind : s.winKind = 1) (hslot : s.winSlot.toNat = k.val) :
    s.window = ((s.stream k).data, (s.stream k).capBytes) := by
  simp [State.window, hkind, hslot]

theorem window_of_xbuf (hkind : s.winKind = 2) (hslot : s.winSlot = 0) : s.window = (s.xbuf, s.cfg.xbufBytes) := by
  simp [State.window, hkind, hslot]

theorem setWindow_of_pixel {k : PixelIdx} (hkind : s.winKind = 0) (hslot : s.winSlot.toNat = k.val) (m : Memory) :
    s.setWindow m = s.setPixel k { s.pixel k with data := m } := by
  simp [State.setWindow, hkind, hslot]

theorem setWindow_of_stream {k : StreamIdx} (hkind : s.winKind = 1) (hslot : s.winSlot.toNat = k.val) (m : Memory) :
    s.setWindow m = s.setStream k { s.stream k with data := m } := by
  simp [State.setWindow, hkind, hslot]

theorem setWindow_of_xbuf (hkind : s.winKind = 2) (hslot : s.winSlot = 0) (m : Memory) :
    s.setWindow m = s.setXbuf m := by
  simp [State.setWindow, hkind, hslot]

/-- Any other `KIND`, or a `SLOT` its kind does not have, selects no store. -/
theorem window_size_of_none (hpixel : ¬∃ k : PixelIdx, s.winKind = 0 ∧ s.winSlot.toNat = k.val)
    (hstream : ¬∃ k : StreamIdx, s.winKind = 1 ∧ s.winSlot.toNat = k.val)
    (hxbuf : ¬(s.winKind = 2 ∧ s.winSlot = 0)) : s.window.2 = 0 := by
  have hkind {n : Nat} (h : s.winKind.toNat = n) : s.winKind = BitVec.ofNat 2 n := by
    rw [← h, BitVec.ofNat_toNat, BitVec.setWidth_eq]
  unfold State.window
  split
  case h_1 h =>
    have hno : ¬s.winSlot.toNat < 8 := fun hlt => hpixel ⟨⟨_, hlt⟩, hkind h, rfl⟩
    rw [dif_neg hno]
  case h_2 h =>
    have hno : ¬s.winSlot.toNat < 4 := fun hlt => hstream ⟨⟨_, hlt⟩, hkind h, rfl⟩
    rw [dif_neg hno]
  case h_3 h =>
    have hno : ¬s.winSlot.toNat = 0 := fun h0 => hxbuf ⟨hkind h, BitVec.eq_of_toNat_eq h0⟩
    rw [if_neg hno]
  case h_4 => rfl

/-- "The selection is in range" (R74), in the words of the statements. -/
theorem not_inRange
    (hpixel : ¬∃ k : PixelIdx, s.winKind = 0 ∧ s.winSlot.toNat = k.val ∧ s.winOff.toNat < (s.pixel k).cap.toNat)
    (hstream : ¬∃ k : StreamIdx, s.winKind = 1 ∧ s.winSlot.toNat = k.val ∧
      s.winOff.toNat < (s.stream k).capbits.toNat / 8)
    (hxbuf : ¬(s.winKind = 2 ∧ s.winSlot = 0 ∧ s.winOff.toNat < s.cfg.xbufBytes)) :
    ¬s.winOff.toNat < s.window.2 := by
  intro hlt
  refine absurd (window_size_of_none (s := s) ?_ ?_ ?_) (Nat.ne_zero_of_lt hlt)
  · rintro ⟨k, hk, hs⟩
    exact hpixel ⟨k, hk, hs, by rwa [window_of_pixel hk hs] at hlt⟩
  · rintro ⟨k, hk, hs⟩
    exact hstream ⟨k, hk, hs, by rwa [window_of_stream hk hs] at hlt⟩
  · rintro ⟨hk, hs⟩
    exact hxbuf ⟨hk, hs, by rwa [window_of_xbuf hk hs] at hlt⟩

end selection

/-! ## The moves at the window, in range and not -/

section moves
variable {s : State} {rest : List HostMove} {v : Word}

theorem windowInRange_iff (s : State) : s.windowInRange = true ↔ s.winOff.toNat < s.window.2 := decide_eq_true_iff

theorem readWindow_inRange (hf : s.fault = none) (h : s.winOff.toNat < s.window.2) :
    s.readWindow = ((s.window.1.read s.winOff.toNat).setWidth 32, s.bumpWindow) := by
  rw [State.readWindow, hf, if_neg (by simp), if_pos ((windowInRange_iff s).mpr h)]

theorem readWindow_outOfRange (hf : s.fault = none) (h : ¬s.winOff.toNat < s.window.2) :
    s.readWindow = (0, s.takeWindowFault) := by
  rw [State.readWindow, hf, if_neg (by simp), if_neg ((windowInRange_iff s).not.mpr h)]

theorem writeWindow_inRange (hf : s.fault = none) (h : s.winOff.toNat < s.window.2) (v : Word) :
    s.writeWindow v = (s.setWindow (s.window.1.write s.winOff.toNat (v.extractLsb' 0 8))).bumpWindow := by
  rw [State.writeWindow, hf, if_neg (by simp), if_pos ((windowInRange_iff s).mpr h)]

theorem writeWindow_outOfRange (hf : s.fault = none) (h : ¬s.winOff.toNat < s.window.2) (v : Word) :
    s.writeWindow v = s.takeWindowFault := by
  rw [State.writeWindow, hf, if_neg (by simp), if_neg ((windowInRange_iff s).not.mpr h)]

/-- The move that reads `WIN_DATA`; the window does not depend on the moves still to come. -/
theorem step_readWindow (hp : s.pending = .read 0x038 :: rest) :
    step s = .next { ({ s with pending := rest } : State).readWindow.2 with
      rdata := ({ s with pending := rest } : State).readWindow.1 } :=
  step_read hp rfl (by decide)

theorem step_writeWindow (hp : s.pending = .write 0x038 v :: rest) :
    step s = .next (({ s with pending := rest } : State).writeWindow v) :=
  step_write hp rfl (by decide)

/-- A read in range (R75). -/
theorem step_read_inRange (hp : s.pending = .read 0x038 :: rest) (hf : s.fault = none) {m : Memory} {n : Nat}
    (hw : s.window = (m, n)) (h : s.winOff.toNat < n) :
    step s = .next { s with
      pending := rest, winOff := s.winOff + 1, rdata := (m.read s.winOff.toNat).setWidth 32 } := by
  have hlt : s.winOff.toNat < s.window.2 := by rwa [hw]
  rw [step_readWindow hp, readWindow_inRange (s := { s with pending := rest }) hf hlt,
    show State.window { s with pending := rest } = (m, n) from hw]
  rfl

/-- A write in range (R76). -/
theorem step_write_inRange (hp : s.pending = .write 0x038 v :: rest) (hf : s.fault = none) {m : Memory} {n : Nat}
    (hw : s.window = (m, n)) (h : s.winOff.toNat < n) :
    step s = .next ((({ s with pending := rest } : State).setWindow
      (m.write s.winOff.toNat (v.extractLsb' 0 8))).bumpWindow) := by
  have hlt : s.winOff.toNat < s.window.2 := by rwa [hw]
  rw [step_writeWindow hp, writeWindow_inRange (s := { s with pending := rest }) hf hlt,
    show State.window { s with pending := rest } = (m, n) from hw]

end moves

/-- Settles O19: the selected store by its kind, and the read in range or not. -/
theorem windowReadReturnsByte : Obligations.WindowReadReturnsByte := by
  unfold Obligations.WindowReadReturnsByte
  intro s rest hp hf
  refine ⟨fun k hkind hslot => ?_, fun k hkind hslot => ?_, fun hkind hslot => ?_, fun hpixel hstream hxbuf => ?_⟩
  · exact step_read_inRange hp hf (window_of_pixel hkind hslot)
  · exact step_read_inRange hp hf (window_of_stream hkind hslot)
  · exact step_read_inRange hp hf (window_of_xbuf hkind hslot)
  · have hout := not_inRange hpixel hstream hxbuf
    rw [step_readWindow hp, readWindow_outOfRange (s := { s with pending := rest }) hf hout]
    rfl

/-- Every store of a legal slot is canonical; the empty slot's store is `[]`. -/
theorem pixel_data_wf {p : PixelSlot} (h : p.inv = true) : p.data.wf = true := by
  rcases (pixel_inv_iff p).mp h with rfl | ⟨-, -, -, -, hwf, -⟩
  · exact empty_wf
  · exact hwf

theorem stream_data_wf {t : StreamSlot} (h : t.inv = true) : t.data.wf = true := by
  obtain ⟨-, -, -, hwf, -⟩ := (stream_inv_iff t).mp h
  exact hwf

/-- Settles O20: the byte written to the selected store by `read_write`, the invariant giving its canonical form. -/
theorem windowWriteStoresByte : Obligations.WindowWriteStoresByte := by
  unfold Obligations.WindowWriteStoresByte
  intro s v rest hp hf hinv
  refine ⟨fun k hkind hslot hlt => ⟨_, ?_, fun a => read_write (pixel_data_wf (hinv.pixels k)) _ a _⟩,
    fun k hkind hslot hlt => ⟨_, ?_, fun a => read_write (stream_data_wf (hinv.streams k)) _ a _⟩,
    fun hkind hslot hlt => ⟨_, ?_, fun a => read_write hinv.xbufWf _ a _⟩, fun hpixel hstream hxbuf => ?_⟩
  · rw [step_write_inRange hp hf (window_of_pixel hkind hslot) hlt,
      setWindow_of_pixel (s := { s with pending := rest }) hkind hslot]
    rfl
  · rw [step_write_inRange hp hf (window_of_stream hkind hslot) hlt,
      setWindow_of_stream (s := { s with pending := rest }) hkind hslot]
    rfl
  · rw [step_write_inRange hp hf (window_of_xbuf hkind hslot) hlt,
      setWindow_of_xbuf (s := { s with pending := rest }) hkind hslot]
    rfl
  · have hout := not_inRange hpixel hstream hxbuf
    rw [step_writeWindow hp, writeWindow_outOfRange (s := { s with pending := rest }) hf hout]
    rfl

/-! ## The offset of a pixel -/

/-- A valid slot's pixel is a whole number of bytes, at least one (R31, R32). -/
theorem valid_pixel_bytes {p : PixelSlot} (hv : p.valid = true) (hi : p.inv = true) :
    ∃ q, 0 < q ∧ formatBpp p.format = 8 * q := by
  rcases (pixel_inv_iff p).mp hi with rfl | ⟨-, -, h8, -⟩
  · exact absurd hv (by decide)
  · have hbpp : formatBpp p.format ≠ 0 := by
      simp only [PixelSlot.valid, Bool.and_eq_true, bne_iff_ne] at hv
      tauto
    exact ⟨formatBpp p.format / 8, by omega, by omega⟩

/-- With `q` bytes a pixel, both divisions of R62 are exact. -/
theorem blockOffset_of_pixel_bytes {p : PixelSlot} {q : Nat} (hq : formatBpp p.format = 8 * q) (i j : Nat) :
    p.blockOffset i j = p.width.toNat * q * j + i * q := by
  have hdiv (n : Nat) : n * (8 * q) / 8 = n * q := by
    rw [Nat.mul_left_comm, Nat.mul_div_cancel_left _ (by decide)]
  rw [PixelSlot.blockOffset, PixelSlot.rowPitch, hq, hdiv, hdiv]

/-- Settles O27: the offset is linear in the row and in the column, and both factors are positive. -/
theorem blockOffsetIncreases : Obligations.BlockOffsetIncreases := by
  unfold Obligations.BlockOffsetIncreases
  intro p hv hi
  obtain ⟨q, hpos, hq⟩ := valid_pixel_bytes hv hi
  have hpitch : 0 < p.width.toNat * q := Nat.mul_pos (Nat.pos_of_ne_zero (valid_dims hv).1) hpos
  simp only [blockOffset_of_pixel_bytes hq]
  exact ⟨fun i j j' h => Nat.add_lt_add_right (Nat.mul_lt_mul_of_pos_left h hpitch) _,
    fun i i' j h => Nat.add_lt_add_left (Nat.mul_lt_mul_of_pos_right h hpos) _⟩

/-! ## Updates of a run of bytes

Both paths of a bit copy (R71, R72) replace the bytes of a run one after another, each from its old value. -/

/-- Bytes `a .. a + n - 1` replaced in turn, byte `a + t` by `f t` of what it held. -/
def updateBytes (m : Memory) (a : Nat) (f : Nat → Byte → Byte) (n : Nat) : Memory :=
  (List.range n).foldl (fun d t => d.write (a + t) (f t (d.read (a + t)))) m

theorem updateBytes_succ (m : Memory) (a : Nat) (f : Nat → Byte → Byte) (n : Nat) : updateBytes m a f (n + 1) =
    (updateBytes m a f n).write (a + n) (f n ((updateBytes m a f n).read (a + n))) := by
  rw [updateBytes, List.range_succ, List.foldl_append]
  rfl

theorem updateBytes_wf {m : Memory} (h : m.wf = true) (a : Nat) (f : Nat → Byte → Byte) :
    ∀ n, (updateBytes m a f n).wf = true
  | 0 => h
  | n + 1 => by
    rw [updateBytes_succ]
    exact write_wf _ _ (updateBytes_wf h a f n)

/-- No byte of the run is written before its turn, so each new byte is made of the old store's. -/
theorem read_updateBytes {m : Memory} (h : m.wf = true) (a : Nat) (f : Nat → Byte → Byte) (b : Nat) :
    ∀ n, (updateBytes m a f n).read b = if a ≤ b ∧ b < a + n then f (b - a) (m.read b) else m.read b
  | 0 => by
    rw [if_neg (by omega)]
    rfl
  | n + 1 => by
    have hnext : ¬(a ≤ a + n ∧ a + n < a + n) := by omega
    rw [updateBytes_succ, read_write (updateBytes_wf h a f n), read_updateBytes h a f (a + n) n, if_neg hnext]
    by_cases hb : b = a + n
    · subst hb
      rw [if_pos rfl, if_pos (by omega), Nat.add_sub_cancel_left]
    · rw [if_neg hb, read_updateBytes h a f b n]
      congr 1
      exact propext (by omega)

/-! ## Copied bits -/

section copied
variable {d d' d₁ : Memory} {pos n : Nat} {src : Nat → Bool}

/-- R70 determines a canonical store. -/
theorem eq_of_bitsCopied (h : d'.wf = true) (h₁ : d₁.wf = true) (hb : BitsCopied d d' pos n src)
    (hb₁ : BitsCopied d d₁ pos n src) : d' = d₁ :=
  eq_of_getBit h h₁ fun c => (hb c).trans (hb₁ c).symm

/-- Two copies one behind the other are one copy. -/
theorem bitsCopied_append {n' : Nat} (hb : BitsCopied d d₁ pos n src)
    (hb' : BitsCopied d₁ d' (pos + n) n' (fun k => src (n + k))) : BitsCopied d d' pos (n + n') src := by
  intro c
  rw [hb' c, hb c]
  by_cases hlow : pos ≤ c ∧ c < pos + n
  · rw [if_neg (by omega), if_pos hlow, if_pos (by omega)]
  · by_cases hhigh : pos + n ≤ c ∧ c < pos + n + n'
    · rw [if_pos hhigh, if_pos (by omega)]
      exact congrArg src (by omega)
    · rw [if_neg hhigh, if_neg hlow, if_neg (by omega)]

end copied

theorem copyBits_wf {dst : Memory} (h : dst.wf = true) (dstBit : Nat) (src : Memory) (srcBit n : Nat) :
    (copyBits dst dstBit src srcBit n).wf = true := putBits_wf _ _ h n

theorem copyBits_bitsCopied {dst : Memory} (h : dst.wf = true) (dstBit : Nat) (src : Memory) (srcBit n : Nat) :
    BitsCopied dst (copyBits dst dstBit src srcBit n) dstBit n (fun k => src.getBit (srcBit + k)) :=
  fun c => getBit_putBits h _ _ c n

/-! ## The masked path -/

/-- One masked merge of R72: the bits of byte `B` under the mask from the source, the others as they were. -/
def mergeByte (dstBit : Nat) (src : Memory) (srcBit n B : Nat) (old : Byte) : Byte :=
  (old &&& ~~~mergeMask dstBit n B) |||
    (byteOfBits (fun p => src.getBit (srcBit + (8 * B + p) - dstBit)) &&& mergeMask dstBit n B)

theorem mergeByte_getLsbD (dstBit : Nat) (src : Memory) (srcBit n B : Nat) (old : Byte) {p : Nat} (hp : p < 8) :
    (mergeByte dstBit src srcBit n B old).getLsbD p =
      if dstBit ≤ 8 * B + p ∧ 8 * B + p < dstBit + n then src.getBit (srcBit + (8 * B + p - dstBit))
      else old.getLsbD p := by
  rw [mergeByte, BitVec.getLsbD_or, BitVec.getLsbD_and, BitVec.getLsbD_and, BitVec.getLsbD_not, mergeMask,
    byteOfBits_getLsbD _ p hp, byteOfBits_getLsbD _ p hp]
  by_cases hin : dstBit ≤ 8 * B + p ∧ 8 * B + p < dstBit + n
  · simp [hin, Nat.add_sub_assoc hin.1]
  · rw [if_neg hin, ← Bool.decide_and, decide_eq_false hin]
    simp [hp]

theorem unalignedCopy_eq_updateBytes (dst : Memory) (dstBit : Nat) (src : Memory) (srcBit n : Nat) :
    unalignedCopy dst dstBit src srcBit n =
      updateBytes dst (dstBit / 8) (fun t => mergeByte dstBit src srcBit n (dstBit / 8 + t))
        ((dstBit + n + 7) / 8 - dstBit / 8) := rfl

theorem unalignedCopy_wf {dst : Memory} (h : dst.wf = true) (dstBit : Nat) (src : Memory) (srcBit n : Nat) :
    (unalignedCopy dst dstBit src srcBit n).wf = true := by
  rw [unalignedCopy_eq_updateBytes]
  exact updateBytes_wf h _ _ _

/-- The masked path copies the range (R72): every byte with a bit in the range is merged, under a mask that is the
range's. -/
theorem unalignedCopy_bitsCopied {dst : Memory} (h : dst.wf = true) (dstBit : Nat) (src : Memory) (srcBit n : Nat) :
    BitsCopied dst (unalignedCopy dst dstBit src srcBit n) dstBit n (fun k => src.getBit (srcBit + k)) := by
  intro c
  rw [Memory.getBit, unalignedCopy_eq_updateBytes, read_updateBytes h]
  by_cases hrun : dstBit / 8 ≤ c / 8 ∧ c / 8 < dstBit / 8 + ((dstBit + n + 7) / 8 - dstBit / 8)
  · rw [if_pos hrun, mergeByte_getLsbD _ _ _ _ _ _ (Nat.mod_lt c (by decide)), Nat.add_sub_cancel' hrun.1,
      Nat.div_add_mod]
    rfl
  · rw [if_neg hrun, if_neg (by omega)]
    rfl

/-! ## The aligned path -/

/-- The whole bytes of R71. -/
def copyBytes (dst : Memory) (a : Nat) (src : Memory) (b n : Nat) : Memory :=
  updateBytes dst a (fun i _ => src.read (b + i)) n

theorem alignedCopy_eq (dst : Memory) (dstBit : Nat) (src : Memory) (srcBit n : Nat) :
    alignedCopy dst dstBit src srcBit n =
      unalignedCopy (copyBytes dst (dstBit / 8) src (srcBit / 8) (n / 8)) (dstBit + 8 * (n / 8)) src
        (srcBit + 8 * (n / 8)) (n % 8) := rfl

theorem copyBytes_wf {dst : Memory} (h : dst.wf = true) (a : Nat) (src : Memory) (b n : Nat) :
    (copyBytes dst a src b n).wf = true := updateBytes_wf h _ _ _

theorem copyBytes_bitsCopied {dst : Memory} (h : dst.wf = true) (a : Nat) (src : Memory) (b n : Nat) :
    BitsCopied dst (copyBytes dst a src b n) (8 * a) (8 * n) (fun k => src.getBit (8 * b + k)) := by
  intro c
  rw [Memory.getBit, copyBytes, read_updateBytes h]
  by_cases hrun : a ≤ c / 8 ∧ c / 8 < a + n
  · have hbyte : (8 * b + (c - 8 * a)) / 8 = b + (c / 8 - a) := by omega
    have hbit : (8 * b + (c - 8 * a)) % 8 = c % 8 := by omega
    rw [if_pos hrun, if_pos (by omega)]
    simp only [Memory.getBit, hbyte, hbit]
  · rw [if_neg hrun, if_neg (by omega)]
    rfl

theorem alignedCopy_wf {dst : Memory} (h : dst.wf = true) (dstBit : Nat) (src : Memory) (srcBit n : Nat) :
    (alignedCopy dst dstBit src srcBit n).wf = true := by
  rw [alignedCopy_eq]
  exact unalignedCopy_wf (copyBytes_wf h _ _ _ _) _ _ _ _

/-- At byte-aligned offsets the whole bytes and the remainder behind them are the range (R71). -/
theorem alignedCopy_bitsCopied {dst : Memory} (h : dst.wf = true) {dstBit : Nat} (src : Memory) {srcBit : Nat} (n : Nat)
    (hd : dstBit % 8 = 0) (hs : srcBit % 8 = 0) :
    BitsCopied dst (alignedCopy dst dstBit src srcBit n) dstBit n (fun k => src.getBit (srcBit + k)) := by
  have hwhole := copyBytes_bitsCopied h (dstBit / 8) src (srcBit / 8) (n / 8)
  have hrest := unalignedCopy_bitsCopied (copyBytes_wf h (dstBit / 8) src (srcBit / 8) (n / 8))
    (dstBit + 8 * (n / 8)) src (srcBit + 8 * (n / 8)) (n % 8)
  rw [Nat.mul_div_cancel' (Nat.dvd_of_mod_eq_zero hd), Nat.mul_div_cancel' (Nat.dvd_of_mod_eq_zero hs)] at hwhole
  simp only [Nat.add_assoc srcBit] at hrest
  simpa only [alignedCopy_eq, Nat.div_add_mod] using bitsCopied_append hwhole hrest

/-- Settles O38: each path has the result that defines the copy, and that result is one store. -/
theorem copyPathsAgree : Obligations.CopyPathsAgree := by
  unfold Obligations.CopyPathsAgree
  intro dst src dstBit srcBit n h
  have hcopy := copyBits_bitsCopied h dstBit src srcBit n
  have hwf := copyBits_wf h dstBit src srcBit n
  exact ⟨hcopy, eq_of_bitsCopied (unalignedCopy_wf h _ _ _ _) hwf (unalignedCopy_bitsCopied h _ _ _ _) hcopy,
    fun hd hs => eq_of_bitsCopied (alignedCopy_wf h _ _ _ _) hwf (alignedCopy_bitsCopied h src n hd hs) hcopy⟩

end Sys2Proof.Proofs

/-! The family of the command word (spec/30_encoding.md): its fields, the decoder's tests in their order, decoding and
encoding as inverses, and the host's write to `CMD`. -/

namespace Sys2Proof.Proofs

open Sys2Proof.Machine Sys2Proof.Laws

-- One theorem after another, as in the tests: in one text with them, waiting threads would each hold a stack.
set_option Elab.async false

/-! ## The fields of a word (R91) -/

theorem ofWord_toWord (c : CommandWord) : CommandWord.ofWord c.toWord = c := by
  obtain ⟨opc, a, b, c, rsv⟩ := c
  simp only [CommandWord.ofWord, CommandWord.toWord, CommandWord.mk.injEq]
  refine ⟨?_, ?_, ?_, ?_, ?_⟩ <;> ext i hi <;> simp <;> grind

theorem toWord_ofWord (w : Word) : (CommandWord.ofWord w).toWord = w := by
  ext i hi
  simp [CommandWord.ofWord, CommandWord.toWord]
  grind

/-- A slot number fits its four bits. -/
theorem pixelField_toNat (k : PixelIdx) : (pixelField k).toNat = k.val := by
  rw [pixelField, BitVec.toNat_ofNat, Nat.mod_eq_of_lt (by omega)]

theorem streamField_toNat (k : StreamIdx) : (streamField k).toNat = k.val := by
  rw [streamField, BitVec.toNat_ofNat, Nat.mod_eq_of_lt (by omega)]

/-! ## The decoder's test of one field -/

/-- The verdict `r` tests a field first: it is `e` when the field is not allowed, else it satisfies `P`. -/
def Tested (allowed : Bool) (e : DecodeError) (P : Except DecodeError Instr → Prop) (r : Except DecodeError Instr) : Prop :=
  (allowed = false → r = .error e) ∧ (allowed = true → P r)

section field
variable {f : BitVec 4} {e : DecodeError} {P : Except DecodeError Instr → Prop}

theorem needUnused_tested {k : Except DecodeError Instr} (h : f = 0 → P k) :
    Tested (FieldKind.unused.allows f) e P (needUnused f e k) := by
  unfold needUnused
  by_cases hf : f = 0#4
  · simpa [Tested, FieldKind.allows, hf] using h hf
  · simp [Tested, FieldKind.allows, hf]

theorem needPixel_tested {k : PixelIdx → Except DecodeError Instr} (h : ∀ a, f = pixelField a → P (k a)) :
    Tested (FieldKind.pixel.allows f) e P (needPixel f e k) := by
  unfold needPixel
  by_cases hf : f.toNat < 8
  · have hk := h ⟨f.toNat, hf⟩ (BitVec.eq_of_toNat_eq (pixelField_toNat ⟨f.toNat, hf⟩).symm)
    simpa [Tested, FieldKind.allows, hf] using hk
  · simp [Tested, FieldKind.allows, hf]

theorem needStream_tested {k : StreamIdx → Except DecodeError Instr} (h : ∀ a, f = streamField a → P (k a)) :
    Tested (FieldKind.stream.allows f) e P (needStream f e k) := by
  unfold needStream
  by_cases hf : f.toNat < 4
  · have hk := h ⟨f.toNat, hf⟩ (BitVec.eq_of_toNat_eq (streamField_toNat ⟨f.toNat, hf⟩).symm)
    simpa [Tested, FieldKind.allows, hf] using hk
  · simp [Tested, FieldKind.allows, hf]

@[simp] theorem needUnused_zero (k : Except DecodeError Instr) : needUnused (0#4) e k = k := if_pos rfl

@[simp] theorem needPixel_pixelField (a : PixelIdx) (k : PixelIdx → Except DecodeError Instr) :
    needPixel (pixelField a) e k = k a := by
  simp [needPixel, pixelField_toNat]

@[simp] theorem needStream_streamField (a : StreamIdx) (k : StreamIdx → Except DecodeError Instr) :
    needStream (streamField a) e k = k a := by
  simp [needStream, streamField_toNat]

end field

/-! ## The decoder's tests of the fields of a format (R92, R93) -/

/-- The verdict on a word that passes every test: the command whose word it is. -/
def Accepts (w : CommandWord) (r : Except DecodeError Instr) : Prop := ∃ i : Instr, i.command = w ∧ r = .ok i

/-- The verdict `r` tests the fields of `w` by the kinds of the format, `A` first, and accepts what passes. -/
def FieldsTested (f : Format) (w : CommandWord) (r : Except DecodeError Instr) : Prop :=
  Tested (f.a.allows w.a) .fieldA
    (Tested (f.b.allows w.b) .fieldB (Tested (f.c.allows w.c) .fieldC (Accepts w))) r

section format
variable {w : CommandWord}

theorem accepts_of_fields {i : Instr} {a b c : BitVec 4} (hr : w.rsv = 0) (ha : w.a = a) (hb : w.b = b) (hc : w.c = c)
    (hi : i.command = ⟨w.opc, a, b, c, 0⟩) : Accepts w (.ok i) :=
  ⟨i, by rw [hi, ← ha, ← hb, ← hc, ← hr], rfl⟩

theorem decodeN_tested (hr : w.rsv = 0) {i : Instr} (hi : i.command = ⟨w.opc, 0, 0, 0, 0⟩) :
    FieldsTested .N w (decodeN w i) :=
  needUnused_tested fun ha => needUnused_tested fun hb => needUnused_tested fun hc => accepts_of_fields hr ha hb hc hi

theorem decodeP_tested (hr : w.rsv = 0) {i : PixelIdx → Instr}
    (hi : ∀ a, (i a).command = ⟨w.opc, pixelField a, 0, 0, 0⟩) : FieldsTested .P w (decodeP w i) :=
  needPixel_tested fun a ha => needUnused_tested fun hb => needUnused_tested fun hc =>
    accepts_of_fields hr ha hb hc (hi a)

theorem decodePP_tested (hr : w.rsv = 0) {i : PixelIdx → PixelIdx → Instr}
    (hi : ∀ a b, (i a b).command = ⟨w.opc, pixelField a, pixelField b, 0, 0⟩) : FieldsTested .PP w (decodePP w i) :=
  needPixel_tested fun a ha => needPixel_tested fun b hb => needUnused_tested fun hc =>
    accepts_of_fields hr ha hb hc (hi a b)

theorem decodeS_tested (hr : w.rsv = 0) {i : StreamIdx → Instr}
    (hi : ∀ a, (i a).command = ⟨w.opc, streamField a, 0, 0, 0⟩) : FieldsTested .S w (decodeS w i) :=
  needStream_tested fun a ha => needUnused_tested fun hb => needUnused_tested fun hc =>
    accepts_of_fields hr ha hb hc (hi a)

theorem decodeSS_tested (hr : w.rsv = 0) {i : StreamIdx → StreamIdx → Instr}
    (hi : ∀ a b, (i a b).command = ⟨w.opc, streamField a, streamField b, 0, 0⟩) : FieldsTested .SS w (decodeSS w i) :=
  needStream_tested fun a ha => needStream_tested fun b hb => needUnused_tested fun hc =>
    accepts_of_fields hr ha hb hc (hi a b)

theorem decodeSP_tested (hr : w.rsv = 0) {i : StreamIdx → PixelIdx → Instr}
    (hi : ∀ a b, (i a b).command = ⟨w.opc, streamField a, pixelField b, 0, 0⟩) : FieldsTested .SP w (decodeSP w i) :=
  needStream_tested fun a ha => needPixel_tested fun b hb => needUnused_tested fun hc =>
    accepts_of_fields hr ha hb hc (hi a b)

theorem decodeXP_tested (hr : w.rsv = 0) {i : PixelIdx → Instr}
    (hi : ∀ b, (i b).command = ⟨w.opc, 0, pixelField b, 0, 0⟩) : FieldsTested .xP w (decodeXP w i) :=
  needUnused_tested fun ha => needPixel_tested fun b hb => needUnused_tested fun hc =>
    accepts_of_fields hr ha hb hc (hi b)

theorem decodeXPP_tested (hr : w.rsv = 0) {i : PixelIdx → PixelIdx → Instr}
    (hi : ∀ b c, (i b c).command = ⟨w.opc, 0, pixelField b, pixelField c, 0⟩) : FieldsTested .xPP w (decodeXPP w i) :=
  needUnused_tested fun ha => needPixel_tested fun b hb => needPixel_tested fun c hc =>
    accepts_of_fields hr ha hb hc (hi b c)

end format

/-! ## The verdict on every word (R93, R96, R98) -/

/-- The opcodes of no row of R96. -/
theorem formatOf_unassigned {opc : BitVec 8} (h : (0x07 ≤ opc.toNat ∧ opc.toNat ≤ 0x0F) ∨ opc.toNat = 0x1E ∨
    opc.toNat = 0x1F ∨ 0x28 ≤ opc.toNat) : formatOf opc = none := by
  unfold formatOf
  split
  case h_30 => rfl
  all_goals omega

/-- The verdict on a word without reserved bits, by the format of its opcode. -/
def OpcodeTested (w : CommandWord) (r : Except DecodeError Instr) : Option Format → Prop
  | none => r = .error .unknownOpcode
  | some f => FieldsTested f w r

theorem decodeFields_reserved {w : CommandWord} (h : w.rsv ≠ 0) : decodeFields w = .error .reservedBits := if_pos h

/-- The decoder's opcode map and the table of formats are one table: each row makes the tests of its format. -/
theorem decodeFields_tested {w : CommandWord} (h : w.rsv = 0) : OpcodeTested w (decodeFields w) (formatOf w.opc) := by
  obtain ⟨opc, a, b, c, rsv⟩ := w
  obtain rfl : rsv = 0 := h
  obtain ⟨n, hn, rfl⟩ : ∃ n < 256, opc = BitVec.ofNat 8 n := ⟨opc.toNat, opc.isLt, by simp⟩
  have hopc : (BitVec.ofNat 8 n).toNat = n := Nat.mod_eq_of_lt hn
  simp only [decodeFields, ne_eq, not_true_eq_false, if_false, hopc]
  split
  case h_1 => exact decodeN_tested rfl rfl
  case h_2 | h_3 | h_5 | h_6 | h_7 => exact decodeP_tested rfl fun _ => rfl
  case h_4 | h_22 | h_23 | h_24 => exact decodePP_tested rfl fun _ _ => rfl
  case h_8 | h_9 | h_10 | h_12 | h_13 | h_14 | h_15 | h_16 | h_17 | h_18 | h_19 | h_20 =>
    exact decodeS_tested rfl fun _ => rfl
  case h_11 | h_21 => exact decodeSS_tested rfl fun _ _ => rfl
  case h_25 | h_26 => exact decodeSP_tested rfl fun _ _ => rfl
  case h_27 => exact decodeXP_tested rfl fun _ => rfl
  case h_28 | h_29 => exact decodeXPP_tested rfl fun _ _ => rfl
  case h_30 =>
    simp only [imp_false] at * -- the passed rows as disequalities, which `omega` reads
    have hnone : formatOf (BitVec.ofNat 8 n) = none := formatOf_unassigned (by omega)
    rw [hnone]
    rfl

/-- The word of a command passes the tests of the command's row. -/
theorem decodeFields_command (i : Instr) : decodeFields i.command = .ok i := by
  cases i with
  | nop => rfl
  | pbCreate a | pbDestroy a | pbRedim a | pbPitch a | pbBlkoff a => simp [Instr.command, decodeFields, decodeP]
  | pbClone a b | desat a b | resize a b | dct2d a b => simp [Instr.command, decodeFields, decodePP]
  | bsResize a | bsDestroy a | bsLoad a | bsWbit a | bsWbyte a | bsWbits a | bsWbytes a | bsRbit a | bsRbyte a
  | bsRbits a | bsRbytes a | bsSeek a => simp [Instr.command, decodeFields, decodeS]
  | bsCopy a b | bsEq a b => simp [Instr.command, decodeFields, decodeSS]
  | qpack a b | hash a b => simp [Instr.command, decodeFields, decodeSP]
  | hash64 b => simp [Instr.command, decodeFields, decodeXP]
  | cmp b c | cmp64 b c => simp [Instr.command, decodeFields, decodeXPP]

theorem wellFormed_iff (w : CommandWord) : w.wellFormed = true ↔ w.rsv = 0 ∧ ∃ f, formatOf w.opc = some f ∧
    f.a.allows w.a = true ∧ f.b.allows w.b = true ∧ f.c.allows w.c = true := by
  unfold CommandWord.wellFormed
  cases formatOf w.opc <;> simp [and_assoc]

/-- Legal words pass the tests of their format. -/
theorem accepts_of_wellFormed {w : CommandWord} (h : w.wellFormed = true) : Accepts w (decodeFields w) := by
  obtain ⟨hr, f, hf, ha, hb, hc⟩ := (wellFormed_iff w).mp h
  have tested := decodeFields_tested hr
  rw [hf] at tested
  exact ((tested.2 ha).2 hb).2 hc

/-- A verdict that decodes has passed its first test. -/
theorem allowed_of_ok {allowed : Bool} {e : DecodeError} {P : Except DecodeError Instr → Prop}
    {r : Except DecodeError Instr} {i : Instr} (h : Tested allowed e P r) (hr : r = .ok i) : allowed = true ∧ P r := by
  cases allowed with
  | false => exact nomatch (h.1 rfl).symm.trans hr
  | true => exact ⟨rfl, h.2 rfl⟩

/-- A word that decodes has passed every test, so it is legal and the command's own word. -/
theorem wellFormed_of_ok {w : CommandWord} {i : Instr} (h : decodeFields w = .ok i) :
    w.wellFormed = true ∧ i.command = w := by
  have hr : w.rsv = 0 := by
    by_contra hne
    exact nomatch (decodeFields_reserved hne).symm.trans h
  have tested := decodeFields_tested hr
  cases hf : formatOf w.opc with
  | none =>
    rw [hf] at tested
    exact nomatch Eq.trans (Eq.symm tested) h
  | some f =>
    rw [hf] at tested
    obtain ⟨ha, tested⟩ := allowed_of_ok tested h
    obtain ⟨hb, tested⟩ := allowed_of_ok tested h
    obtain ⟨hc, j, hj, hok⟩ := allowed_of_ok tested h
    obtain rfl : j = i := Except.ok.inj (hok.symm.trans h)
    exact ⟨(wellFormed_iff w).mpr ⟨hr, f, hf, ha, hb, hc⟩, hj⟩

/-! ## Decoding and encoding -/

theorem decode_encode (i : Instr) : decode (encode i) = .ok i := by
  rw [decode, encode, ofWord_toWord, decodeFields_command]

theorem encode_of_decode {w : Word} {i : Instr} (h : decode w = .ok i) : encode i = w := by
  rw [encode, (wellFormed_of_ok h).2, toWord_ofWord]

theorem decode_ok_iff_wellFormed (w : Word) : (∃ i, decode w = .ok i) ↔ (CommandWord.ofWord w).wellFormed = true := by
  constructor
  · rintro ⟨i, h⟩
    exact (wellFormed_of_ok h).1
  · intro h
    obtain ⟨i, -, hok⟩ := accepts_of_wellFormed h
    exact ⟨i, hok⟩

theorem decode_illegal {w : Word} (h : (CommandWord.ofWord w).wellFormed = false) : ∃ e, decode w = .error e := by
  cases hd : decode w with
  | error e => exact ⟨e, rfl⟩
  | ok i => exact absurd ((decode_ok_iff_wellFormed w).mp ⟨i, hd⟩) (by simp [h])

/-- Settles O1: the decoder inverts the encoder command by command, and a word that decodes is its command's word. -/
theorem decodeInvertsEncode : Obligations.DecodeInvertsEncode :=
  ⟨fun i => ⟨(wellFormed_of_ok (decodeFields_command i)).1, decode_encode i⟩, fun _ _ => encode_of_decode⟩

/-- Settles O2: each clause is one test of the verdict, read off the word's fields. -/
theorem legalWordsAreExactlyDecoded : Obligations.LegalWordsAreExactlyDecoded := by
  unfold Obligations.LegalWordsAreExactlyDecoded
  intro w
  refine ⟨decode_ok_iff_wellFormed w, decodeFields_reserved (w := .ofWord w), fun hr hopc => ?_, fun hr f hf => ?_⟩
  all_goals have tested := decodeFields_tested (w := .ofWord w) hr
  · rwa [show formatOf (CommandWord.ofWord w).opc = none from formatOf_unassigned hopc] at tested
  · rw [show formatOf (CommandWord.ofWord w).opc = some f from hf] at tested
    exact ⟨tested.1, fun ha => (tested.2 ha).1, fun ha hb => ((tested.2 ha).2 hb).1⟩

/-- Settles O3: each word is the encoding of its command. -/
theorem handWrittenWordsDecode : Obligations.HandWrittenWordsDecode :=
  ⟨decode_encode .nop, decode_encode (.desat 1 0), decode_encode (.resize 2 1), decode_encode (.hash 0 0),
    decode_encode (.cmp 0 1), decode_encode (.bsWbit 1), decode_encode (.pbClone 2 1), decode_encode (.cmp 7 7)⟩

/-! ## The write to `CMD` (R93) -/

section write
variable {s : State} {w : Word} {rest : List HostMove}

theorem step_writeCmd (h : s.pending = .write 0x00C w :: rest) :
    step s = ({ s with pending := rest } : State).writeCmd w :=
  step_write h rfl (by decide)

/-- A legal word runs its command on the accepted state. -/
theorem step_of_legal {i : Instr} (hp : s.pending = .write 0x00C w :: rest) (hf : s.fault = none)
    (h : decode w = .ok i) : step s = exec i (({ s with pending := rest } : State).accept w) := by
  rw [step_writeCmd hp, State.writeCmd, hf, h]
  rfl

/-- An illegal word is accepted too, and fails (R98). -/
theorem step_of_illegal {e : DecodeError} (hp : s.pending = .write 0x00C w :: rest) (hf : s.fault = none)
    (h : decode w = .error e) :
    step s = .next ((({ s with pending := rest } : State).accept w).fail .invalidArgument) := by
  rw [step_writeCmd hp, State.writeCmd, hf, h]
  rfl

end write

/-- A command's word placed before the host's moves is the word itself. -/
theorem withFetchWord_encode (s : State) (i : Instr) : s.withFetchWord 32 (encode i).toNat =
    { s with pending := .write 0x00C (encode i) :: s.pending } := by
  have hword : BitVec.ofNat 32 ((encode i).toNat % 2 ^ 32) = encode i :=
    BitVec.eq_of_toNat_eq (by rw [BitVec.toNat_ofNat]; omega)
  rw [State.withFetchWord, hword]

/-- Settles O4: the second clause is the first for the encoded word. -/
theorem stepRunsDecodedCommand : Obligations.StepRunsDecodedCommand := by
  unfold Obligations.StepRunsDecodedCommand
  refine ⟨fun s w i rest => step_of_legal, fun s i hf => ?_⟩
  rw [withFetchWord_encode]
  exact step_of_legal (s := { s with pending := .write 0x00C (encode i) :: s.pending }) rfl hf (decode_encode i)

/-- Settles O5: the decoder names an error, and every error is the one failure. -/
theorem illegalWordEndsInvalidArgument : Obligations.IllegalWordEndsInvalidArgument := by
  unfold Obligations.IllegalWordEndsInvalidArgument
  intro s w rest hp hf hw
  obtain ⟨e, he⟩ := decode_illegal hw
  exact step_of_illegal hp hf he

end Sys2Proof.Proofs

/-! The family of the pixel-buffer commands (spec/40_pixelbuffer.md): the tests of each command, the allocation of a new
buffer, and the row pitch and the offset of a pixel as words that lose no bit. -/

namespace Sys2Proof.Proofs

open Sys2Proof.Machine Sys2Proof.Laws

-- One theorem after another, as in the tests: in one text with them, waiting threads would each hold a stack.
set_option Elab.async false

/-! ## The commands as their procedures -/

section commands
variable (a b : PixelIdx) (s : State)

theorem exec_pbCreate : exec (.pbCreate a) s =
    .next (s.endCreate a (s.createBuffer a s.arg[0] s.arg[1].toNat s.arg[2].toNat)) := rfl

theorem exec_pbClone : exec (.pbClone a b) s = .next (s.endCreate a (s.cloneBuffer a b)) := rfl

theorem exec_pbRedim : exec (.pbRedim a) s =
    .next (s.endCreate a (s.redimBuffer a s.arg[1].toNat s.arg[2].toNat)) := rfl

end commands

/-! ## The tests of each command

The tests before the allocation all fail with `InvalidArgument`, so they are one test of their disjunction. -/

section tests
variable {s : State} {a b : PixelIdx} {f w h : Word}

theorem word_eq_zero_iff (v : Word) : v = 0 ↔ v.toNat = 0 := BitVec.toNat_eq

/-- `PB_CREATE` refuses an occupied slot, a format that is not well-formed, has no channel or no whole byte, and a zero
dimension (R122). -/
theorem createBuffer_eq (s : State) (a : PixelIdx) (f w h : Word) : s.createBuffer a f w.toNat h.toNat =
    if (s.pixel a).isEmpty = false ∨ formatWellformed f = false ∨ formatChannels f = 0 ∨ formatBpp f % 8 ≠ 0 ∨
      w = 0 ∨ h = 0
    then .error (.plain .invalidArgument) else s.allocZeroed f w.toNat h.toNat := by
  simp only [State.createBuffer, ite_or, word_eq_zero_iff]

/-- `PB_CLONE` refuses an occupied destination and an invalid source (R124). -/
theorem cloneBuffer_eq (s : State) (a b : PixelIdx) : s.cloneBuffer a b =
    if (s.pixel a).isEmpty = false ∨ (s.pixel b).valid = false then .error (.plain .invalidArgument)
    else if s.canAlloc 0 (s.pixel b).cap.toNat then .ok (s.pixel b) else .error (.plain .outOfMemory) := by
  simp only [State.cloneBuffer, ite_or]

/-- `PB_REDIM` refuses an invalid slot and a zero dimension (R125). -/
theorem redimBuffer_eq (s : State) (a : PixelIdx) (w h : Word) : s.redimBuffer a w.toNat h.toNat =
    if (s.pixel a).valid = false ∨ w = 0 ∨ h = 0 then .error (.plain .invalidArgument)
    else s.allocZeroed (s.pixel a).format w.toNat h.toNat := by
  simp only [State.redimBuffer, ite_or, word_eq_zero_iff]

theorem createBuffer_accepted (he : (s.pixel a).isEmpty = true) (hf : formatWellformed f = true)
    (hc : formatChannels f ≠ 0) (h8 : formatBpp f % 8 = 0) (hw : w ≠ 0) (hh : h ≠ 0) :
    s.createBuffer a f w.toNat h.toNat = s.allocZeroed f w.toNat h.toNat := by
  rw [createBuffer_eq, if_neg (by simpa [he, hf, hc, h8] using ⟨hw, hh⟩)]

theorem cloneBuffer_accepted (he : (s.pixel a).isEmpty = true) (hv : (s.pixel b).valid = true) : s.cloneBuffer a b =
    if s.canAlloc 0 (s.pixel b).cap.toNat then .ok (s.pixel b) else .error (.plain .outOfMemory) := by
  rw [cloneBuffer_eq, if_neg (by simp [he, hv])]

theorem redimBuffer_accepted (hv : (s.pixel a).valid = true) (hw : w ≠ 0) (hh : h ≠ 0) :
    s.redimBuffer a w.toNat h.toNat = s.allocZeroed (s.pixel a).format w.toNat h.toNat := by
  rw [redimBuffer_eq, if_neg (by simpa [hv] using ⟨hw, hh⟩)]

end tests

/-! ## The allocation of a new buffer -/

section allocation
variable {s : State} {f w h : Word}

/-- Dimensions that come from registers stay whole in the descriptor (R30, R31). -/
theorem buffer_of_words (f w h : Word) (d : Memory) : PixelSlot.buffer f w.toNat h.toNat d =
    ⟨f, w, h, BitVec.ofNat 32 (w.toNat * h.toNat * formatBpp f / 8), d⟩ := by
  simp only [PixelSlot.buffer, bufferBytes, BitVec.ofNat_toNat, BitVec.setWidth_eq]

theorem allocZeroed_fits (hn : s.allocOk (w.toNat * h.toNat * formatBpp f / 8)) : s.allocZeroed f w.toNat h.toNat =
    .ok ⟨f, w, h, BitVec.ofNat 32 (w.toNat * h.toNat * formatBpp f / 8), []⟩ := by
  rw [← buffer_of_words]
  exact if_pos ((canAlloc_zero_iff _ _).mpr hn)

theorem allocZeroed_outOfMemory (hn : ¬s.allocOk (w.toNat * h.toNat * formatBpp f / 8)) :
    s.allocZeroed f w.toNat h.toNat = .error (.plain .outOfMemory) :=
  if_neg (mt (canAlloc_zero_iff _ _).mp hn)

end allocation

/-- Settles O22: every test passes and the buffer is allocated. -/
theorem pbCreateCompletes : Obligations.PbCreateCompletes := by
  unfold Obligations.PbCreateCompletes
  intro a s he hf hc h8 hw hh hn
  rw [exec_pbCreate, createBuffer_accepted he hf hc h8 hw hh, allocZeroed_fits hn]
  rfl

/-- Settles O23: both tests pass and the copy is allocated. -/
theorem pbCloneCompletes : Obligations.PbCloneCompletes := by
  unfold Obligations.PbCloneCompletes
  intro a b s he hv hn
  rw [exec_pbClone, cloneBuffer_accepted he hv, if_pos ((canAlloc_zero_iff _ _).mpr hn)]
  rfl

/-- Settles O24: every test passes and the buffer is allocated beside the old one. -/
theorem pbRedimCompletes : Obligations.PbRedimCompletes := by
  unfold Obligations.PbRedimCompletes
  intro a s hv hw hh hn
  rw [exec_pbRedim, redimBuffer_accepted hv hw hh, allocZeroed_fits hn]
  rfl

/-! ## Pitch and offset as words (R62)

With `q` bytes a pixel both divisions by 8 are exact, and the capacity `width * height * q` bounds the row pitch and the
end of every pixel inside the image. -/

section pitch
variable {p : PixelSlot} {q : Nat}

theorem rowPitch_of_pixel_bytes (hq : formatBpp p.format = 8 * q) : p.rowPitch = p.width.toNat * q := by
  simpa [PixelSlot.blockOffset] using blockOffset_of_pixel_bytes hq 0 1

/-- The capacity is the row pitch times the height, with no byte lost to a division (R31, R62). -/
theorem rowPitch_mul_height (hv : p.valid = true) (hi : p.inv = true) : p.rowPitch * p.height.toNat = p.cap.toNat := by
  obtain ⟨q, -, hq⟩ := valid_pixel_bytes hv hi
  rcases (pixel_inv_iff p).mp hi with rfl | ⟨-, -, -, hcap, -⟩
  · exact absurd hv (by decide)
  · rw [hcap, bufferBytes, rowPitch_of_pixel_bytes hq, hq, Nat.mul_left_comm, Nat.mul_div_cancel_left _ (by decide),
      Nat.mul_right_comm]

theorem rowPitch_le_cap (hv : p.valid = true) (hi : p.inv = true) : p.rowPitch ≤ p.cap.toNat := by
  rw [← rowPitch_mul_height hv hi]
  exact Nat.le_mul_of_pos_right _ (Nat.pos_of_ne_zero (valid_dims hv).2)

/-- A pixel inside the image ends inside the store: its row holds `i + 1` pixels and the store `j + 1` rows. -/
theorem blockOffset_add_pixel_le_cap (hv : p.valid = true) (hi : p.inv = true) {i j : Nat} (hcol : i < p.width.toNat)
    (hrow : j < p.height.toNat) : p.blockOffset i j + formatBpp p.format / 8 ≤ p.cap.toNat := by
  obtain ⟨q, -, hq⟩ := valid_pixel_bytes hv hi
  have hpixel : formatBpp p.format / 8 = q := by omega
  have hpitch := rowPitch_of_pixel_bytes hq
  calc p.blockOffset i j + formatBpp p.format / 8
      = p.rowPitch * j + (i + 1) * q := by rw [blockOffset_of_pixel_bytes hq, hpixel, hpitch]; ring
    _ ≤ p.rowPitch * j + p.rowPitch := by rw [hpitch]; exact Nat.add_le_add_left (Nat.mul_le_mul_right q hcol) _
    _ ≤ p.rowPitch * p.height.toNat := Nat.mul_le_mul_left p.rowPitch hrow
    _ = p.cap.toNat := rowPitch_mul_height hv hi

/-- A number no larger than some capacity fits a register. -/
theorem toNat_ofNat_of_le_word {n : Nat} {v : Word} (h : n ≤ v.toNat) : (BitVec.ofNat 32 n).toNat = n :=
  toNat_ofNat_of_le (h.trans (word_le v))

end pitch

/-! ## The ends of `PB_PITCH` and `PB_BLKOFF` -/

section results
variable {s : State} {a : PixelIdx}

theorem pbPitch_refused (hv : (s.pixel a).valid = false) : exec (.pbPitch a) s = .next (s.fail .invalidArgument) :=
  if_pos hv

theorem pbPitch_accepted (hv : (s.pixel a).valid = true) :
    exec (.pbPitch a) s = .next (s.succeed (BitVec.ofNat 32 (s.pixel a).rowPitch) (s.pixel a).cap) :=
  if_neg (by simp [hv])

/-- `PB_BLKOFF` refuses an invalid slot and a pixel outside the image, all with `InvalidArgument` (R127). -/
theorem exec_pbBlkoff (a : PixelIdx) (s : State) : exec (.pbBlkoff a) s =
    if (s.pixel a).valid = false ∨ (s.pixel a).width.toNat ≤ s.arg[0].toNat ∨
      (s.pixel a).height.toNat ≤ s.arg[1].toNat
    then .next (s.fail .invalidArgument)
    else .next (s.succeed (BitVec.ofNat 32 ((s.pixel a).blockOffset s.arg[0].toNat s.arg[1].toNat))) :=
  (ite_or ..).symm

theorem pbBlkoff_accepted (hv : (s.pixel a).valid = true) (hcol : s.arg[0].toNat < (s.pixel a).width.toNat)
    (hrow : s.arg[1].toNat < (s.pixel a).height.toNat) : exec (.pbBlkoff a) s =
    .next (s.succeed (BitVec.ofNat 32 ((s.pixel a).blockOffset s.arg[0].toNat s.arg[1].toNat))) := by
  rw [exec_pbBlkoff, if_neg (by simp [hv, hcol, hrow])]

end results

/-- Settles O25: the pitch is no larger than the capacity, which a register holds. -/
theorem pbPitchCompletes : Obligations.PbPitchCompletes := by
  unfold Obligations.PbPitchCompletes
  intro a s hv hi
  have hword := toNat_ofNat_of_le_word (rowPitch_le_cap hv hi)
  exact ⟨_, pbPitch_accepted hv, hword, by rw [hword, rowPitch_mul_height hv hi]⟩

/-- Settles O26: the pixel ends inside the store, whose size a register holds. -/
theorem pbBlkoffCompletes : Obligations.PbBlkoffCompletes := by
  unfold Obligations.PbBlkoffCompletes
  intro a s hv hi hcol hrow
  have hend := blockOffset_add_pixel_le_cap hv hi hcol hrow
  have hword := toNat_ofNat_of_le_word ((Nat.le_add_right _ _).trans hend)
  exact ⟨_, pbBlkoff_accepted hv hcol hrow, hword, by rw [hword]; exact hend⟩

/-- Settles O28: each command's refusals are its one test, and `OutOfMemory` is the allocation after the test. -/
theorem pixelCommandsFail : Obligations.PixelCommandsFail := by
  unfold Obligations.PixelCommandsFail
  refine ⟨fun a s => ⟨fun hbad => ?_, fun he hf hc h8 hw hh hn => ?_⟩,
    fun a b s => ⟨fun hbad => ?_, fun he hv hn => ?_⟩,
    fun a s => ⟨fun hbad => ?_, fun hv hw hh hn => ?_, pbPitch_refused, fun hbad => ?_⟩⟩
  · rw [exec_pbCreate, createBuffer_eq, if_pos hbad]; rfl
  · rw [exec_pbCreate, createBuffer_accepted he hf hc h8 hw hh, allocZeroed_outOfMemory hn]; rfl
  · rw [exec_pbClone, cloneBuffer_eq, if_pos hbad]; rfl
  · rw [exec_pbClone, cloneBuffer_accepted he hv, if_neg (mt (canAlloc_zero_iff _ _).mp hn)]; rfl
  · rw [exec_pbRedim, redimBuffer_eq, if_pos hbad]; rfl
  · rw [exec_pbRedim, redimBuffer_accepted hv hw hh, allocZeroed_outOfMemory hn]; rfl
  · rw [exec_pbBlkoff, if_pos hbad]; rfl

end Sys2Proof.Proofs

/-! The family of the bit-stream commands (spec/41_bitstream.md): each command as its tests and its one end, the bits an
append and a counted read move, and what a stream returns of what was written to it. -/

namespace Sys2Proof.Proofs

open Sys2Proof.Machine Sys2Proof.Laws

-- One theorem after another, as in the tests: in one text with them, waiting threads would each hold a stack.
set_option Elab.async false

/-! ## The commands as their tests and ends

The operands are the argument registers themselves, and tests that fail alike are one test of their disjunction. -/

section commands
variable (a b : StreamIdx) (s : State)

/-- A slot emptied and filled again is filled: of `BS_RESIZE` only the account of the pool sees the empty slot (R141). -/
theorem setStream_setStream (t u : StreamSlot) : (s.setStream a t).setStream a u = s.setStream a u := by
  simp only [State.setStream, Vector.set_set]

theorem exec_bsResize : exec (.bsResize a) s =
    if s.arg[0] = 0 ∨ bsMaxBits < s.arg[0].toNat then .next ((s.setStream a .empty).fail .invalidArgument)
    else if (s.setStream a .empty).canAlloc 0 ((s.arg[0].toNat + 7) / 8) = false
    then .next ((s.setStream a .empty).fail .outOfMemory)
    else .next (((s.setStream a .empty).setStream a (.fresh ((s.arg[0].toNat + 7) / 8))).succeed s.arg[0]) := by
  simp only [word_eq_zero_iff]
  rfl

theorem exec_bsLoad : exec (.bsLoad a) s =
    if (s.stream a).isEmpty = false ∨ s.arg[0] = 0 ∨ s.cfg.xbufBytes < s.arg[0].toNat
    then .next (s.fail .invalidArgument)
    else if s.canAlloc 0 s.arg[0].toNat = false then .next (s.fail .outOfMemory)
    else .next ((s.setStream a (.loaded s.xbuf s.arg[0].toNat)).succeed) := by
  rw [ite_or]
  simp only [word_eq_zero_iff]
  rfl

theorem exec_bsCopy : exec (.bsCopy a b) s =
    if (s.stream a).isEmpty = false then .next (s.fail .invalidArgument)
    else if (s.stream b).capbits ≠ 0 ∧ s.canAlloc 0 ((s.stream b).capbits.toNat / 8) = false
    then .next (s.fail .outOfMemory)
    else .next ((s.setStream a (s.stream b)).succeed) := rfl

theorem exec_bsWbit : exec (.bsWbit a) s =
    .next (s.endAppend a ((s.stream a).append (fun _ => s.arg[0].getLsbD 0) 1)) := rfl

theorem exec_bsWbyte : exec (.bsWbyte a) s =
    .next (s.endAppend a ((s.stream a).append s.arg[0].getLsbD 8)) := rfl

theorem exec_bsWbits : exec (.bsWbits a) s =
    if 8 * s.cfg.xbufBytes < s.arg[0].toNat then .next (s.fail .invalidArgument)
    else .next (s.endAppend a ((s.stream a).append s.xbuf.getBit s.arg[0].toNat)) := rfl

theorem exec_bsWbytes : exec (.bsWbytes a) s =
    if s.cfg.xbufBytes < s.arg[0].toNat then .next (s.fail .invalidArgument)
    else .next (s.endAppend a ((s.stream a).append s.xbuf.getBit (8 * s.arg[0].toNat))) := rfl

/-- The word of a bit is 1 or 0 (R154). -/
theorem exec_bsRbit : exec (.bsRbit a) s =
    if (s.stream a).remaining < 1 then .next (s.fail .invalidResource)
    else .next ((s.setStream a ((s.stream a).advance 1)).succeed
      (if (s.stream a).data.getBit (s.stream a).rcur.toNat then 1 else 0)) := by
  have hword (v : Bool) : (BitVec.ofBool v).setWidth 32 = if v then (1 : Word) else 0 := by cases v <;> rfl
  rw [← hword]
  rfl

theorem exec_bsRbyte : exec (.bsRbyte a) s =
    if (s.stream a).remaining < 8 then .next (s.fail .invalidResource)
    else .next ((s.setStream a ((s.stream a).advance 8)).succeed
      ((byteOfBits fun k => (s.stream a).data.getBit ((s.stream a).rcur.toNat + k)).setWidth 32)) := rfl

theorem exec_bsRbits : exec (.bsRbits a) s =
    if 8 * s.cfg.xbufBytes < min s.arg[0].toNat (s.stream a).remaining then .next (s.fail .invalidArgument)
    else .next (s.endRead a (min s.arg[0].toNat (s.stream a).remaining)
      (min s.arg[0].toNat (s.stream a).remaining)) := rfl

/-- A minimum of 0 comes of clamping exactly when a byte was asked for (R157). -/
theorem exec_bsRbytes : exec (.bsRbytes a) s =
    if s.arg[0] ≠ 0 ∧ (s.stream a).remaining / 8 = 0 then .next (s.fail .capacityLimit)
    else if s.cfg.xbufBytes < min s.arg[0].toNat ((s.stream a).remaining / 8) then .next (s.fail .invalidArgument)
    else .next (s.endRead a (8 * min s.arg[0].toNat ((s.stream a).remaining / 8))
      (min s.arg[0].toNat ((s.stream a).remaining / 8))) := by
  have hclamped : s.arg[0] ≠ 0 ∧ (s.stream a).remaining / 8 = 0 ↔
      (s.stream a).remaining / 8 < s.arg[0].toNat ∧ min s.arg[0].toNat ((s.stream a).remaining / 8) = 0 := by
    rw [ne_eq, word_eq_zero_iff]
    omega
  exact (if_congr hclamped rfl rfl).symm

theorem exec_bsSeek : exec (.bsSeek a) s = .next ((s.setStream a
    { s.stream a with rcur := BitVec.ofNat 32 (min s.arg[0].toNat (s.stream a).wcur.toNat) }).succeed) := rfl

end commands

/-! ## Making a stream -/

theorem canAlloc_eq_false_iff (s : State) (n : Nat) : s.canAlloc 0 n = false ↔ ¬s.allocOk n := by
  rw [← canAlloc_zero_iff, Bool.not_eq_true]

/-- Settles O29: neither test fails; the pool is asked after the slot was emptied. -/
theorem bsResizeCompletes : Obligations.BsResizeCompletes := by
  unfold Obligations.BsResizeCompletes
  intro a s h0 hmax hroom
  have hbits : ¬(s.arg[0] = 0 ∨ bsMaxBits < s.arg[0].toNat) := not_or.mpr ⟨h0, Nat.not_lt.mpr hmax⟩
  rw [exec_bsResize, if_neg hbits, setStream_setStream]
  exact if_neg (mt (canAlloc_eq_false_iff _ _).mp (not_not_intro hroom))

/-- Settles O30: both tests come after the slot was emptied. -/
theorem bsResizeFailsEmpty : Obligations.BsResizeFailsEmpty := by
  unfold Obligations.BsResizeFailsEmpty
  refine fun a s => ⟨fun hbad => ?_, fun h0 hmax hfull => ?_⟩
  · rw [exec_bsResize]
    exact if_pos hbad
  · have hbits : ¬(s.arg[0] = 0 ∨ bsMaxBits < s.arg[0].toNat) := not_or.mpr ⟨h0, Nat.not_lt.mpr hmax⟩
    rw [exec_bsResize, if_neg hbits]
    exact if_pos ((canAlloc_eq_false_iff _ _).mpr hfull)

/-- `BS_LOAD` passes its tests on an empty slot and a count of 1 to the size of `XBUF` (R143). -/
theorem bsLoad_accepted {a : StreamIdx} {s : State} (he : (s.stream a).isEmpty = true) (h0 : s.arg[0] ≠ 0)
    (hx : s.arg[0].toNat ≤ s.cfg.xbufBytes) : exec (.bsLoad a) s =
    if s.canAlloc 0 s.arg[0].toNat = false then .next (s.fail .outOfMemory)
    else .next ((s.setStream a (.loaded s.xbuf s.arg[0].toNat)).succeed) := by
  rw [exec_bsLoad, if_neg (by simpa [he] using ⟨h0, hx⟩)]

/-- Settles O31: the store of the new stream is the front of `XBUF`, which `read_take` reads. -/
theorem bsLoadCompletes : Obligations.BsLoadCompletes := by
  unfold Obligations.BsLoadCompletes
  intro a s he h0 hx _ hroom
  refine ⟨s.xbuf.take s.arg[0].toNat, ?_, fun i => read_take _ i _⟩
  rw [bsLoad_accepted he h0 hx]
  exact if_neg (mt (canAlloc_eq_false_iff _ _).mp (not_not_intro hroom))

theorem bsCopy_accepted {a : StreamIdx} {s : State} (he : (s.stream a).isEmpty = true) (b : StreamIdx) :
    exec (.bsCopy a b) s =
      if (s.stream b).capbits ≠ 0 ∧ s.canAlloc 0 ((s.stream b).capbits.toNat / 8) = false
      then .next (s.fail .outOfMemory) else .next ((s.setStream a (s.stream b)).succeed) := by
  rw [exec_bsCopy, if_neg (by simp [he])]

theorem equal_self (t : StreamSlot) : t.equal t = true := (equal_iff t t).mpr ⟨rfl, rfl, rfl, fun _ _ => rfl⟩

/-- After a copy both slots hold the source, which may be the destination itself. -/
theorem setStream_stream_source (s : State) (a b : StreamIdx) : (s.setStream a (s.stream b)).stream b = s.stream b := by
  rw [setStream_stream, ite_eq_right_iff]
  rintro -
  rfl

theorem bsEq_of_equal {a b : StreamIdx} {s : State} (h : s.stream a = s.stream b) :
    exec (.bsEq a b) s = .next (s.succeed 1) := by
  rw [exec_bsEq, h, equal_self, if_pos rfl]

/-- Settles O32: the copy is the source's slot, so `BS_EQ` compares a stream with itself. -/
theorem bsCopyCompletes : Obligations.BsCopyCompletes := by
  unfold Obligations.BsCopyCompletes
  intro a b s he hroom
  have hfits : ¬((s.stream b).capbits ≠ 0 ∧ s.canAlloc 0 ((s.stream b).capbits.toNat / 8) = false) := by
    rw [canAlloc_eq_false_iff]
    tauto
  have hcopy : exec (.bsCopy a b) s = .next ((s.setStream a (s.stream b)).succeed) := by
    rw [bsCopy_accepted he, if_neg hfits]
  refine ⟨hcopy, fun t ht => ?_⟩
  obtain rfl : (s.setStream a (s.stream b)).succeed = t := Host.Outcome.next.inj (hcopy.symm.trans ht)
  exact bsEq_of_equal (by rw [succeed_stream, succeed_stream, setStream_stream_self, setStream_stream_source])

/-! ## The write commands -/

section appends
variable {a : StreamIdx} {s : State} {t : StreamSlot} {src : Nat → Bool} {n : Nat}

theorem append_fits (h : t.wcur.toNat + n ≤ t.capbits.toNat) : t.append src n = some { t with
    data := t.data.putBits t.wcur.toNat src n, wcur := BitVec.ofNat 32 (t.wcur.toNat + n) } :=
  if_neg (Nat.not_lt.mpr h)

theorem append_full (h : t.capbits.toNat < t.wcur.toNat + n) : t.append src n = none := if_pos h

/-- The end of a write command whose bits fit (R145). -/
theorem endAppend_fits (hi : (s.stream a).inv = true) (h : (s.stream a).wcur.toNat + n ≤ (s.stream a).capbits.toNat) :
    ∃ d : Memory, Host.Outcome.next (φ := Fault) (ρ := Refusal) (s.endAppend a ((s.stream a).append src n)) =
        .next ((s.setStream a { s.stream a with
          wcur := BitVec.ofNat 32 ((s.stream a).wcur.toNat + n), data := d }).succeed) ∧
      BitsCopied (s.stream a).data d (s.stream a).wcur.toNat n src :=
  ⟨_, by rw [append_fits h]; rfl, append_bits hi (append_fits h)⟩

/-- The end of a write command whose bits do not fit: nothing is written (R145). -/
theorem endAppend_full (h : (s.stream a).capbits.toNat < (s.stream a).wcur.toNat + n) :
    s.endAppend a ((s.stream a).append src n) = s.fail .capacityLimit := by
  rw [append_full h]
  rfl

theorem bsWbits_accepted (hx : s.arg[0].toNat ≤ 8 * s.cfg.xbufBytes) : exec (.bsWbits a) s =
    .next (s.endAppend a ((s.stream a).append s.xbuf.getBit s.arg[0].toNat)) := by
  rw [exec_bsWbits, if_neg (Nat.not_lt.mpr hx)]

theorem bsWbytes_accepted (hx : s.arg[0].toNat ≤ s.cfg.xbufBytes) : exec (.bsWbytes a) s =
    .next (s.endAppend a ((s.stream a).append s.xbuf.getBit (8 * s.arg[0].toNat))) := by
  rw [exec_bsWbytes, if_neg (Nat.not_lt.mpr hx)]

end appends

/-- Settles O33: the four commands are one append of four operands. -/
theorem streamWritesComplete : Obligations.StreamWritesComplete := by
  unfold Obligations.StreamWritesComplete
  refine fun a s hi => ⟨fun h => ?_, fun h => ?_, fun hx h => ?_, fun hx h => ?_⟩
  · rw [exec_bsWbit]; exact endAppend_fits hi h
  · rw [exec_bsWbyte]; exact endAppend_fits hi h
  · rw [bsWbits_accepted hx]; exact endAppend_fits hi h
  · rw [bsWbytes_accepted hx]; exact endAppend_fits hi h

/-! ## The read commands -/

section reads
variable {a : StreamIdx} {s : State}

theorem bsRbit_accepted (h : 1 ≤ (s.stream a).remaining) : exec (.bsRbit a) s =
    .next ((s.setStream a ((s.stream a).advance 1)).succeed
      (if (s.stream a).data.getBit (s.stream a).rcur.toNat then 1 else 0)) := by
  rw [exec_bsRbit, if_neg (Nat.not_lt.mpr h)]

theorem bsRbyte_accepted (h : 8 ≤ (s.stream a).remaining) : exec (.bsRbyte a) s =
    .next ((s.setStream a ((s.stream a).advance 8)).succeed
      ((byteOfBits fun k => (s.stream a).data.getBit ((s.stream a).rcur.toNat + k)).setWidth 32)) := by
  rw [exec_bsRbyte, if_neg (Nat.not_lt.mpr h)]

theorem bsRbits_accepted {m : Nat} (hm : m = min s.arg[0].toNat (s.stream a).remaining)
    (hx : m ≤ 8 * s.cfg.xbufBytes) : exec (.bsRbits a) s = .next (s.endRead a m m) := by
  rw [exec_bsRbits, ← hm, if_neg (Nat.not_lt.mpr hx)]

/-- With bytes to deliver, or none asked for, `BS_RBYTES` comes to its test of `XBUF` (R157). -/
theorem bsRbytes_clamped {m : Nat} (hm : m = min s.arg[0].toNat ((s.stream a).remaining / 8))
    (h0 : s.arg[0] = 0 ∨ m ≠ 0) : exec (.bsRbytes a) s =
    if s.cfg.xbufBytes < m then .next (s.fail .invalidArgument) else .next (s.endRead a (8 * m) m) := by
  have hsome : ¬(s.arg[0] ≠ 0 ∧ (s.stream a).remaining / 8 = 0) := by
    rintro ⟨hne, hnone⟩
    exact h0.elim hne fun hpos => hpos (by rw [hm, hnone, Nat.min_zero])
  rw [exec_bsRbytes, if_neg hsome, ← hm]

/-- A counted read copies the bits at the read cursor to the front of `XBUF` (R156, R157). -/
theorem endRead_bitsCopied (hx : s.xbuf.wf = true) (n count : Nat) :
    ∃ x : Memory, Host.Outcome.next (φ := Fault) (ρ := Refusal) (s.endRead a n count) =
        .next (((s.setXbuf x).setStream a ((s.stream a).advance n)).succeed (BitVec.ofNat 32 count)) ∧
      BitsCopied s.xbuf x 0 n (fun k => (s.stream a).data.getBit ((s.stream a).rcur.toNat + k)) :=
  ⟨_, rfl, copyBits_bitsCopied hx _ _ _ _⟩

end reads

/-- Settles O34: a byte is its bits, and both counted reads are one copy to `XBUF`. -/
theorem streamReadsComplete : Obligations.StreamReadsComplete := by
  unfold Obligations.StreamReadsComplete
  refine fun a s _ hxbuf => ⟨bsRbit_accepted, fun h => ⟨_, bsRbyte_accepted h, byteOfBits_getLsbD _⟩,
    fun m hm hx => ?_, fun m hm h0 hx => ?_⟩
  · rw [bsRbits_accepted hm hx]; exact endRead_bitsCopied hxbuf m m
  · rw [bsRbytes_clamped hm h0, if_neg (Nat.not_lt.mpr hx)]; exact endRead_bitsCopied hxbuf (8 * m) m

/-! ## The failures -/

/-- Settles O35: each command's failures are its tests in their order; an append that does not fit writes nothing. -/
theorem streamCommandsFail : Obligations.StreamCommandsFail := by
  unfold Obligations.StreamCommandsFail
  refine fun a s => ⟨fun hbad => ?_, fun hoccupied b => ?_, fun he h0 hx hfull => ?_, fun he b hcap hfull => ?_,
    fun h => ?_, fun h => ?_, fun hx => ?_, fun hx h => ?_, fun hx => ?_, fun hx h => ?_, fun h => ?_, fun h => ?_,
    fun hx => ?_, fun h0 hnone => ?_, fun hx => ?_⟩
  · rw [exec_bsLoad, if_pos hbad]; rfl
  · rw [exec_bsCopy, if_pos hoccupied]; rfl
  · rw [bsLoad_accepted he h0 hx, if_pos ((canAlloc_eq_false_iff _ _).mpr hfull)]; rfl
  · rw [bsCopy_accepted he, if_pos ⟨hcap, (canAlloc_eq_false_iff _ _).mpr hfull⟩]; rfl
  · rw [exec_bsWbit, endAppend_full h]; rfl
  · rw [exec_bsWbyte, endAppend_full h]; rfl
  · rw [exec_bsWbits, if_pos hx]; rfl
  · rw [bsWbits_accepted hx, endAppend_full h]; rfl
  · rw [exec_bsWbytes, if_pos hx]; rfl
  · rw [bsWbytes_accepted hx, endAppend_full h]; rfl
  · rw [exec_bsRbit]; exact if_pos h
  · rw [exec_bsRbyte]; exact if_pos h
  · rw [exec_bsRbits]; exact if_pos hx
  · rw [exec_bsRbytes]; exact if_pos ⟨h0, hnone⟩
  · rw [bsRbytes_clamped rfl (.inr (Nat.ne_zero_of_lt hx))]; exact if_pos hx

/-! ## Write, seek, read (R161)

Each command after the host's write of its operand to `ARG0`. -/

section roundTrip
variable {a : StreamIdx} {s : State} {t : StreamSlot} {v : Word}

theorem arg_writeArg (s : State) (v : Word) : (s.writeArg 0 v).arg[0] = v := Vector.getElem_set_self _

/-- A write command whose bits fit ends with the appended stream in its slot (R145, R152). -/
theorem bsWbits_append (hx : v.toNat ≤ 8 * s.cfg.xbufBytes)
    (ht : (s.stream a).append s.xbuf.getBit v.toNat = some t) :
    exec (.bsWbits a) (s.writeArg 0 v) = .next (((s.writeArg 0 v).setStream a t).succeed) := by
  rw [bsWbits_accepted (by rwa [arg_writeArg]), arg_writeArg, writeArg_stream, writeArg_xbuf, ht]
  rfl

/-- A seek within the written bits is not clamped (R158). -/
theorem bsSeek_within (h : v.toNat ≤ (s.stream a).wcur.toNat) : exec (.bsSeek a) (s.writeArg 0 v) =
    .next (((s.writeArg 0 v).setStream a { s.stream a with rcur := v }).succeed) := by
  rw [exec_bsSeek, arg_writeArg, writeArg_stream, Nat.min_eq_left h, BitVec.ofNat_toNat, BitVec.setWidth_eq]

/-- A read of no more bits than remain and `XBUF` holds is not clamped (R156). -/
theorem bsRbits_within (h : v.toNat ≤ (s.stream a).remaining) (hx : v.toNat ≤ 8 * s.cfg.xbufBytes) :
    exec (.bsRbits a) (s.writeArg 0 v) = .next ((s.writeArg 0 v).endRead a v.toNat v.toNat) :=
  bsRbits_accepted (by rw [arg_writeArg, writeArg_stream, Nat.min_eq_left h]) hx

theorem getBit_endRead (hx : s.xbuf.wf = true) {n k : Nat} (hk : k < n) (count : Nat) :
    (s.endRead a n count).xbuf.getBit k = (s.stream a).data.getBit ((s.stream a).rcur.toNat + k) := by
  have hcopied := copyBits_bitsCopied hx 0 (s.stream a).data (s.stream a).rcur.toNat n k
  rwa [if_pos ⟨Nat.zero_le k, by omega⟩, Nat.sub_zero] at hcopied

/-- Any run of written bits can be read: the seek puts the read cursor at its first bit, and neither command clamps
(R156, R158). -/
theorem bsSeek_then_bsRbits {p N : Word} (hx : s.xbuf.wf = true) (hN : N.toNat ≤ 8 * s.cfg.xbufBytes)
    (hrun : p.toNat + N.toNat ≤ (s.stream a).wcur.toNat) : ∃ s₂ s₃ : State,
      exec (.bsSeek a) (s.writeArg 0 p) = .next s₂ ∧ exec (.bsRbits a) (s₂.writeArg 0 N) = .next s₃ ∧
      s₂.code = .success ∧ s₃.code = .success ∧ s₃.res = #v[N, 0, 0, 0] ∧
      ∀ k < N.toNat, s₃.xbuf.getBit k = (s.stream a).data.getBit (p.toNat + k) := by
  refine ⟨_, _, bsSeek_within (by omega), bsRbits_within ?_ hN, rfl, rfl, ?_, fun k hk => ?_⟩
  · rw [succeed_stream, setStream_stream_self, StreamSlot.remaining]
    exact Nat.le_sub_of_add_le' hrun
  · rw [State.endRead, BitVec.ofNat_toNat, BitVec.setWidth_eq]
    rfl
  · rw [getBit_endRead (by exact hx) hk, writeArg_stream, succeed_stream, setStream_stream_self]

end roundTrip

/-- Settles O37: the appended bits are the run of `N` written bits from the old write cursor on, which a seek and a read
return. -/
theorem writeSeekReadRoundTrip : Obligations.WriteSeekReadRoundTrip := by
  unfold Obligations.WriteSeekReadRoundTrip
  intro a s N x hi hx hN hfit
  obtain ⟨t, ht⟩ : ∃ t, (s.stream a).append s.xbuf.getBit N.toNat = some t := ⟨_, append_fits hfit⟩
  obtain ⟨-, -, -, hwcur, -⟩ := append_some ht
  have hslot : ((((s.writeArg 0 N).setStream a t).succeed).setXbuf x).stream a = t := setStream_stream_self _ _ _
  obtain ⟨s₂, s₃, hseek, hread, hcode₂, hcode₃, hres, hxbuf⟩ :=
    bsSeek_then_bsRbits (a := a) (s := (((s.writeArg 0 N).setStream a t).succeed).setXbuf x) (p := (s.stream a).wcur)
      hx hN (by rw [hslot, hwcur])
  refine ⟨_, s₂, s₃, bsWbits_append hN ht, hseek, hread, rfl, hcode₂, hcode₃, hres, fun k hk => ?_⟩
  rw [hxbuf k hk, hslot, append_bits hi ht, if_pos (by omega), Nat.add_sub_cancel_left]

end Sys2Proof.Proofs

/-! The family of the grayscale converter (spec/42_grayscale.md): the luma of a pixel and its range, the gray buffer
`DESAT` makes, and the tests by which `DESAT`, `RESIZE` (spec/43_resampler.md) and `DCT2D` (spec/44_dct.md) fail. -/

namespace Sys2Proof.Proofs

open Sys2Proof.Machine Sys2Proof.Laws

-- One theorem after another, as in the tests: in one text with them, waiting threads would each hold a stack.
set_option Elab.async false

/-! ## The luma of a pixel (R182, R183) -/

theorem byte_le (v : Byte) : v.toNat ≤ 255 := Nat.le_of_lt_succ v.isLt

theorem luma_sum_le (r g b : Byte) : r.toNat * 1228 + g.toNat * 2416 + b.toNat * 450 ≤ 1043970 := by
  have hr := byte_le r
  have hg := byte_le g
  have hb := byte_le b
  omega

/-- The shifted sum fits a byte, so no bit is lost (R183). -/
theorem luma_toNat (r g b : Byte) :
    (luma r g b).toNat = (r.toNat * 1228 + g.toNat * 2416 + b.toNat * 450) / 4096 := by
  have hsum := luma_sum_le r g b
  rw [luma, BitVec.toNat_ofNat]
  exact Nat.mod_eq_of_lt (by omega)

theorem luma_le (r g b : Byte) : (luma r g b).toNat ≤ 254 := by
  have hsum := luma_sum_le r g b
  rw [luma_toNat]
  omega

/-- The weights add up to 4094, two short of the divisor: a gray loses one (R183). -/
theorem luma_gray {g : Byte} (h : 1 ≤ g.toNat) : (luma g g g).toNat = g.toNat - 1 := by
  have hg := byte_le g
  rw [luma_toNat]
  omega

/-- Settles O40: the sum is at most 255 times the weights' total, and everything else is that bound divided. -/
theorem lumaRange : Obligations.LumaRange := by
  unfold Obligations.LumaRange
  exact ⟨fun r g b => ⟨luma_sum_le r g b, luma_toNat r g b, luma_le r g b⟩, by decide, by decide, fun _ => luma_gray⟩

/-! ## The procedures

Tests that fail alike are one test of their disjunction. -/

section procedures
variable (s : State) (held : Nat) (p : PixelSlot)

theorem desaturate_eq : s.desaturate held p =
    if p.validAs formatR8G8B8 = false then .error (.plain .invalidArgument)
    else if s.canAlloc held (p.width.toNat * p.height.toNat) = false then .error (.plain .outOfMemory)
    else .ok (grayOf p) := rfl

/-- `Resize` refuses another source than an `R8` buffer, a zero dimension and the enlargement of an axis of one sample. The
last of these tests stands after the clone, which enlarges no axis (R192, R193). -/
theorem resample_eq (dw dh : Nat) : s.resample held p dw dh =
    if p.validAs formatR8 = false ∨ dw = 0 ∨ dh = 0 ∨ (p.width.toNat = 1 ∧ dw ≠ 1) ∨ (p.height.toNat = 1 ∧ dh ≠ 1)
    then .error (.plain .invalidArgument)
    else if dw = p.width.toNat ∧ dh = p.height.toNat then
      if s.canAlloc held p.cap.toNat = false then .error (.plain .outOfMemory) else .ok p
    else if s.canAlloc held (dw * p.height.toNat) = false ∨
      s.canAlloc (held + dw * p.height.toNat) (dw * dh) = false then .error (.plain .outOfMemory)
    else if axisFaults p.width.toNat dw || axisFaults p.height.toNat dh then .error (.fault .zeroWeight)
    else .ok (.buffer formatR8 dw dh
      (.ofBytes ((resampleRows p.data p.width.toNat p.height.toNat dw dh).flatten.map (BitVec.ofNat 8)))) := by
  have hwidth : dw = p.width.toNat ∧ dh = p.height.toNat → ¬(p.width.toNat = 1 ∧ dw ≠ 1) := by omega
  have hheight : dw = p.width.toNat ∧ dh = p.height.toNat → ¬(p.height.toNat = 1 ∧ dh ≠ 1) := by omega
  simp only [State.resample, ite_or]
  rw [ite_ite_comm (h := hwidth), ite_ite_comm (h := hheight)]

theorem transform_eq : s.transform held p =
    if p.validAs formatR8 = false then .error (.plain .invalidArgument)
    else if s.canAlloc held (4 * p.width.toNat * p.height.toNat) = false ∨
      s.canAlloc (held + 4 * p.width.toNat * p.height.toNat) (4 * p.width.toNat * p.height.toNat) = false
    then .error (.inner .outOfMemory)
    else .ok (coeffsOf p) := by
  rw [ite_or]
  rfl

/-- Two buffers that are held together are allocated exactly when each is small enough and the pool holds both (R45,
R46). -/
theorem canAlloc_pair_eq_false_iff (m n : Nat) : s.canAlloc held m = false ∨ s.canAlloc (held + m) n = false ↔
    ¬(m ≤ bufMaxBytes ∧ n ≤ bufMaxBytes ∧ s.poolHas (held + (m + n))) := by
  have hfirst : s.poolHas (held + (m + n)) → s.poolHas (held + m) := poolHas_mono (by omega)
  rw [← Bool.not_eq_true, ← Bool.not_eq_true, canAlloc_iff, canAlloc_iff, Nat.add_assoc]
  tauto

end procedures

section outcomes
variable {s : State} {held dw dh : Nat} {p : PixelSlot}

/-- A clone enlarges no axis, so only the storage can fail (R192, R200). -/
theorem resample_same_size (hv : p.validAs formatR8 = true) :
    s.resample held p p.width.toNat p.height.toNat =
      if s.canAlloc held p.cap.toNat = false then .error (.plain .outOfMemory) else .ok p := by
  obtain ⟨hw0, hh0⟩ := valid_dims (validAs_valid hv).1
  rw [resample_eq, if_neg (by simp [hv, hw0, hh0]), if_pos ⟨rfl, rfl⟩]

/-- `Resize` to another size holds the intermediate and the result together (R192). -/
theorem resample_outOfMemory (hv : p.validAs formatR8 = true) (hw0 : dw ≠ 0) (hh0 : dh ≠ 0)
    (hsize : ¬(dw = p.width.toNat ∧ dh = p.height.toNat)) (hw : p.width.toNat = 1 → dw = 1)
    (hh : p.height.toNat = 1 → dh = 1)
    (hfull : ¬(dw * p.height.toNat ≤ bufMaxBytes ∧ dw * dh ≤ bufMaxBytes ∧
      s.poolHas (held + (dw * p.height.toNat + dw * dh)))) :
    s.resample held p dw dh = .error (.plain .outOfMemory) := by
  rw [resample_eq, if_neg (by simpa [hv, hw0, hh0] using ⟨hw, hh⟩), if_neg hsize,
    if_pos ((canAlloc_pair_eq_false_iff ..).mpr hfull)]

/-- `Transform` holds the scratch buffer and the coefficients together, both of the same size (R212). -/
theorem transform_outOfMemory (hv : p.validAs formatR8 = true)
    (hfull : ¬(4 * p.width.toNat * p.height.toNat ≤ bufMaxBytes ∧
      s.poolHas (held + 8 * p.width.toNat * p.height.toNat))) :
    s.transform held p = .error (.inner .outOfMemory) := by
  have hboth : 4 * p.width.toNat * p.height.toNat + 4 * p.width.toNat * p.height.toNat =
      8 * p.width.toNat * p.height.toNat := by ring
  rw [transform_eq, if_neg (by simp [hv]), if_pos]
  rw [canAlloc_pair_eq_false_iff, hboth]
  exact fun ⟨hsize, _, hpool⟩ => hfull ⟨hsize, hpool⟩

end outcomes

/-! ## The commands as their procedures -/

section commands
variable {s : State} {a b : PixelIdx}

/-- The processing commands refuse an occupied destination before their procedure runs, as a procedure that fails
would (R181, R191, R211). -/
theorem next_endCreate_unless_occupied (s : State) (a : PixelIdx) (r : Except Stop PixelSlot) :
    (if (s.pixel a).isEmpty = false then .next (s.fail .invalidArgument) else .next (s.endCreate a r)) =
      (.next (s.endCreate a (if (s.pixel a).isEmpty = false then .error (.plain .invalidArgument) else r)) :
        Host.Outcome State Fault Refusal) := by
  split <;> rfl

theorem exec_desat : exec (.desat a b) s = .next (s.endCreate a
    (if (s.pixel a).isEmpty = false then .error (.plain .invalidArgument) else s.desaturate 0 (s.pixel b))) :=
  next_endCreate_unless_occupied ..

theorem exec_resize : exec (.resize a b) s = .next (s.endCreate a
    (if (s.pixel a).isEmpty = false then .error (.plain .invalidArgument)
    else s.resample 0 (s.pixel b) s.arg[1].toNat s.arg[2].toNat)) :=
  next_endCreate_unless_occupied ..

theorem exec_dct2d : exec (.dct2d a b) s = .next (s.endCreate a
    (if (s.pixel a).isEmpty = false then .error (.plain .invalidArgument) else s.transform 0 (s.pixel b))) :=
  next_endCreate_unless_occupied ..

/-! The refusals: an occupied destination, or a procedure that refuses its source. -/

theorem desat_refused (h : (s.pixel a).isEmpty = false ∨ (s.pixel b).validAs formatR8G8B8 = false) :
    exec (.desat a b) s = .next (s.fail .invalidArgument) := by
  rw [exec_desat, desaturate_eq, ← ite_or, if_pos h]
  rfl

theorem resize_refused (h : (s.pixel a).isEmpty = false ∨ (s.pixel b).validAs formatR8 = false ∨ s.arg[1] = 0 ∨
    s.arg[2] = 0 ∨ ((s.pixel b).width = 1 ∧ s.arg[1] ≠ 1) ∨ ((s.pixel b).height = 1 ∧ s.arg[2] ≠ 1)) :
    exec (.resize a b) s = .next (s.fail .invalidArgument) := by
  rw [exec_resize, resample_eq, ← ite_or, if_pos (by simpa [BitVec.toNat_eq] using h)]
  rfl

theorem dct2d_refused (h : (s.pixel a).isEmpty = false ∨ (s.pixel b).validAs formatR8 = false) :
    exec (.dct2d a b) s = .next (s.fail .invalidArgument) := by
  rw [exec_dct2d, transform_eq, ← ite_or, if_pos h]
  rfl

/-! The ends after the refusals. -/

theorem desat_accepted (he : (s.pixel a).isEmpty = true) (hv : (s.pixel b).validAs formatR8G8B8 = true) :
    exec (.desat a b) s = .next (s.endCreate a
      (if s.canAlloc 0 ((s.pixel b).width.toNat * (s.pixel b).height.toNat) = false then .error (.plain .outOfMemory)
      else .ok (grayOf (s.pixel b)))) := by
  rw [exec_desat, if_neg (by simp [he]), desaturate_eq, if_neg (by simp [hv])]

theorem resize_accepted (he : (s.pixel a).isEmpty = true) : exec (.resize a b) s =
    .next (s.endCreate a (s.resample 0 (s.pixel b) s.arg[1].toNat s.arg[2].toNat)) := by
  rw [exec_resize, if_neg (by simp [he])]

theorem dct2d_accepted (he : (s.pixel a).isEmpty = true) :
    exec (.dct2d a b) s = .next (s.endCreate a (s.transform 0 (s.pixel b))) := by
  rw [exec_dct2d, if_neg (by simp [he])]

end commands

/-! ## The gray buffer (R181, R182, R63) -/

theorem grayOf_eq (p : PixelSlot) : grayOf p =
    ⟨formatR8, p.width, p.height, BitVec.ofNat 32 (p.width.toNat * p.height.toNat), (grayOf p).data⟩ := by
  simp only [grayOf, PixelSlot.buffer, bufferBytes_R8, BitVec.ofNat_toNat, BitVec.setWidth_eq]

theorem read_grayOf {p : PixelSlot} {k : Nat} (hk : k < p.width.toNat * p.height.toNat) :
    (grayOf p).data.read k = lumaAt p.data k := by
  simp [grayOf, PixelSlot.buffer, hk]

theorem read_grayOf_of_le {p : PixelSlot} {k : Nat} (hk : p.width.toNat * p.height.toNat ≤ k) :
    (grayOf p).data.read k = 0 := by
  simp [grayOf, PixelSlot.buffer, hk]

/-- Settles O39: the tests pass, the gray buffer is allocated, and its bytes are the pixels' lumas. -/
theorem desatCompletes : Obligations.DesatCompletes := by
  unfold Obligations.DesatCompletes
  intro a b s he hv hroom
  refine ⟨(grayOf (s.pixel b)).data, ?_, fun k hk => ?_, fun k hk => read_grayOf_of_le hk⟩
  · rw [desat_accepted he hv, if_neg (mt (canAlloc_eq_false_iff _ _).mp (not_not_intro hroom)), grayOf_eq]
    rfl
  · rw [read_grayOf hk, lumaAt, luma_toNat]

/-- Settles O48: a command ends as its procedure does, which asks for storage after its refusals. -/
theorem processingCommandsFail : Obligations.ProcessingCommandsFail := by
  unfold Obligations.ProcessingCommandsFail
  refine fun a b s => ⟨desat_refused, fun he hv hfull => ?_, resize_refused, fun he hv hw hh hfull => ?_,
    fun he hv hw0 hh0 hsize hw hh hfull => ?_, dct2d_refused, fun he hv hfull => ?_⟩
  · rw [desat_accepted he hv, if_pos ((canAlloc_eq_false_iff _ _).mpr hfull)]; rfl
  · rw [resize_accepted he, hw, hh, resample_same_size hv, if_pos ((canAlloc_eq_false_iff _ _).mpr hfull)]; rfl
  · simp only [ne_eq, BitVec.toNat_eq] at hw0 hh0 hsize hw hh
    rw [resize_accepted he, resample_outOfMemory hv hw0 hh0 hsize hw hh (by rwa [Nat.zero_add])]; rfl
  · rw [dct2d_accepted he, transform_outOfMemory hv (by rwa [Nat.zero_add])]; rfl

end Sys2Proof.Proofs

/-! The family of the resampler (spec/43_resampler.md): the window as a sum over all source samples, the samples of total
weight 0, what a resampled line holds, the bytes of the two passes, and the ends of `RESIZE`. -/

namespace Sys2Proof.Proofs

open Sys2Proof.Machine Sys2Proof.Laws

-- One theorem after another, as in the tests: in one text with them, waiting threads would each hold a stack.
set_option Elab.async false

/-! ## The weight of one source sample (R193, R194) -/

theorem axisRatio_of_two_le (n : Nat) {m : Nat} (hm : 2 ≤ m) : axisRatio n m = (n - 1, m - 1) :=
  if_neg (by omega)

theorem axisRatio_snd_pos (n : Nat) {m x : Nat} (hx : x < m) : 0 < (axisRatio n m).2 := by
  rcases Nat.lt_or_ge m 2 with h1 | h2
  · obtain rfl : m = 1 := by omega
    exact Nat.one_pos
  · rw [axisRatio_of_two_le n h2]
    exact Nat.sub_pos_of_lt h2

/-- A source sample weighs nothing exactly when it is at least the radius away. -/
theorem sampleWeight_eq_zero_iff (a b x t : Nat) :
    sampleWeight a b x t = 0 ↔ x * a + a ≤ t * b ∨ t * b + a ≤ x * a := by
  rw [sampleWeight, ← Nat.cast_mul, ← Nat.cast_mul]
  omega

/-- At the ratio 1 only the sample itself weighs (R200). -/
theorem sampleWeight_of_equal_ratio (a x t : Nat) : sampleWeight a a x t = if t = x then a else 0 := by
  split
  · next h => simp [sampleWeight, h]
  · next h =>
    rw [sampleWeight_eq_zero_iff]
    rcases Nat.lt_or_gt_of_ne h with hlt | hgt
    · exact .inr (by rw [← Nat.succ_mul]; exact Nat.mul_le_mul_right a hlt)
    · exact .inl (by rw [← Nat.succ_mul]; exact Nat.mul_le_mul_right a hgt)

/-! ## The window holds every weight (R194, R196) -/

/-- A position outside the window `ft - floor(a/b) .. ft + floor(a/b) + 1` is at least the radius away. -/
theorem sampleWeight_outside_window {a b x t : Nat} (hb : 0 < b)
    (h : t < x * a / b - a / b ∨ x * a / b + a / b + 2 ≤ t) : sampleWeight a b x t = 0 := by
  have hfirst : b * (x * a / b) ≤ x * a := Nat.mul_div_le _ _
  have hnext : x * a < b * (x * a / b + 1) := Nat.lt_mul_div_succ _ hb
  have hradius : a < b * (a / b + 1) := Nat.lt_mul_div_succ _ hb
  rw [sampleWeight_eq_zero_iff]
  rcases h with hbelow | habove
  · have hscaled : b * (t + (a / b + 1)) ≤ b * (x * a / b) := Nat.mul_le_mul_left b (by omega)
    rw [Nat.mul_add, Nat.mul_comm b t] at hscaled
    omega
  · have hscaled : b * ((x * a / b + 1) + (a / b + 1)) ≤ b * t := Nat.mul_le_mul_left b (by omega)
    rw [Nat.mul_add, Nat.mul_comm b t] at hscaled
    omega

/-- A sum over the window is the sum over all source samples, where a sample without weight adds nothing. -/
theorem sum_scanWindow {n a b x : Nat} (hb : 0 < b) {f : Nat → Nat} (hf : ∀ t, sampleWeight a b x t = 0 → f t = 0) :
    ((scanWindow n a b x).map f).sum = ∑ t ∈ Finset.range n, f t := by
  have hwindow : ((scanWindow n a b x).map f).sum =
      ∑ t ∈ Finset.Ico (x * a / b + 1 - (a / b + 1)) (min (x * a / b + (a / b + 1) + 1) n), f t := rfl
  rw [hwindow]
  refine Finset.sum_subset (fun t ht => ?_) fun t ht hout => hf t (sampleWeight_outside_window hb ?_)
  · rw [Finset.mem_Ico] at ht
    exact Finset.mem_range.mpr (by omega)
  · rw [Finset.mem_range] at ht
    rw [Finset.mem_Ico] at hout
    omega

theorem totalWeight_eq_sum (n : Nat) {m x : Nat} (hx : x < m) :
    totalWeight n m x = ∑ t ∈ Finset.range n, coverageWeight n m x t :=
  sum_scanWindow (axisRatio_snd_pos n hx) fun _ h => h

/-- The sample of R194 is the weighted mean of R196. -/
theorem resampleAt_eq_mean (src : List Nat) {m x : Nat} (hx : x < m) : resampleAt src m x =
    (∑ t ∈ Finset.range src.length, coverageWeight src.length m x t * src.getD t 0) / totalWeight src.length m x :=
  congrArg (· / totalWeight src.length m x)
    (sum_scanWindow (axisRatio_snd_pos src.length hx) fun _ h => by rw [h, Nat.zero_mul])

/-! ## Zero total weight (R197) -/

/-- With `r = (x*a) mod b` the two nearest source samples are `r` below and `b - r` above: no sample weighs anything
exactly when both are at least the radius away. The last destination sample falls on the last source sample. -/
theorem weights_eq_zero_iff {a b x : Nat} (ha : 0 < a) (hx : x ≤ b) :
    (∀ t < a + 1, sampleWeight a b x t = 0) ↔ a < b ∧ a ≤ x * a % b ∧ x * a % b ≤ b - a := by
  have hdiv : b * (x * a / b) + x * a % b = x * a := Nat.div_add_mod _ _
  simp only [sampleWeight_eq_zero_iff]
  constructor
  · intro h
    have hlast : x ≠ b := by
      rintro rfl
      have hself := h a (Nat.lt_succ_self a)
      rw [Nat.mul_comm] at hself
      omega
    have hbelow : x * a / b < a := Nat.div_lt_of_lt_mul (Nat.mul_lt_mul_of_pos_right (by omega) ha)
    have hmod : x * a % b < b := Nat.mod_lt _ (by omega)
    have hfirst := h (x * a / b) (by omega)
    have hsecond := h (x * a / b + 1) (by omega)
    rw [Nat.add_mul, Nat.one_mul, Nat.mul_comm _ b] at hsecond
    rw [Nat.mul_comm _ b] at hfirst
    omega
  · rintro ⟨hab, hlo, hhi⟩ t -
    rcases Nat.lt_or_ge (x * a / b) t with hgt | hle
    · have hscaled : b * (x * a / b + 1) ≤ b * t := Nat.mul_le_mul_left b hgt
      rw [Nat.mul_add, Nat.mul_comm b t] at hscaled
      omega
    · have hscaled : b * t ≤ b * (x * a / b) := Nat.mul_le_mul_left b hle
      rw [Nat.mul_comm b t] at hscaled
      omega

theorem totalWeight_eq_zero_iff {n m x : Nat} (hn : 2 ≤ n) (hm : 2 ≤ m) (hx : x < m) : totalWeight n m x = 0 ↔
    n - 1 < m - 1 ∧ n - 1 ≤ x * (n - 1) % (m - 1) ∧ x * (n - 1) % (m - 1) ≤ (m - 1) - (n - 1) := by
  have hlast : n - 1 + 1 = n := by omega
  rw [← weights_eq_zero_iff (by omega) (by omega), hlast, totalWeight_eq_sum n hx, Finset.sum_eq_zero_iff]
  simp only [Finset.mem_range, coverageWeight, axisRatio_of_two_le n hm]

/-- The remainder needs room between `n - 1` and `m - n`; where there is room, sample 1 has its remainder there. -/
theorem exists_totalWeight_eq_zero_iff {n m : Nat} (hn : 2 ≤ n) (hm : 2 ≤ m) :
    (∃ x < m, totalWeight n m x = 0) ↔ 2 * n - 1 ≤ m := by
  constructor
  · rintro ⟨x, hx, h⟩
    have := (totalWeight_eq_zero_iff hn hm hx).mp h
    omega
  · intro h
    have hmod : 1 * (n - 1) % (m - 1) = n - 1 := by rw [Nat.one_mul, Nat.mod_eq_of_lt (by omega)]
    exact ⟨1, hm, (totalWeight_eq_zero_iff hn hm hm).mpr (by omega)⟩

/-- Settles O43: the total weight is the sum over all source samples, and is 0 where the remainder has room. -/
theorem zeroWeightCondition : Obligations.ZeroWeightCondition := by
  unfold Obligations.ZeroWeightCondition
  intro n m hn hm
  refine ⟨?_, fun x hx => totalWeight_eq_sum n hx, fun x hx => totalWeight_eq_zero_iff hn hm hx⟩
  rw [← exists_totalWeight_eq_zero_iff hn hm]
  exact exists_congr fun x => and_congr_right fun hx => by rw [totalWeight_eq_sum n hx]

theorem axisFaults_iff (n m : Nat) : axisFaults n m = true ↔ ∃ x < m, totalWeight n m x = 0 := by
  simp [axisFaults]

theorem axisFaults_eq_false_iff (n m : Nat) : axisFaults n m = false ↔ ∀ x < m, 0 < totalWeight n m x := by
  simp [axisFaults, Nat.pos_iff_ne_zero]

/-- An axis enlarged to `2n - 1` samples or more faults. -/
theorem axisFaults_of_enlarged {n m : Nat} (hn : 2 ≤ n) (hm : 2 * n - 1 ≤ m) : axisFaults n m = true :=
  (axisFaults_iff n m).mpr ((exists_totalWeight_eq_zero_iff hn (by omega)).mpr hm)

/-! ## A resampled line (R196, R198, R200) -/

section line
variable {src : List Nat} {m : Nat}

@[simp] theorem resampleLine_length (src : List Nat) (m : Nat) : (resampleLine src m).length = m := by
  simp [resampleLine]

theorem resampleLine_getD (src : List Nat) {x : Nat} (hx : x < m) :
    (resampleLine src m).getD x 0 = resampleAt src m x := by
  simp [resampleLine, hx]

theorem isResampledLine_resampleLine (h : axisFaults src.length m = false) :
    IsResampledLine src (resampleLine src m) := by
  intro x hx
  rw [resampleLine_length] at *
  rw [resampleLine_getD src hx, resampleAt_eq_mean src hx, ← totalWeight_eq_sum _ hx]
  exact ⟨(axisFaults_eq_false_iff ..).mp h x hx, rfl⟩

/-- A weighted mean lies between the bounds of the values it is taken of (R198). -/
theorem resampleAt_bounds {lo hi x : Nat} (hsrc : ∀ v ∈ src, lo ≤ v ∧ v ≤ hi) (hx : x < m)
    (hpos : 0 < totalWeight src.length m x) : lo ≤ resampleAt src m x ∧ resampleAt src m x ≤ hi := by
  have hval : ∀ t ∈ Finset.range src.length, lo ≤ src.getD t 0 ∧ src.getD t 0 ≤ hi := fun t ht => by
    rw [List.getD_eq_getElem _ _ (Finset.mem_range.mp ht)]
    exact hsrc _ (List.getElem_mem _)
  rw [resampleAt_eq_mean src hx, Nat.le_div_iff_mul_le hpos, Nat.div_le_iff_le_mul_add_pred hpos,
    totalWeight_eq_sum _ hx, Finset.mul_sum, Finset.sum_mul]
  constructor
  · refine Finset.sum_le_sum fun t ht => ?_
    rw [Nat.mul_comm lo]
    exact Nat.mul_le_mul_left _ (hval t ht).1
  · exact (Finset.sum_le_sum fun t ht => Nat.mul_le_mul_left _ (hval t ht).2).trans (Nat.le_add_right _ _)

theorem resampleLine_bounds {lo hi : Nat} (hsrc : ∀ v ∈ src, lo ≤ v ∧ v ≤ hi) (h : axisFaults src.length m = false) :
    ∀ v ∈ resampleLine src m, lo ≤ v ∧ v ≤ hi := by
  intro v hv
  obtain ⟨x, hx, rfl⟩ := List.mem_map.mp hv
  rw [List.mem_range] at hx
  exact resampleAt_bounds hsrc hx ((axisFaults_eq_false_iff ..).mp h x hx)

/-! At the ratio 1, which an axis of the same length and an axis of one result sample have, samples are copied (R200). -/

theorem totalWeight_of_equal_ratio {n c x : Nat} (hr : axisRatio n m = (c, c)) (hn : x < n) (hx : x < m) :
    totalWeight n m x = c := by
  rw [totalWeight_eq_sum n hx]
  simp only [coverageWeight, hr, sampleWeight_of_equal_ratio]
  simp [hn]

theorem resampleAt_of_equal_ratio {c x : Nat} (hr : axisRatio src.length m = (c, c)) (hc : 0 < c)
    (hn : x < src.length) (hx : x < m) : resampleAt src m x = src.getD x 0 := by
  rw [resampleAt_eq_mean src hx, totalWeight_of_equal_ratio hr hn hx]
  simp only [coverageWeight, hr, sampleWeight_of_equal_ratio, ite_mul, Nat.zero_mul]
  rw [Finset.sum_ite_eq', if_pos (Finset.mem_range.mpr hn), Nat.mul_div_cancel_left _ hc]

theorem resampleLine_same_length (h : 2 ≤ src.length) : resampleLine src src.length = src := by
  refine List.ext_getElem (resampleLine_length _ _) fun x _ hx => ?_
  rw [← List.getD_eq_getElem _ 0, ← List.getD_eq_getElem _ 0, resampleLine_getD src hx]
  exact resampleAt_of_equal_ratio (axisRatio_of_two_le _ h) (by omega) hx hx

theorem resampleLine_one (h : src ≠ []) : resampleLine src 1 = [src.getD 0 0] :=
  congrArg ([·]) (resampleAt_of_equal_ratio rfl Nat.one_pos (List.length_pos_iff.mpr h) Nat.one_pos)

end line

/-- Settles O45: a weighted mean keeps bounds, and at the ratio 1 a sample is its own mean. -/
theorem resampledLineProperties : Obligations.ResampledLineProperties := by
  unfold Obligations.ResampledLineProperties
  exact fun _ _ => ⟨fun _ _ => resampleLine_bounds, resampleLine_same_length, resampleLine_one⟩

/-- Neither a reduction to one sample nor an enlargement below `2n - 1` faults. -/
theorem axisFaults_of_axisOk {n m : Nat} (hn : n ≠ 0) (h : AxisOk n m) : axisFaults n m = false := by
  rw [axisFaults_eq_false_iff]
  intro x hx
  rcases Nat.lt_or_ge m 2 with h1 | h2
  · obtain rfl : m = 1 := by omega
    obtain rfl : x = 0 := by omega
    rw [totalWeight_of_equal_ratio rfl (Nat.pos_of_ne_zero hn) hx]
    exact Nat.one_pos
  · obtain rfl | ⟨hn2, hlt⟩ := h
    · omega
    · exact Nat.pos_of_ne_zero fun h0 => hlt.not_ge ((exists_totalWeight_eq_zero_iff hn2 h2).mp ⟨x, hx, h0⟩)

/-! ## The two passes (R192) -/

/-- An entry of a list of rows of equal length, counted row by row. -/
theorem flatten_getD_of_length {α : Type} (d : α) {n x : Nat} (hx : x < n) : ∀ (rows : List (List α)) (y : Nat),
    (∀ r ∈ rows, r.length = n) → rows.flatten.getD (y * n + x) d = (rows.getD y []).getD x d
  | [], _, _ => by simp
  | r :: rows, 0, h => by
    have hr : r.length = n := h r List.mem_cons_self
    rw [List.flatten_cons, Nat.zero_mul, Nat.zero_add, List.getD_append _ _ _ _ (by omega), List.getD_cons_zero]
  | r :: rows, y + 1, h => by
    have hr : r.length = n := h r List.mem_cons_self
    have hshift : (y + 1) * n + x = n + (y * n + x) := by ring
    rw [List.flatten_cons, hshift, List.getD_append_right _ _ _ _ (by omega), hr, Nat.add_sub_cancel_left,
      flatten_getD_of_length d hx rows y fun r' hr' => h r' (List.mem_cons_of_mem _ hr'), List.getD_cons_succ]

section passes
variable {d : Memory} {sw sh dw dh : Nat}

/-- Row `j` of the intermediate buffer. -/
def resampledRow (d : Memory) (sw dw j : Nat) : List Nat := resampleLine (rowSamples d sw j) dw

/-- Column `x` of the intermediate buffer. -/
def resampledColumn (d : Memory) (sw sh dw x : Nat) : List Nat :=
  (List.range sh).map fun j => (resampledRow d sw dw j).getD x 0

@[simp] theorem rowSamples_length (d : Memory) (w j : Nat) : (rowSamples d w j).length = w := by
  simp [rowSamples, bytes_length]

@[simp] theorem resampledColumn_length (d : Memory) (sw sh dw x : Nat) :
    (resampledColumn d sw sh dw x).length = sh := by
  simp [resampledColumn]

theorem rowSamples_eq (d : Memory) (w j : Nat) :
    rowSamples d w j = (List.range w).map fun i => (d.read (j * w + i)).toNat := by
  simp [rowSamples, Memory.bytes]

/-- The rows of the result hold the resampled columns of the intermediate buffer. -/
theorem resampleRows_eq (d : Memory) (sw sh dw dh : Nat) : resampleRows d sw sh dw dh =
    (List.range dh).map fun y => (List.range dw).map fun x =>
      (resampleLine (resampledColumn d sw sh dw x) dh).getD y 0 := by
  simp only [resampleRows, columnOf, List.map_map]
  rfl

theorem resampleRows_getD {x y : Nat} (hx : x < dw) (hy : y < dh) :
    (resampleRows d sw sh dw dh).flatten.getD (y * dw + x) 0 =
      (resampleLine (resampledColumn d sw sh dw x) dh).getD y 0 := by
  rw [resampleRows_eq, flatten_getD_of_length 0 hx]
  · simp [hx, hy]
  · simp

theorem resampledRow_le (hw : axisFaults sw dw = false) {j : Nat} : ∀ v ∈ resampledRow d sw dw j, 0 ≤ v ∧ v ≤ 255 := by
  refine resampleLine_bounds (fun v hv => ?_) (by rwa [rowSamples_length])
  obtain ⟨byte, -, rfl⟩ := List.mem_map.mp hv
  exact ⟨Nat.zero_le _, byte_le byte⟩

theorem isResampledLine_resampledRow (hw : axisFaults sw dw = false) (j : Nat) :
    IsResampledLine (rowSamples d sw j) (resampledRow d sw dw j) :=
  isResampledLine_resampleLine (by rwa [rowSamples_length])

theorem isResampledLine_column (hh : axisFaults sh dh = false) (x : Nat) :
    IsResampledLine (resampledColumn d sw sh dw x) (resampleLine (resampledColumn d sw sh dw x) dh) :=
  isResampledLine_resampleLine (by rwa [resampledColumn_length])

/-- No sample of the result is larger than a byte holds (R198). -/
theorem resampledColumn_line_le (hw : axisFaults sw dw = false) (hh : axisFaults sh dh = false) {x : Nat}
    (hx : x < dw) : ∀ v ∈ resampleLine (resampledColumn d sw sh dw x) dh, 0 ≤ v ∧ v ≤ 255 := by
  refine resampleLine_bounds (fun v hv => ?_) (by rwa [resampledColumn_length])
  obtain ⟨j, -, rfl⟩ := List.mem_map.mp hv
  have hlen : x < (resampledRow d sw dw j).length := by rwa [resampledRow, resampleLine_length]
  rw [List.getD_eq_getElem _ _ hlen]
  exact resampledRow_le hw _ (List.getElem_mem _)

/-- The store of the result of `Resize`. -/
def resampledStore (d : Memory) (sw sh dw dh : Nat) : Memory :=
  .ofBytes ((resampleRows d sw sh dw dh).flatten.map (BitVec.ofNat 8))

theorem resampledStore_read {x y : Nat} (hx : x < dw) (hy : y < dh) : (resampledStore d sw sh dw dh).read (y * dw + x) =
    BitVec.ofNat 8 ((resampleLine (resampledColumn d sw sh dw x) dh).getD y 0) := by
  rw [resampledStore, read_ofBytes, ← resampleRows_getD hx hy]
  exact List.getD_map (d := 0) _ (BitVec.ofNat 8)

/-- The bytes of a column of the result are its resampled line: no bit is lost. -/
theorem resampledStore_column (hw : axisFaults sw dw = false) (hh : axisFaults sh dh = false) {x : Nat} (hx : x < dw) :
    ((List.range dh).map fun y => ((resampledStore d sw sh dw dh).read (y * dw + x)).toNat) =
      resampleLine (resampledColumn d sw sh dw x) dh := by
  refine List.ext_getElem (by simp) fun y _ hy => ?_
  have hbyte := (resampledColumn_line_le (d := d) hw hh hx _ (List.getElem_mem hy)).2
  rw [resampleLine_length] at hy
  rw [List.getElem_map, List.getElem_range, resampledStore_read hx hy, List.getD_eq_getElem, BitVec.toNat_ofNat]
  exact Nat.mod_eq_of_lt (by omega)

theorem resampledStore_read_of_le {k : Nat} (hk : dw * dh ≤ k) : (resampledStore d sw sh dw dh).read k = 0 := by
  rw [resampledStore, read_ofBytes, List.getD_eq_default]
  rwa [List.length_map, resampleRows_length, Nat.mul_comm]

end passes

/-! ## The ends of `RESIZE` -/

section ends
variable {s : State} {dw dh : Nat} {p : PixelSlot}

/-- `Resize` to another size, once its buffers are allocated: the fault, or the two passes (R192). -/
theorem resample_allocated (hv : p.validAs formatR8 = true) (hw0 : dw ≠ 0) (hh0 : dh ≠ 0)
    (hw : p.width.toNat = 1 → dw = 1) (hh : p.height.toNat = 1 → dh = 1)
    (hsize : ¬(dw = p.width.toNat ∧ dh = p.height.toNat)) (hmid : dw * p.height.toNat ≤ bufMaxBytes)
    (hout : dw * dh ≤ bufMaxBytes) (hpool : s.poolHas (dw * p.height.toNat + dw * dh)) : s.resample 0 p dw dh =
      if axisFaults p.width.toNat dw || axisFaults p.height.toNat dh then .error (.fault .zeroWeight)
      else .ok (.buffer formatR8 dw dh (resampledStore p.data p.width.toNat p.height.toNat dw dh)) := by
  rw [resample_eq, if_neg (by simpa [hv, hw0, hh0] using ⟨hw, hh⟩), if_neg hsize, if_neg]
  · rfl
  · rw [canAlloc_pair_eq_false_iff, not_not, Nat.zero_add]
    exact ⟨hmid, hout, hpool⟩

/-- An axis that can be resampled is no axis of one sample enlarged (R193). -/
theorem eq_one_of_axisOk {n m : Nat} (h : AxisOk n m) (hn : n = 1) : m = 1 :=
  h.resolve_right fun h2 => by omega

/-- The buffer of a single-byte format has a byte for each pixel. -/
theorem buffer_R8_of_words (w h : Word) (d : Memory) : PixelSlot.buffer formatR8 w.toNat h.toNat d =
    ⟨formatR8, w, h, BitVec.ofNat 32 (w.toNat * h.toNat), d⟩ := by
  simp only [PixelSlot.buffer, bufferBytes_R8, BitVec.ofNat_toNat, BitVec.setWidth_eq]

end ends

/-- Settles O41: neither axis faults, so the store holds the two passes. -/
theorem resizeCompletes : Obligations.ResizeCompletes := by
  unfold Obligations.ResizeCompletes
  intro a b s he hv hw0 hh0 hsize hw hh hmid hout hpool
  obtain ⟨hsw, hsh⟩ := valid_dims (validAs_valid hv).1
  have hwOk := axisFaults_of_axisOk hsw hw
  have hhOk := axisFaults_of_axisOk hsh hh
  simp only [ne_eq, BitVec.toNat_eq] at hw0 hh0 hsize
  refine ⟨resampledStore (s.pixel b).data (s.pixel b).width.toNat (s.pixel b).height.toNat s.arg[1].toNat s.arg[2].toNat,
    resampledRow (s.pixel b).data (s.pixel b).width.toNat s.arg[1].toNat, ?_, fun j _ => ⟨resampleLine_length _ _, ?_⟩,
    fun x hx => ?_, fun k => resampledStore_read_of_le⟩
  · rw [resize_accepted he, resample_allocated hv hw0 hh0 (eq_one_of_axisOk hw) (eq_one_of_axisOk hh) hsize hmid hout
      hpool, if_neg (by simp [hwOk, hhOk]), buffer_R8_of_words]
    rfl
  · rw [← rowSamples_eq]
    exact isResampledLine_resampledRow hwOk j
  · rw [resampledStore_column hwOk hhOk hx]
    exact isResampledLine_column hhOk x

/-- Settles O44: the tests pass, the buffers are allocated, and the enlarged axis faults. -/
theorem resizeTakesZeroWeight : Obligations.ResizeTakesZeroWeight := by
  unfold Obligations.ResizeTakesZeroWeight
  intro a b s he hv hw0 hh0 hw hh henlarged hmid hout hpool
  simp only [ne_eq, BitVec.toNat_eq] at hw0 hh0 hw hh
  have hfaults : (axisFaults (s.pixel b).width.toNat s.arg[1].toNat ||
      axisFaults (s.pixel b).height.toNat s.arg[2].toNat) = true := by
    rw [Bool.or_eq_true]
    exact henlarged.imp (fun h => axisFaults_of_enlarged h.1 h.2) fun h => axisFaults_of_enlarged h.1 h.2
  rw [resize_accepted he, resample_allocated hv hw0 hh0 hw hh (by omega) hmid hout hpool, if_pos hfaults]
  rfl

/-- Settles O42: the clone branch of `Resize` answers the source itself, as `PB_CLONE` does. -/
theorem resizeToSameSizeClones : Obligations.ResizeToSameSizeClones := by
  unfold Obligations.ResizeToSameSizeClones
  intro a b s he hv hw hh hroom
  have hresize : exec (.resize a b) s = .next (s.endCreate a (.ok (s.pixel b))) := by
    rw [resize_accepted he, hw, hh, resample_same_size hv,
      if_neg (mt (canAlloc_eq_false_iff _ _).mp (not_not_intro hroom))]
  exact ⟨hresize, hresize.trans (pbCloneCompletes a b s he (validAs_valid hv).1 hroom).symm⟩

end Sys2Proof.Proofs

/-! The family of the frequency transform (spec/44_dct.md): the bounds of a transformed line, the samples of the two
passes, the words in which they are stored, and the end of `DCT2D`. -/

namespace Sys2Proof.Proofs

open Sys2Proof.Machine Sys2Proof.Laws

-- One theorem after another, as in the tests: in one text with them, waiting threads would each hold a stack.
set_option Elab.async false

/-! ## Truncation (R9, R214) -/

section truncation
variable {x : ℝ} {z : ℤ}

theorem abs_le_of_isTrunc (h : IsTrunc x z) : |(z : ℝ)| ≤ |x| := by
  rcases le_or_gt 0 x with hx | hx
  · have hz : 0 ≤ z := h.1 hx ▸ Int.floor_nonneg.mpr hx
    rw [abs_of_nonneg hx, abs_of_nonneg (Int.cast_nonneg hz), h.1 hx]
    exact Int.floor_le x
  · have hz : z ≤ 0 := h.2 hx ▸ Int.ceil_le.mpr (by simpa using hx.le)
    rw [abs_of_neg hx, abs_of_nonpos (Int.cast_nonpos.mpr hz), h.2 hx]
    exact neg_le_neg (Int.le_ceil x)

theorem nonneg_of_isTrunc (h : IsTrunc x z) (hx : 0 ≤ x) : 0 ≤ z := h.1 hx ▸ Int.floor_nonneg.mpr hx

end truncation

/-! ## The bounds of a line (R216) -/

section line
variable {xs : List Int}

@[simp] theorem dctLine_length (xs : List Int) : (dctLine xs).length = xs.length := (dctLine_exact xs).1

/-- The formula of R213 squared, for the factor `c` under the root of its scale: no term of the sum is larger than its
sample. -/
theorem dctFormula_sq_le {n Q : Nat} (c : ℝ) (hc : 0 ≤ c) (f θ : Nat → ℝ) (hf : ∀ k < n, f k ^ 2 ≤ Q) :
    (Real.sqrt (c / n) * ∑ k ∈ Finset.range n, f k * Real.cos (θ k)) ^ 2 ≤ c * n * Q := by
  have hterm : ∀ k ∈ Finset.range n, (f k * Real.cos (θ k)) ^ 2 ≤ Q := fun k hk => by
    rw [mul_pow]
    exact (mul_le_of_le_one_right (sq_nonneg _) (Real.cos_sq_le_one _)).trans (hf k (Finset.mem_range.mp hk))
  have hsum : (∑ k ∈ Finset.range n, f k * Real.cos (θ k)) ^ 2 ≤ n * (n * Q) := by
    refine sq_sum_le_card_mul_sum_sq.trans ?_
    rw [Finset.card_range]
    refine mul_le_mul_of_nonneg_left ?_ n.cast_nonneg
    simpa using Finset.sum_le_card_nsmul _ _ _ hterm
  rcases n.eq_zero_or_pos with rfl | hn
  · simp
  · have hn0 : (n : ℝ) ≠ 0 := Nat.cast_ne_zero.mpr hn.ne'
    calc (Real.sqrt (c / n) * ∑ k ∈ Finset.range n, f k * Real.cos (θ k)) ^ 2
        = c / n * (∑ k ∈ Finset.range n, f k * Real.cos (θ k)) ^ 2 := by rw [mul_pow, Real.sq_sqrt (by positivity)]
      _ ≤ c / n * (n * (n * Q)) := mul_le_mul_of_nonneg_left hsum (by positivity)
      _ = c * n * Q := by field_simp

/-- Output `i` of a line whose squared samples are at most `Q`, with the factor under the root of its own scale. -/
theorem dctLine_getD_sq_le {Q : Nat} (h : ∀ x ∈ xs, x.natAbs ^ 2 ≤ Q) (i : Nat) :
    ((dctLine xs).getD i 0).natAbs ^ 2 ≤ (if i = 0 then 1 else 2) * xs.length * Q := by
  rcases Nat.lt_or_ge i xs.length with hi | hi
  · have hsample : ∀ k < xs.length, (xs.getD k 0 : ℝ) ^ 2 ≤ Q := fun k hk => by
      have hk' := h _ (List.getElem_mem hk)
      rw [List.getD_eq_getElem _ _ hk, ← sq_abs, ← Int.cast_abs, ← Nat.cast_natAbs]
      exact_mod_cast hk'
    have htrunc := abs_le_of_isTrunc ((dctLine_exact xs).2 i hi)
    have hsq := (sq_le_sq.mpr htrunc).trans
      (dctFormula_sq_le (if i = 0 then 1 else 2) (by split <;> norm_num) _ _ hsample)
    rw [← sq_abs, ← Int.cast_abs, ← Nat.cast_natAbs] at hsq
    exact_mod_cast hsq
  · rw [List.getD_eq_default _ _ (by rwa [dctLine_length])]
    exact Nat.zero_le _

theorem dctLine_getD_sq_le_two {Q : Nat} (h : ∀ x ∈ xs, x.natAbs ^ 2 ≤ Q) (i : Nat) :
    ((dctLine xs).getD i 0).natAbs ^ 2 ≤ 2 * xs.length * Q := by
  have hscale : (if i = 0 then 1 else 2) ≤ 2 := by split <;> decide
  refine (dctLine_getD_sq_le h i).trans ?_
  gcongr

theorem dctLine_dc_sq_le {Q : Nat} (h : ∀ x ∈ xs, x.natAbs ^ 2 ≤ Q) :
    ((dctLine xs).getD 0 0).natAbs ^ 2 ≤ xs.length * Q := by
  simpa using dctLine_getD_sq_le h 0

/-- The cosines of the first output are all 1. -/
theorem dctLine_dc_nonneg (h : ∀ x ∈ xs, 0 ≤ x) : 0 ≤ (dctLine xs).getD 0 0 := by
  rcases xs.length.eq_zero_or_pos with h0 | hpos
  · rw [List.getD_eq_default _ _ (by rw [dctLine_length, h0])]
  · refine nonneg_of_isTrunc ((dctLine_exact xs).2 0 hpos)
      (mul_nonneg (Real.sqrt_nonneg _) (Finset.sum_nonneg fun k hk => ?_))
    have hk' := h _ (List.getElem_mem (Finset.mem_range.mp hk))
    rw [List.getD_eq_getElem _ _ (Finset.mem_range.mp hk)]
    simpa using hk'

end line

/-! ## The two passes (R212) -/

section passes
variable (m : Memory) (w h : Nat)

/-- Row `j` of the scratch buffer. -/
def scratchRow (j : Nat) : List Int := dctLine ((rowSamples m w j).map Int.ofNat)

/-- Column `i` of the scratch buffer. -/
def scratchColumn (i : Nat) : List Int := (List.range h).map fun j => (scratchRow m w j).getD i 0

@[simp] theorem scratchColumn_length (i : Nat) : (scratchColumn m w h i).length = h := by simp [scratchColumn]

theorem isDctLine_scratchRow (j : Nat) :
    IsDctLine ((List.range w).map fun i => ((m.read (j * w + i)).toNat : Int)) (scratchRow m w j) := by
  have hrow : (rowSamples m w j).map Int.ofNat = (List.range w).map fun i => ((m.read (j * w + i)).toNat : Int) := by
    rw [rowSamples_eq, List.map_map]
    rfl
  rw [← hrow]
  exact dctLine_exact _

/-- The rows of the result hold the transformed columns of the scratch buffer. -/
theorem transformRows_eq : transformRows m w h =
    (List.range h).map fun y => (List.range w).map fun i => (dctLine (scratchColumn m w h i)).getD y 0 := by
  simp only [transformRows, columnOf, List.map_map]
  rfl

variable {w h} in
theorem transformRows_getD {i j : Nat} (hi : i < w) (hj : j < h) :
    (transformRows m w h).flatten.getD (j * w + i) 0 = (dctLine (scratchColumn m w h i)).getD j 0 := by
  rw [transformRows_eq, flatten_getD_of_length 0 hi]
  · simp [hi, hj]
  · simp

/-! A source sample is a byte (R216). -/

theorem rowSamples_sq_le (j : Nat) : ∀ x ∈ (rowSamples m w j).map Int.ofNat, x.natAbs ^ 2 ≤ 255 ^ 2 := by
  simp only [rowSamples, List.mem_map]
  rintro _ ⟨_, ⟨byte, -, rfl⟩, rfl⟩
  exact Nat.pow_le_pow_left (byte_le byte) 2

theorem scratchColumn_sq_le (i : Nat) : ∀ x ∈ scratchColumn m w h i, x.natAbs ^ 2 ≤ 2 * w * 255 ^ 2 := by
  intro x hx
  obtain ⟨j, -, rfl⟩ := List.mem_map.mp hx
  simpa [scratchRow] using dctLine_getD_sq_le_two (rowSamples_sq_le m w j) i

theorem scratchColumn_zero_sq_le : ∀ x ∈ scratchColumn m w h 0, x.natAbs ^ 2 ≤ w * 255 ^ 2 := by
  intro x hx
  obtain ⟨j, -, rfl⟩ := List.mem_map.mp hx
  simpa [scratchRow] using dctLine_dc_sq_le (rowSamples_sq_le m w j)

theorem scratchColumn_zero_nonneg : ∀ x ∈ scratchColumn m w h 0, 0 ≤ x := by
  intro x hx
  obtain ⟨j, -, rfl⟩ := List.mem_map.mp hx
  refine dctLine_dc_nonneg fun v hv => ?_
  obtain ⟨n, -, rfl⟩ := List.mem_map.mp hv
  exact Int.natCast_nonneg n

/-- No sample of the result is larger than `510 sqrt(WH)`. -/
theorem resultSample_sq_le (i j : Nat) :
    ((dctLine (scratchColumn m w h i)).getD j 0).natAbs ^ 2 ≤ 510 ^ 2 * (w * h) := by
  calc _ ≤ 2 * (scratchColumn m w h i).length * (2 * w * 255 ^ 2) :=
        dctLine_getD_sq_le_two (scratchColumn_sq_le m w h i) j
    _ = 510 ^ 2 * (w * h) := by rw [scratchColumn_length]; ring

/-- The first sample of the result is at most `255 sqrt(WH)`. -/
theorem resultDc_sq_le : ((dctLine (scratchColumn m w h 0)).getD 0 0).natAbs ^ 2 ≤ 255 ^ 2 * (w * h) := by
  calc _ ≤ (scratchColumn m w h 0).length * (w * 255 ^ 2) := dctLine_dc_sq_le (scratchColumn_zero_sq_le m w h)
    _ = 255 ^ 2 * (w * h) := by rw [scratchColumn_length]; ring

/-- A buffer that can be allocated has fewer than `2^30` samples, and `510 * 2^15 < 2^24`. -/
theorem coefficient_lt_of_sq_le {v : Nat} (hv : v ^ 2 ≤ 510 ^ 2 * (w * h)) (hsize : 4 * w * h ≤ bufMaxBytes) :
    v < 2 ^ 24 := by
  rw [bufMaxBytes, Nat.mul_assoc] at hsize
  exact lt_of_pow_lt_pow_left₀ 2 (Nat.zero_le _) (by omega)

end passes

/-! ## Samples as words (R61) -/

/-- The four bytes of a word put together again. -/
theorem bytes_of_word (v : Word) : BitVec.ofNat 32 ((v.extractLsb' 0 8).toNat + 256 * ((v.extractLsb' 8 8).toNat +
    256 * ((v.extractLsb' 16 8).toNat + 256 * (v.extractLsb' 24 8).toNat))) = v := by
  refine BitVec.eq_of_toNat_eq ?_
  simp only [BitVec.toNat_ofNat, BitVec.extractLsb'_toNat, Nat.shiftRight_eq_div_pow]
  omega

/-- The low 32 bits of a signed number read as a signed word: the number, where it fits. -/
theorem toInt_lowbits {v : Int} (hv : v.natAbs < 2 ^ 31) : (BitVec.ofNat 32 (lowbits v 32)).toInt = v := by
  rw [BitVec.toInt_ofNat', lowbits, Int.toNat_of_nonneg (Int.emod_nonneg _ (by decide))]
  exact (Int.emod_bmod v _).trans (Int.bmod_eq_of_le (by push_cast; omega) (by push_cast; omega))

/-- A sample of a store of samples is the one that was stored. -/
theorem sample32_ofBytes {l : List Int} {k : Nat} (hk : k < l.length) (hv : (l.getD k 0).natAbs < 2 ^ 31) :
    (Memory.ofBytes (l.flatMap sampleBytes)).sample32 (4 * k) = l.getD k 0 := by
  have hread : ∀ r < 4, (Memory.ofBytes (l.flatMap sampleBytes)).read (4 * k + r) =
      (sampleBytes (l.getD k 0)).getD r 0 := fun r hr => by
    rw [read_ofBytes, List.flatMap_def, Nat.mul_comm, flatten_getD_of_length 0 hr]
    · simp [hk]
    · simp [sampleBytes_length]
  rw [Memory.sample32, readLE_four, ← Nat.add_zero (4 * k), hread 0 (by decide), Nat.add_zero, hread 1 (by decide),
    hread 2 (by decide), hread 3 (by decide)]
  exact (congrArg BitVec.toInt (bytes_of_word _)).trans (toInt_lowbits hv)

/-! ## The coefficient buffer -/

section coefficients
variable {p : PixelSlot}

theorem coeffsOf_eq (p : PixelSlot) : coeffsOf p = ⟨formatR32S, p.width, p.height,
    BitVec.ofNat 32 (4 * p.width.toNat * p.height.toNat), (coeffsOf p).data⟩ := by
  simp only [coeffsOf, PixelSlot.buffer, bufferBytes_R32S, BitVec.ofNat_toNat, BitVec.setWidth_eq]

/-- The stored coefficient is the transformed sample: no bit of it is lost (R216). -/
theorem sample32_coeffsOf (hsize : 4 * p.width.toNat * p.height.toNat ≤ bufMaxBytes) {i j : Nat}
    (hi : i < p.width.toNat) (hj : j < p.height.toNat) :
    (coeffsOf p).data.sample32 (4 * (j * p.width.toNat + i)) =
      (dctLine (scratchColumn p.data p.width.toNat p.height.toNat i)).getD j 0 := by
  have hlt := coefficient_lt_of_sq_le _ _ (resultSample_sq_le p.data p.width.toNat p.height.toNat i j) hsize
  have hval := transformRows_getD p.data hi hj
  have hpos : j * p.width.toNat + i < (transformRows p.data p.width.toNat p.height.toNat).flatten.length := by
    rw [transformRows_length]
    nlinarith
  rw [← hval]
  exact sample32_ofBytes hpos (by rw [hval]; omega)

theorem coeff_coeffsOf (hsize : 4 * p.width.toNat * p.height.toNat ≤ bufMaxBytes) {i j : Nat}
    (hi : i < p.width.toNat) (hj : j < p.height.toNat) :
    coeff (coeffsOf p) i j = (dctLine (scratchColumn p.data p.width.toNat p.height.toNat i)).getD j 0 := by
  rw [coeff, ← sample32_coeffsOf hsize hi hj, coeffsOf_eq]

theorem read_coeffsOf_of_le {k : Nat} (hk : 4 * p.width.toNat * p.height.toNat ≤ k) :
    (coeffsOf p).data.read k = 0 := by
  rw [coeffsOf, PixelSlot.buffer, read_ofBytes, List.getD_eq_default]
  rwa [flatMap_sampleBytes_length, transformRows_length, Nat.mul_comm p.height.toNat, ← Nat.mul_assoc]

end coefficients

/-! ## The end of `DCT2D` -/

section ends
variable {s : State} {a b : PixelIdx}

/-- `Transform` with storage for the scratch buffer and the coefficients (R212). -/
theorem transform_allocated {held : Nat} {p : PixelSlot} (hv : p.validAs formatR8 = true)
    (hsize : 4 * p.width.toNat * p.height.toNat ≤ bufMaxBytes)
    (hpool : s.poolHas (held + 8 * p.width.toNat * p.height.toNat)) : s.transform held p = .ok (coeffsOf p) := by
  rw [transform_eq, if_neg (by simp [hv]), if_neg]
  rw [canAlloc_pair_eq_false_iff, not_not]
  exact ⟨hsize, hsize, poolHas_mono (by linarith) hpool⟩

theorem dct2d_completes (he : (s.pixel a).isEmpty = true) (hv : (s.pixel b).validAs formatR8 = true)
    (hsize : 4 * (s.pixel b).width.toNat * (s.pixel b).height.toNat ≤ bufMaxBytes)
    (hpool : s.poolHas (8 * (s.pixel b).width.toNat * (s.pixel b).height.toNat)) :
    exec (.dct2d a b) s = .next (s.setPixel a (coeffsOf (s.pixel b))).succeed := by
  rw [dct2d_accepted he, transform_allocated hv hsize (by rwa [Nat.zero_add])]
  rfl

/-- Every other end than the one of `dct2d_completes` has another code. -/
theorem dct2d_succeeded {t : State} (h : exec (.dct2d a b) s = .next t) (hc : t.code = .success) :
    (s.pixel b).validAs formatR8 = true ∧ 4 * (s.pixel b).width.toNat * (s.pixel b).height.toNat ≤ bufMaxBytes ∧
      t.pixel a = coeffsOf (s.pixel b) := by
  by_cases hrefused : (s.pixel a).isEmpty = false ∨ (s.pixel b).validAs formatR8 = false
  · cases (dct2d_refused hrefused).symm.trans h
    exact Status.noConfusion hc
  · simp only [not_or, Bool.not_eq_false] at hrefused
    obtain ⟨he, hv⟩ := hrefused
    by_cases hroom : 4 * (s.pixel b).width.toNat * (s.pixel b).height.toNat ≤ bufMaxBytes ∧
        s.poolHas (8 * (s.pixel b).width.toNat * (s.pixel b).height.toNat)
    · obtain ⟨hsize, hpool⟩ := hroom
      cases (dct2d_completes he hv hsize hpool).symm.trans h
      exact ⟨hv, hsize, setPixel_pixel_self ..⟩
    · rw [dct2d_accepted he, transform_outOfMemory hv (by rwa [Nat.zero_add])] at h
      cases h
      exact Status.noConfusion hc

end ends

/-- Settles O46: the storage is there, each line is the formula's by `dctLine_exact`, and the stored samples are the
transformed columns. -/
theorem dct2dCompletes : Obligations.Dct2dCompletes := by
  unfold Obligations.Dct2dCompletes
  intro a b s he hv hsize hpool
  refine ⟨(coeffsOf (s.pixel b)).data, scratchRow (s.pixel b).data (s.pixel b).width.toNat, ?_,
    fun j _ => isDctLine_scratchRow .., fun i hi => ?_, fun k => read_coeffsOf_of_le⟩
  · rw [dct2d_completes he hv hsize hpool, coeffsOf_eq]
    rfl
  · have hcolumn : ((List.range (s.pixel b).height.toNat).map fun j =>
        (coeffsOf (s.pixel b)).data.sample32 (4 * (j * (s.pixel b).width.toNat + i))) =
        dctLine (scratchColumn (s.pixel b).data (s.pixel b).width.toNat (s.pixel b).height.toNat i) := by
      refine List.ext_getElem (by simp) fun j hj _ => ?_
      rw [List.length_map, List.length_range] at hj
      rw [List.getElem_map, List.getElem_range, sample32_coeffsOf hsize hi hj, List.getD_eq_getElem]
    rw [hcolumn]
    exact dctLine_exact _

/-- Settles O47: a line's bound holds for the rows and then for the columns, and what is stored are the columns. -/
theorem dctBounds : Obligations.DctBounds := by
  unfold Obligations.DctBounds
  refine ⟨fun xs B hB => ?_, fun a b s t h hc => ?_⟩
  · have hsq : ∀ x ∈ xs, x.natAbs ^ 2 ≤ B ^ 2 := fun x hx => Nat.pow_le_pow_left (hB x hx) 2
    refine ⟨fun y hy => ?_, dctLine_dc_sq_le hsq, dctLine_dc_nonneg⟩
    obtain ⟨i, hi, rfl⟩ := List.getElem_of_mem hy
    rw [← List.getD_eq_getElem _ 0]
    exact dctLine_getD_sq_le_two hsq i
  · obtain ⟨hv, hsize, hpixel⟩ := dct2d_succeeded h hc
    obtain ⟨hw, hh⟩ := valid_dims (validAs_valid hv).1
    have hdc := coeff_coeffsOf hsize (Nat.pos_of_ne_zero hw) (Nat.pos_of_ne_zero hh)
    rw [hpixel, hdc]
    refine ⟨fun i hi j hj => ?_, dctLine_dc_nonneg (scratchColumn_zero_nonneg _ _ _), resultDc_sq_le ..⟩
    have hbound := resultSample_sq_le (s.pixel b).data (s.pixel b).width.toNat (s.pixel b).height.toNat i j
    rw [coeff_coeffsOf hsize hi hj]
    exact ⟨hbound, coefficient_lt_of_sq_le _ _ hbound hsize⟩

end Sys2Proof.Proofs

/-! The family of the hash engine (spec/45_hash_quantpack.md): the fields of a packed block as one run of bits, the ends of
`QPACK`, the three stages of `HASH` on an accepted image and the storage they hold, the ends of `HASH`, and the 64-bit
hash, whose coefficients all quantise to 0. -/

namespace Sys2Proof.Proofs

open Sys2Proof.Machine Sys2Proof.Laws

-- One theorem after another, as in the tests: in one text with them, waiting threads would each hold a stack.
set_option Elab.async false

/-! ## Appended bits (R145, R238) -/

/-- `u` is the stream `t` with `n` bits appended at its write cursor, every other bit as it was. -/
def Appended (t u : StreamSlot) (n : Nat) (src : Nat → Bool) : Prop :=
  ∃ d : Memory, u = { t with data := d, wcur := BitVec.ofNat 32 (t.wcur.toNat + n) } ∧
    BitsCopied t.data d t.wcur.toNat n src

section appended
variable {t u v : StreamSlot} {n : Nat} {src : Nat → Bool}

/-- Only the bits below `n` are copied. -/
theorem Appended.congr {src' : Nat → Bool} (h : Appended t u n src) (heq : ∀ k < n, src k = src' k) :
    Appended t u n src' := by
  obtain ⟨d, hu, hd⟩ := h
  refine ⟨d, hu, fun c => (hd c).trans ?_⟩
  split
  · exact heq _ (by omega)
  · rfl

theorem Appended.refl_zero (t : StreamSlot) (src : Nat → Bool) : Appended t t 0 src :=
  ⟨t.data, by simp, fun _ => (if_neg (by omega)).symm⟩

theorem appended_of_append (hi : t.inv = true) (h : t.wcur.toNat + n ≤ t.capbits.toNat) :
    ∃ u, t.append src n = some u ∧ u.inv = true ∧ Appended t u n src :=
  ⟨_, append_fits h, append_inv hi (append_fits h), _, rfl, append_bits hi (append_fits h)⟩

theorem Appended.capbits (h : Appended t u n src) : u.capbits = t.capbits := by
  obtain ⟨d, rfl, -⟩ := h
  rfl

theorem Appended.wcur_toNat (h : Appended t u n src) (hfits : t.wcur.toNat + n ≤ t.capbits.toNat) :
    u.wcur.toNat = t.wcur.toNat + n := by
  obtain ⟨d, rfl, -⟩ := h
  exact toNat_ofNat_of_le (hfits.trans (word_le _))

theorem Appended.trans {n' : Nat} (h : Appended t u n src) (hfits : t.wcur.toNat + n ≤ t.capbits.toNat)
    (h' : Appended u v n' fun k => src (n + k)) : Appended t v (n + n') src := by
  have hcur := h.wcur_toNat hfits
  obtain ⟨d, rfl, hd⟩ := h
  obtain ⟨d', rfl, hd'⟩ := h'
  rw [hcur] at hd'
  refine ⟨d', ?_, bitsCopied_append hd hd'⟩
  rw [hcur, Nat.add_assoc]

end appended

/-! ## Packed fields (R237, R238) -/

section fields
variable {bpp : Nat} {t : StreamSlot}

/-- Bit `k` of a list of fields of `bpp` bits each, one behind the other. -/
def fieldBit (bpp : Nat) (es : List Nat) (k : Nat) : Bool := (es.getD (k / bpp) 0).testBit (k % bpp)

theorem fieldBit_cons_head {e : Nat} (es : List Nat) {k : Nat} (hk : k < bpp) :
    fieldBit bpp (e :: es) k = e.testBit k := by
  rw [fieldBit, Nat.div_eq_of_lt hk, Nat.mod_eq_of_lt hk, List.getD_cons_zero]

theorem fieldBit_cons_tail (hbpp : 0 < bpp) (e : Nat) (es : List Nat) (k : Nat) :
    fieldBit bpp (e :: es) (bpp + k) = fieldBit bpp es k := by
  rw [fieldBit, Nat.add_div_left _ hbpp, Nat.add_mod_left, List.getD_cons_succ, fieldBit]

/-- The fields before the write that fails are in the stream, as one run of bits. -/
theorem packFields_append (hbpp : 0 < bpp) (rest : List Nat) : ∀ (es : List Nat) (t : StreamSlot), t.inv = true →
    t.wcur.toNat + bpp * es.length ≤ t.capbits.toNat →
    ∃ u, u.inv = true ∧ Appended t u (bpp * es.length) (fieldBit bpp es) ∧
      packFields bpp (es ++ rest) t = packFields bpp rest u
  | [], t, hi, _ => ⟨t, hi, Appended.refl_zero t _, rfl⟩
  | e :: es, t, hi, hfits => by
    rw [List.length_cons, Nat.mul_succ] at hfits
    have hhead : t.wcur.toNat + bpp ≤ t.capbits.toNat := by omega
    obtain ⟨u, happend, hui, hu⟩ := appended_of_append (src := e.testBit) hi hhead
    have hcur := hu.wcur_toNat hhead
    obtain ⟨v, hvi, hv, hrest⟩ := packFields_append hbpp rest es u hui (by rw [hcur, hu.capbits]; omega)
    have hbits := (hu.congr fun k hk => (fieldBit_cons_head es hk).symm).trans hhead
      (hv.congr fun k _ => (fieldBit_cons_tail hbpp e es k).symm)
    refine ⟨v, hvi, ?_, ?_⟩
    · rwa [List.length_cons, Nat.mul_succ, Nat.add_comm]
    · rw [List.cons_append, packFields, happend]
      exact hrest

/-- A field that does not fit ends the packing. -/
theorem packFields_full {es : List Nat} (hne : es ≠ []) (h : t.capbits.toNat < t.wcur.toNat + bpp) :
    packFields bpp es t = (t, false) := by
  obtain ⟨e, es, rfl⟩ := List.exists_cons_of_ne_nil hne
  rw [packFields, append_full h]

end fields

/-! ## The block (R233, R237) -/

section block
variable {C : PixelSlot}

theorem block_eq_flatten (C : PixelSlot) : block C =
    ((List.range (blockWidth C)).map fun j => (List.range (blockWidth C)).map fun i => coeff C i j).flatten :=
  List.flatMap_def ..

@[simp] theorem block_length (C : PixelSlot) : (block C).length = blockWidth C ^ 2 := by
  rw [block_eq_flatten, flatten_length_of (blockWidth C) _ (by simp), List.length_map, List.length_range, sq]

theorem block_getD {k : Nat} (hk : k < blockWidth C ^ 2) :
    (block C).getD k 0 = coeff C (k % blockWidth C) (k / blockWidth C) := by
  rw [sq] at hk
  have hpos : 0 < blockWidth C := Nat.pos_of_mul_pos_left (Nat.zero_lt_of_lt hk)
  have hcolumn : k % blockWidth C < blockWidth C := Nat.mod_lt _ hpos
  have hrow : k / blockWidth C < blockWidth C := Nat.div_lt_of_lt_mul hk
  rw [block_eq_flatten, ← Nat.div_add_mod' k (blockWidth C), flatten_getD_of_length 0 hcolumn]
  · rw [Nat.div_add_mod']
    simp [hrow, hcolumn]
  · simp

@[simp] theorem blockFields_length (C : PixelSlot) (bpp : Nat) : (blockFields C bpp).length = blockWidth C ^ 2 := by
  rw [blockFields, List.length_map, block_length]

/-- The bits of the block's fields are those the statements name. -/
theorem fieldBit_blockFields {hs k : Nat} (hk : k < packWidth C hs * blockWidth C ^ 2) :
    fieldBit (packWidth C hs) (blockFields C (packWidth C hs)) k = packedBit C hs k := by
  have hfield : k / packWidth C hs < blockWidth C ^ 2 := Nat.div_lt_of_lt_mul hk
  have hlt : k / packWidth C hs < (block C).length := by rwa [block_length]
  have hentry := block_getD hfield
  rw [List.getD_eq_getElem _ _ hlt] at hentry
  rw [fieldBit, blockFields, List.getD_eq_getElem _ _ (by simpa using hfield), List.getElem_map, hentry]
  rfl

/-- The first `j` fields of the block, when they fit, are appended as one run of bits. -/
theorem packFields_block {hs j : Nat} {t : StreamSlot} (hi : t.inv = true) (hbpp : 1 ≤ packWidth C hs)
    (hj : j ≤ blockWidth C ^ 2) (hfits : t.wcur.toNat + packWidth C hs * j ≤ t.capbits.toNat) :
    ∃ u, u.inv = true ∧ Appended t u (packWidth C hs * j) (packedBit C hs) ∧
      packFields (packWidth C hs) (blockFields C (packWidth C hs)) t =
        packFields (packWidth C hs) ((blockFields C (packWidth C hs)).drop j) u := by
  have hlength : ((blockFields C (packWidth C hs)).take j).length = j := by simp [hj]
  obtain ⟨u, hui, hu, hrest⟩ := packFields_append hbpp ((blockFields C (packWidth C hs)).drop j)
    ((blockFields C (packWidth C hs)).take j) t hi (by rwa [hlength])
  rw [List.take_append_drop] at hrest
  rw [hlength] at hu
  refine ⟨u, hui, hu.congr fun k hk => ?_, hrest⟩
  have hfield : k / packWidth C hs < j := Nat.div_lt_of_lt_mul hk
  rw [← fieldBit_blockFields (hk.trans_le (Nat.mul_le_mul_left _ hj)), fieldBit, fieldBit,
    List.getD_eq_getElem?_getD, List.getElem?_take_of_lt hfield, ← List.getD_eq_getElem?_getD]

end block

/-! ## The ends of `QuantPack` (R233 to R238) -/

section quantPack
variable {C : PixelSlot} {hs j : Nat} {t : StreamSlot}

theorem quantPack_avgEmpty (hbw : blockWidth C = 1) : quantPack C hs t = (t, some (.fault .avgEmpty)) := if_pos hbw

theorem bitsPerCoeff_eq_zero (h : hs * 8 < blockWidth C ^ 2) : bitsPerCoeff C hs = 0 :=
  Nat.div_eq_of_lt (by rwa [← sq])

theorem quantPack_invalidResource (hbw : 2 ≤ blockWidth C) (h : hs * 8 < blockWidth C ^ 2) :
    quantPack C hs t = (t, some (.plain .invalidResource)) := by
  rw [quantPack, if_neg (by omega), if_pos (bitsPerCoeff_eq_zero h)]

/-- With a block and bits to emit, `QuantPack` packs the block's fields, and ends `ExecutionFailure(CapacityLimit)` where
one of them does not fit. -/
theorem quantPack_of_packFields {u : StreamSlot} {fits : Bool} (hbw : 2 ≤ blockWidth C) (hbpp : 1 ≤ packWidth C hs)
    (h : packFields (packWidth C hs) (blockFields C (packWidth C hs)) t = (u, fits)) :
    quantPack C hs t = (u, if fits then none else some (.inner .capacityLimit)) := by
  have hbits : bitsPerCoeff C hs ≠ 0 := by
    rw [packWidth] at hbpp
    omega
  rw [packWidth] at h
  rw [quantPack, if_neg (by omega), if_neg hbits]
  dsimp only
  rw [h]
  cases fits <;> rfl

/-- Every field fits (R240). -/
theorem quantPack_completes (hi : t.inv = true) (hbw : 2 ≤ blockWidth C) (hbpp : 1 ≤ packWidth C hs)
    (hfits : t.wcur.toNat + packWidth C hs * blockWidth C ^ 2 ≤ t.capbits.toNat) :
    ∃ u, u.inv = true ∧ Appended t u (packWidth C hs * blockWidth C ^ 2) (packedBit C hs) ∧
      quantPack C hs t = (u, none) := by
  obtain ⟨u, hui, hu, hpack⟩ := packFields_block hi hbpp (Nat.le_refl _) hfits
  rw [List.drop_eq_nil_of_le (by simp)] at hpack
  exact ⟨u, hui, hu, quantPack_of_packFields hbw hbpp hpack⟩

/-- Exactly the first `j` fields fit (R238). -/
theorem quantPack_full (hi : t.inv = true) (hbw : 2 ≤ blockWidth C) (hbpp : 1 ≤ packWidth C hs)
    (hj : j < blockWidth C ^ 2) (hfits : t.wcur.toNat + packWidth C hs * j ≤ t.capbits.toNat)
    (hfull : t.capbits.toNat < t.wcur.toNat + packWidth C hs * (j + 1)) :
    ∃ u, Appended t u (packWidth C hs * j) (packedBit C hs) ∧
      quantPack C hs t = (u, some (.inner .capacityLimit)) := by
  obtain ⟨u, -, hu, hpack⟩ := packFields_block hi hbpp hj.le hfits
  have hrest : (blockFields C (packWidth C hs)).drop j ≠ [] := by simpa [List.drop_eq_nil_iff] using hj
  rw [packFields_full hrest (by rw [hu.wcur_toNat hfits, hu.capbits]; linarith)] at hpack
  exact ⟨u, hu, quantPack_of_packFields hbw hbpp hpack⟩

end quantPack

/-! ## The ends of `QPACK` (R241) -/

section qpack
variable {s : State} {a : StreamIdx} {b : PixelIdx}

/-- A stop that leaves the stream as it was changes only the status fields. -/
theorem endPack_stopped (s : State) (a : StreamIdx) (e : Stop) : s.endPack a (s.stream a, some e) = s.stop e := by
  rw [State.endPack, setStream_self]

/-- `QPACK` refuses another source than an `R32S` buffer that holds its block, and a size out of range. -/
theorem exec_qpack : exec (.qpack a b) s =
    if (s.pixel b).validAs formatR32S = false ∨ blockWidth (s.pixel b) = 0 ∨
      (s.pixel b).height.toNat < blockWidth (s.pixel b) ∨ hashSizeMax < s.arg[1].toNat
    then .next (s.fail .invalidArgument)
    else .next (s.endPack a (quantPack (s.pixel b) s.arg[1].toNat (s.stream a))) := by
  rw [ite_or]
  rfl

theorem qpack_accepted (hv : (s.pixel b).validAs formatR32S = true) (hbw : 1 ≤ blockWidth (s.pixel b))
    (hh : blockWidth (s.pixel b) ≤ (s.pixel b).height.toNat) (hs : s.arg[1].toNat ≤ hashSizeMax) :
    exec (.qpack a b) s = .next (s.endPack a (quantPack (s.pixel b) s.arg[1].toNat (s.stream a))) := by
  rw [exec_qpack, if_neg]
  rw [hv]
  simp only [Bool.true_eq_false, false_or]
  omega

end qpack

/-- Settles O49: every field fits, so the block's fields are appended as one run of bits. -/
theorem qpackCompletes : Obligations.QpackCompletes := by
  unfold Obligations.QpackCompletes
  intro a b s hi hv hbw hh hs hbpp hfits
  obtain ⟨_, -, ⟨d, rfl, hd⟩, hpack⟩ := quantPack_completes hi hbw hbpp hfits
  exact ⟨d, by rw [qpack_accepted hv (Nat.one_le_of_lt hbw) hh hs, hpack]; rfl, hd⟩

/-- Settles O51: the tests of the command, then those of `QuantPack`, in their order. -/
theorem qpackStops : Obligations.QpackStops := by
  unfold Obligations.QpackStops
  intro a b s
  refine ⟨fun h => by rw [exec_qpack]; exact if_pos h, fun hv hbw hs => ?_, fun hv hbw hh hs hbits => ?_⟩
  · have hheight := Nat.pos_of_ne_zero (valid_dims (validAs_valid hv).1).2
    rw [qpack_accepted hv hbw.ge (hbw.le.trans hheight) hs, quantPack_avgEmpty hbw, endPack_stopped]
    rfl
  · rw [qpack_accepted hv (Nat.one_le_of_lt hbw) hh hs, quantPack_invalidResource hbw hbits, endPack_stopped]
    rfl

/-! ## The buffers of the stages (R232) -/

section buffers
variable {f : Word} {w h N : Nat} {d : Memory} {p g : PixelSlot}

theorem buffer_width (hw : w ≤ bufMaxBytes) : (PixelSlot.buffer f w h d).width.toNat = w := toNat_ofNat_of_le hw

theorem buffer_height (hh : h ≤ bufMaxBytes) : (PixelSlot.buffer f w h d).height.toNat = h := toNat_ofNat_of_le hh

theorem buffer_R8_cap (hsize : w * h ≤ bufMaxBytes) : (PixelSlot.buffer formatR8 w h d).cap.toNat = w * h := by
  rw [PixelSlot.buffer, bufferBytes_R8]
  exact toNat_ofNat_of_le hsize

theorem validAs_of_dims (hf : g.format = formatR8) (hw : g.width.toNat ≠ 0) (hh : g.height.toNat ≠ 0) :
    g.validAs formatR8 = true := by
  have hw0 : g.width ≠ 0 := fun h0 => hw (by rw [h0]; rfl)
  have hh0 : g.height ≠ 0 := fun h0 => hh (by rw [h0]; rfl)
  have hformat : formatR8 ≠ 0 ∧ formatBpp formatR8 ≠ 0 := by decide
  rw [PixelSlot.validAs, PixelSlot.valid, hf]
  simp only [Bool.and_eq_true, bne_iff_ne, beq_self_eq_true, and_true]
  exact ⟨⟨hformat, hw0⟩, hh0⟩

@[simp] theorem grayOf_width (p : PixelSlot) : (grayOf p).width = p.width := by rw [grayOf_eq]

@[simp] theorem grayOf_height (p : PixelSlot) : (grayOf p).height = p.height := by rw [grayOf_eq]

theorem grayOf_cap (hsize : p.width.toNat * p.height.toNat ≤ bufMaxBytes) :
    (grayOf p).cap.toNat = p.width.toNat * p.height.toNat := buffer_R8_cap hsize

theorem grayOf_validAs (hv : p.valid = true) : (grayOf p).validAs formatR8 = true := by
  obtain ⟨hw, hh⟩ := valid_dims hv
  exact validAs_of_dims rfl (by rwa [grayOf_width]) (by rwa [grayOf_height])

theorem thumbOf_clone (h : g.width.toNat = N ∧ g.height.toNat = N) : thumbOf g N = g := if_pos h

theorem thumbOf_resampled (h : ¬(g.width.toNat = N ∧ g.height.toNat = N)) : thumbOf g N =
    .buffer formatR8 N N (resampledStore g.data g.width.toNat g.height.toNat N N) := if_neg h

theorem thumbOf_width (g : PixelSlot) (hN : N ≤ bufMaxBytes) : (thumbOf g N).width.toNat = N := by
  by_cases h : g.width.toNat = N ∧ g.height.toNat = N
  · rw [thumbOf_clone h, h.1]
  · rw [thumbOf_resampled h, buffer_width hN]

theorem thumbOf_height (g : PixelSlot) (hN : N ≤ bufMaxBytes) : (thumbOf g N).height.toNat = N := by
  by_cases h : g.width.toNat = N ∧ g.height.toNat = N
  · rw [thumbOf_clone h, h.2]
  · rw [thumbOf_resampled h, buffer_height hN]

theorem thumbOf_cap (hcap : g.cap.toNat = g.width.toNat * g.height.toNat) (hsize : N * N ≤ bufMaxBytes) :
    (thumbOf g N).cap.toNat = N * N := by
  by_cases h : g.width.toNat = N ∧ g.height.toNat = N
  · rw [thumbOf_clone h, hcap, h.1, h.2]
  · rw [thumbOf_resampled h, buffer_R8_cap hsize]

theorem thumbOf_format (hf : g.format = formatR8) : (thumbOf g N).format = formatR8 := by
  by_cases h : g.width.toNat = N ∧ g.height.toNat = N
  · rw [thumbOf_clone h, hf]
  · rw [thumbOf_resampled h, PixelSlot.buffer]

theorem thumbOf_validAs (hf : g.format = formatR8) (hN0 : N ≠ 0) (hN : N ≤ bufMaxBytes) :
    (thumbOf g N).validAs formatR8 = true :=
  validAs_of_dims (thumbOf_format hf) (by rwa [thumbOf_width g hN]) (by rwa [thumbOf_height g hN])

@[simp] theorem coeffsOf_width (p : PixelSlot) : (coeffsOf p).width = p.width := by rw [coeffsOf_eq]

@[simp] theorem coeffsOf_height (p : PixelSlot) : (coeffsOf p).height = p.height := by rw [coeffsOf_eq]

theorem hashCoeffs_width (p : PixelSlot) (hN : N ≤ bufMaxBytes) : (hashCoeffs p N).width.toNat = N := by
  rw [hashCoeffs, coeffsOf_width, thumbOf_width _ hN]

theorem hashCoeffs_height (p : PixelSlot) (hN : N ≤ bufMaxBytes) : (hashCoeffs p N).height.toNat = N := by
  rw [hashCoeffs, coeffsOf_height, thumbOf_height _ hN]

end buffers

/-! ## The resize to a square (R192, R197) -/

section square
variable {s : State} {held N : Nat} {g : PixelSlot}

/-- The bytes a resize of `g` to side `N` allocates: the result and, but for a clone, the intermediate. -/
def squareBytes (g : PixelSlot) (N : Nat) : Nat :=
  N * N + if g.width.toNat = N ∧ g.height.toNat = N then 0 else N * g.height.toNat

theorem squareBytes_clone (h : g.width.toNat = N ∧ g.height.toNat = N) : squareBytes g N = N * N := by
  rw [squareBytes, if_pos h, Nat.add_zero]

theorem squareBytes_resampled (h : ¬(g.width.toNat = N ∧ g.height.toNat = N)) :
    squareBytes g N = N * g.height.toNat + N * N := by
  rw [squareBytes, if_neg h, Nat.add_comm]

/-- An axis of `n` samples resampled to `4t` faults where `n` is at most `2t`. -/
theorem axisFaults_four_mul_iff {n t : Nat} (hn : 2 ≤ n) (ht : 1 ≤ t) : axisFaults n (4 * t) = true ↔ n ≤ 2 * t := by
  rw [axisFaults_iff, exists_totalWeight_eq_zero_iff hn (by omega)]
  omega

theorem axisFaults_same_length {n : Nat} (hn : 2 ≤ n) : axisFaults n n = false :=
  axisFaults_of_axisOk (by omega) (.inr ⟨hn, by omega⟩)

variable (hv : g.validAs formatR8 = true) (hcap : g.cap.toNat = g.width.toNat * g.height.toNat)
  (hw : 2 ≤ g.width.toNat) (hh : 2 ≤ g.height.toNat) (hN0 : N ≠ 0) (hN : N * N ≤ bufMaxBytes)
include hv hcap hw hh hN0 hN

/-- With the storage of the resize: the fault, or the thumbnail. A clone never faults. -/
theorem resample_square (hmid : N * g.height.toNat ≤ bufMaxBytes) (hpool : s.poolHas (held + squareBytes g N)) :
    s.resample held g N N = if axisFaults g.width.toNat N || axisFaults g.height.toNat N
      then .error (.fault .zeroWeight) else .ok (thumbOf g N) := by
  rw [resample_eq, if_neg (by rw [hv]; simp only [Bool.true_eq_false, false_or]; omega)]
  by_cases hsame : g.width.toNat = N ∧ g.height.toNat = N
  · rw [squareBytes_clone hsame] at hpool
    rw [if_pos ⟨hsame.1.symm, hsame.2.symm⟩, thumbOf_clone hsame, hcap, hsame.1, hsame.2,
      axisFaults_same_length (by omega), if_neg (by rw [(canAlloc_iff ..).mpr ⟨hN, hpool⟩]; decide)]
    rfl
  · rw [squareBytes_resampled hsame] at hpool
    rw [if_neg (mt (And.imp Eq.symm Eq.symm) hsame), thumbOf_resampled hsame, if_neg]
    · rfl
    · rw [canAlloc_pair_eq_false_iff, not_not]
      exact ⟨hmid, hN, hpool⟩

/-- Without it: the failure of the clone, of the intermediate or of the result. -/
theorem resample_square_outOfMemory
    (hfull : ¬(N * g.height.toNat ≤ bufMaxBytes ∧ s.poolHas (held + squareBytes g N))) :
    s.resample held g N N = .error (.plain .outOfMemory) := by
  by_cases hsame : g.width.toNat = N ∧ g.height.toNat = N
  · have hclone : s.canAlloc held g.cap.toNat = false := by
      rw [← Bool.not_eq_true, canAlloc_iff, hcap, hsame.1, hsame.2, ← squareBytes_clone hsame]
      rw [hsame.2] at hfull
      exact fun hroom => hfull ⟨hN, hroom.2⟩
    have hresample := resample_same_size (s := s) (held := held) hv
    rwa [if_pos hclone, hsame.1, hsame.2] at hresample
  · rw [squareBytes_resampled hsame] at hfull
    exact resample_outOfMemory hv hN0 hN0 (mt (And.imp Eq.symm Eq.symm) hsame) (by omega) (by omega)
      fun ⟨hmid, _, hpool⟩ => hfull ⟨hmid, hpool⟩

end square

/-! ## The stages of `HASH` on an accepted image (R232) -/

section stages
variable {s : State} {held t : Nat} {p : PixelSlot}

theorem thumbPeak_eq (p : PixelSlot) (N : Nat) :
    thumbPeak p N = p.width.toNat * p.height.toNat + squareBytes (grayOf p) N := by
  rw [thumbPeak, squareBytes, grayOf_width, grayOf_height, Nat.add_assoc]

/-- The stages hold the most either in the resize or in the transform. -/
theorem hashPeak_eq (p : PixelSlot) (N : Nat) : hashPeak p N =
    max (thumbPeak p N) (p.width.toNat * p.height.toNat + N * N + 8 * (N * N)) := by
  rw [hashPeak, thumbPeak]
  split
  · next h => rw [h.2]; omega
  · omega

theorem poolHas_thumbPeak {N : Nat} (h : s.poolHas (held + hashPeak p N)) : s.poolHas (held + thumbPeak p N) :=
  poolHas_mono (by rw [hashPeak_eq]; omega) h

theorem poolHas_hashPeak {N : Nat} (hthumb : s.poolHas (held + thumbPeak p N))
    (htransform : s.poolHas (held + (p.width.toNat * p.height.toNat + N * N + 8 * (N * N)))) :
    s.poolHas (held + hashPeak p N) := by
  intro bytes hbytes
  have hfirst := hthumb bytes hbytes
  have hsecond := htransform bytes hbytes
  rw [hashPeak_eq]
  omega

/-- The store of an accepted image has three bytes for each pixel (R31). -/
theorem image_bytes_le (hi : p.inv = true) (hp : p.isImage) :
    3 * (p.width.toNat * p.height.toNat) ≤ bufMaxBytes := by
  obtain ⟨hv, hw, -⟩ := hp
  rcases (pixel_inv_iff p).mp hi with rfl | ⟨-, -, -, hcap, -, -⟩
  · exact absurd hw (by decide)
  · have hbpp : formatBpp formatR8G8B8 = 24 := by decide
    have hcapLe := word_le p.cap
    rw [hcap, (validAs_valid hv).2, bufferBytes, hbpp] at hcapLe
    omega

/-- A thumbnail of up to four times the least side of an image needs no intermediate larger than the largest buffer. -/
theorem image_intermediate_le (hi : p.inv = true) (hp : p.isImage) (ht : t ≤ 24) :
    4 * t * p.height.toNat ≤ bufMaxBytes := by
  calc 4 * t * p.height.toNat ≤ 96 * p.height.toNat := Nat.mul_le_mul_right _ (by omega)
    _ = 3 * (32 * p.height.toNat) := by ring
    _ ≤ 3 * (p.width.toNat * p.height.toNat) := Nat.mul_le_mul_left _ (Nat.mul_le_mul_right _ hp.2.1)
    _ ≤ bufMaxBytes := image_bytes_le hi hp

theorem desaturate_image (hi : p.inv = true) (hp : p.isImage)
    (hpool : s.poolHas (held + p.width.toNat * p.height.toNat)) : s.desaturate held p = .ok (grayOf p) := by
  have hsize := image_bytes_le hi hp
  rw [desaturate_eq, if_neg (by simp [hp.1]), if_neg]
  rw [(canAlloc_iff ..).mpr ⟨by omega, hpool⟩]
  decide

theorem desaturate_image_outOfMemory (hp : p.isImage)
    (hpool : ¬s.poolHas (held + p.width.toNat * p.height.toNat)) :
    s.desaturate held p = .error (.plain .outOfMemory) := by
  have hfull : s.canAlloc held (p.width.toNat * p.height.toNat) = false := by
    rw [← Bool.not_eq_true, canAlloc_iff]
    exact fun h => hpool h.2
  rw [desaturate_eq, if_neg (by simp [hp.1]), if_pos hfull]

/-- The side of a thumbnail is small enough for all its buffers (R243). -/
theorem thumb_side_sq_le (ht : t ≤ thumbMax) : 4 * (4 * t) * (4 * t) ≤ bufMaxBytes := by
  calc 4 * (4 * t) * (4 * t) ≤ 4 * (4 * thumbMax) * (4 * thumbMax) := by gcongr
    _ ≤ bufMaxBytes := by decide

theorem thumb_side_le (ht : t ≤ thumbMax) : 4 * t ≤ bufMaxBytes := by
  rw [thumbMax] at ht
  rw [bufMaxBytes]
  omega

/-- The thumbnail's bytes in the resize. -/
theorem thumb_bytes_le (ht : t ≤ thumbMax) : 4 * t * (4 * t) ≤ bufMaxBytes := by
  have hsize := thumb_side_sq_le ht
  rw [Nat.mul_assoc] at hsize
  omega

variable (hi : p.inv = true) (hp : p.isImage) (ht0 : 1 ≤ t) (ht : t ≤ thumbMax)
include hi hp ht0 ht

/-- The resize of the gray buffer, with storage for it: the fault where a side of the image is at most `2t` (R197). -/
theorem resample_gray (hmid : 4 * t * p.height.toNat ≤ bufMaxBytes)
    (hpool : s.poolHas (held + thumbPeak p (4 * t))) :
    s.resample (held + (grayOf p).cap.toNat) (grayOf p) (4 * t) (4 * t) =
      if p.width.toNat ≤ 2 * t ∨ p.height.toNat ≤ 2 * t then .error (.fault .zeroWeight)
      else .ok (thumbOf (grayOf p) (4 * t)) := by
  have hbytes := image_bytes_le hi hp
  have hcap : (grayOf p).cap.toNat = p.width.toNat * p.height.toNat := grayOf_cap (by omega)
  obtain ⟨hv, hw, hh⟩ := hp
  rw [thumbPeak_eq, ← Nat.add_assoc, ← hcap] at hpool
  rw [resample_square (grayOf_validAs (validAs_valid hv).1) (by rw [hcap, grayOf_width, grayOf_height])
    (by rw [grayOf_width]; omega) (by rw [grayOf_height]; omega) (by omega) (thumb_bytes_le ht)
    (by rwa [grayOf_height]) hpool, grayOf_width, grayOf_height]
  simp only [Bool.or_eq_true, axisFaults_four_mul_iff (show 2 ≤ p.width.toNat by omega) ht0,
    axisFaults_four_mul_iff (show 2 ≤ p.height.toNat by omega) ht0]

theorem resample_gray_outOfMemory
    (hfull : ¬(4 * t * p.height.toNat ≤ bufMaxBytes ∧ s.poolHas (held + thumbPeak p (4 * t)))) :
    s.resample (held + (grayOf p).cap.toNat) (grayOf p) (4 * t) (4 * t) = .error (.plain .outOfMemory) := by
  have hbytes := image_bytes_le hi hp
  have hcap : (grayOf p).cap.toNat = p.width.toNat * p.height.toNat := grayOf_cap (by omega)
  obtain ⟨hv, hw, hh⟩ := hp
  rw [thumbPeak_eq, ← Nat.add_assoc, ← hcap, ← grayOf_height p] at hfull
  exact resample_square_outOfMemory (grayOf_validAs (validAs_valid hv).1) (by rw [hcap, grayOf_width, grayOf_height])
    (by rw [grayOf_width]; omega) (by rw [grayOf_height]; omega) (by omega) (thumb_bytes_le ht) hfull

/-- No storage for the gray buffer or for the resize. -/
theorem hashStages_thumb_outOfMemory
    (hfull : ¬(4 * t * p.height.toNat ≤ bufMaxBytes ∧ s.poolHas (held + thumbPeak p (4 * t)))) :
    s.hashStages held p t = .error (.inner .outOfMemory) := by
  by_cases hgray : s.poolHas (held + p.width.toNat * p.height.toNat)
  · have hresize := resample_gray_outOfMemory hi hp ht0 ht hfull
    simp only [State.hashStages, desaturate_image hi hp hgray, thumbScale, hresize]
    rfl
  · simp only [State.hashStages, desaturate_image_outOfMemory hp hgray]
    rfl

/-- A side of the image of at most `2t` (R197). -/
theorem hashStages_zeroWeight (hmid : 4 * t * p.height.toNat ≤ bufMaxBytes)
    (hpool : s.poolHas (held + thumbPeak p (4 * t)))
    (hsmall : p.width.toNat ≤ 2 * t ∨ p.height.toNat ≤ 2 * t) :
    s.hashStages held p t = .error (.fault .zeroWeight) := by
  have hgray : s.poolHas (held + p.width.toNat * p.height.toNat) :=
    poolHas_mono (by rw [thumbPeak_eq]; omega) hpool
  have hresize := resample_gray hi hp ht0 ht hmid hpool
  rw [if_pos hsmall] at hresize
  simp only [State.hashStages, desaturate_image hi hp hgray, thumbScale, hresize]
  rfl

/-- With the thumbnail made, the stages end as the transform of it does. -/
theorem hashStages_eq_transform (hmid : 4 * t * p.height.toNat ≤ bufMaxBytes)
    (hpool : s.poolHas (held + thumbPeak p (4 * t))) (hw : 2 * t < p.width.toNat) (hh : 2 * t < p.height.toNat) :
    s.hashStages held p t =
      (s.transform (held + p.width.toNat * p.height.toNat + 4 * t * (4 * t)) (thumbOf (grayOf p) (4 * t))).mapError
        Stop.wrap := by
  have hbytes := image_bytes_le hi hp
  have hcap : (grayOf p).cap.toNat = p.width.toNat * p.height.toNat := grayOf_cap (by omega)
  have hgray : s.poolHas (held + p.width.toNat * p.height.toNat) :=
    poolHas_mono (by rw [thumbPeak_eq]; omega) hpool
  have hresize := resample_gray hi hp ht0 ht hmid hpool
  rw [if_neg (by omega)] at hresize
  simp only [State.hashStages, desaturate_image hi hp hgray, thumbScale, hresize]
  rw [thumbOf_cap (by rw [hcap, grayOf_width, grayOf_height]) (thumb_bytes_le ht), hcap]
  cases s.transform (held + p.width.toNat * p.height.toNat + 4 * t * (4 * t)) (thumbOf (grayOf p) (4 * t)) <;> rfl

/-- The peak of the transform is what its two buffers need beside the gray buffer and the thumbnail. -/
theorem hashStages_transform_outOfMemory (hw : 2 * t < p.width.toNat) (hh : 2 * t < p.height.toNat)
    (hfull : ¬s.poolHas (held + hashPeak p (4 * t))) : s.hashStages held p t = .error (.inner .outOfMemory) := by
  by_cases hthumb : 4 * t * p.height.toNat ≤ bufMaxBytes ∧ s.poolHas (held + thumbPeak p (4 * t))
  · have htransform : s.transform (held + p.width.toNat * p.height.toNat + 4 * t * (4 * t))
        (thumbOf (grayOf p) (4 * t)) = .error (.inner .outOfMemory) := by
      refine transform_outOfMemory (thumbOf_validAs rfl (by omega) (thumb_side_le ht)) fun hroom => hfull ?_
      obtain ⟨-, hpool⟩ := hroom
      rw [thumbOf_width _ (thumb_side_le ht), thumbOf_height _ (thumb_side_le ht)] at hpool
      exact poolHas_hashPeak hthumb.2 (poolHas_mono (by linarith) hpool)
    rw [hashStages_eq_transform hi hp ht0 ht hthumb.1 hthumb.2 hw hh, htransform]
    rfl
  · exact hashStages_thumb_outOfMemory hi hp ht0 ht hthumb

theorem hashStages_complete (hmid : 4 * t * p.height.toNat ≤ bufMaxBytes) (hw : 2 * t < p.width.toNat)
    (hh : 2 * t < p.height.toNat) (hpool : s.poolHas (held + hashPeak p (4 * t))) :
    s.hashStages held p t = .ok (hashCoeffs p (4 * t)) := by
  have htransform : s.transform (held + p.width.toNat * p.height.toNat + 4 * t * (4 * t))
      (thumbOf (grayOf p) (4 * t)) = .ok (hashCoeffs p (4 * t)) := by
    refine transform_allocated (thumbOf_validAs rfl (by omega) (thumb_side_le ht)) ?_ ?_
    · rw [thumbOf_width _ (thumb_side_le ht), thumbOf_height _ (thumb_side_le ht)]
      exact thumb_side_sq_le ht
    · rw [thumbOf_width _ (thumb_side_le ht), thumbOf_height _ (thumb_side_le ht)]
      refine poolHas_mono ?_ hpool
      have hpeak : p.width.toNat * p.height.toNat + 4 * t * (4 * t) + 8 * (4 * t * (4 * t)) ≤ hashPeak p (4 * t) := by
        rw [hashPeak_eq]
        exact le_max_right _ _
      linarith
  rw [hashStages_eq_transform hi hp ht0 ht hmid (poolHas_thumbPeak hpool) hw hh, htransform]
  rfl

end stages

/-! ## The ends of `Hash` (R232) -/

section hash
variable {s : State} {held thumbSize hashSize t h : Nat} {p : PixelSlot} {u : StreamSlot}

theorem hashImage_refused (hbad : ¬p.isImage ∨ thumbMax < thumbSize ∨ hashSizeMax < hashSize) :
    s.hashImage held p thumbSize hashSize u = (u, some (.plain .invalidArgument)) := by
  have hone : p.validAs formatR8G8B8 = false ∨ (p.width.toNat < srcMinDim ∨ p.height.toNat < srcMinDim) ∨
      thumbMax < thumbSize ∨ hashSizeMax < hashSize := by
    simp only [PixelSlot.isImage, not_and_or, Bool.not_eq_true, not_le, or_assoc] at hbad
    simpa only [srcMinDim, or_assoc] using hbad
  simp only [State.hashImage, ← ite_or]
  exact if_pos hone

/-- The arguments `Hash` accepts, and the sizes they stand for. -/
structure AcceptedHash (p : PixelSlot) (thumbSize hashSize t h : Nat) : Prop where
  inv : p.inv = true
  image : p.isImage
  thumb_le : thumbSize ≤ thumbMax
  hash_le : hashSize ≤ hashSizeMax
  thumb_eq : t = orDefault thumbSize thumbDefault
  hash_eq : h = orDefault hashSize hashSizeDefault

namespace AcceptedHash

variable (H : AcceptedHash p thumbSize hashSize t h)
include H

theorem thumb_pos : 1 ≤ t := by
  rw [H.thumb_eq, orDefault]
  split
  · decide
  · omega

theorem thumb_le_max : t ≤ thumbMax := by
  rw [H.thumb_eq, orDefault]
  split
  · decide
  · exact H.thumb_le

/-- None of the tests of R232 refuses. -/
theorem validated : p.validAs formatR8G8B8 ≠ false ∧ ¬(p.width.toNat < srcMinDim ∨ p.height.toNat < srcMinDim) ∧
    ¬thumbMax < thumbSize ∧ ¬hashSizeMax < hashSize := by
  obtain ⟨hv, hw, hh⟩ := H.image
  exact ⟨by simp [hv], by rw [srcMinDim]; omega, H.thumb_le.not_gt, H.hash_le.not_gt⟩

/-- A stage that stops ends the procedure, and the stream stays. -/
theorem hashImage_stopped {e : Stop} (hstop : s.hashStages held p t = .error e) :
    s.hashImage held p thumbSize hashSize u = (u, some e) := by
  obtain ⟨hv, hdims, hts, hhs⟩ := H.validated
  rw [H.thumb_eq] at hstop
  rw [State.hashImage, if_neg hv, if_neg hdims, if_neg hts, if_neg hhs, hstop]

/-- After its stages the procedure ends as `QuantPack` does. -/
theorem hashImage_packed {c : PixelSlot} (hstages : s.hashStages held p t = .ok c) :
    s.hashImage held p thumbSize hashSize u = quantPack c h u := by
  obtain ⟨hv, hdims, hts, hhs⟩ := H.validated
  rw [H.thumb_eq] at hstages
  rw [State.hashImage, if_neg hv, if_neg hdims, if_neg hts, if_neg hhs, hstages, H.hash_eq]

theorem thumb_outOfMemory
    (hfull : ¬(4 * t * p.height.toNat ≤ bufMaxBytes ∧ s.poolHas (held + thumbPeak p (4 * t)))) :
    s.hashImage held p thumbSize hashSize u = (u, some (.inner .outOfMemory)) :=
  H.hashImage_stopped (hashStages_thumb_outOfMemory H.inv H.image H.thumb_pos H.thumb_le_max hfull)

theorem zeroWeight (hmid : 4 * t * p.height.toNat ≤ bufMaxBytes) (hpool : s.poolHas (held + thumbPeak p (4 * t)))
    (hsmall : p.width.toNat ≤ 2 * t ∨ p.height.toNat ≤ 2 * t) :
    s.hashImage held p thumbSize hashSize u = (u, some (.fault .zeroWeight)) :=
  H.hashImage_stopped (hashStages_zeroWeight H.inv H.image H.thumb_pos H.thumb_le_max hmid hpool hsmall)

theorem transform_outOfMemory (hw : 2 * t < p.width.toNat) (hh : 2 * t < p.height.toNat)
    (hfull : ¬s.poolHas (held + hashPeak p (4 * t))) :
    s.hashImage held p thumbSize hashSize u = (u, some (.inner .outOfMemory)) :=
  H.hashImage_stopped (hashStages_transform_outOfMemory H.inv H.image H.thumb_pos H.thumb_le_max hw hh hfull)

theorem packs_coefficients (hmid : 4 * t * p.height.toNat ≤ bufMaxBytes) (hw : 2 * t < p.width.toNat)
    (hh : 2 * t < p.height.toNat) (hpool : s.poolHas (held + hashPeak p (4 * t))) :
    s.hashImage held p thumbSize hashSize u = quantPack (hashCoeffs p (4 * t)) h u :=
  H.hashImage_packed (hashStages_complete H.inv H.image H.thumb_pos H.thumb_le_max hmid hw hh hpool)

/-- The block of the thumbnail's coefficients has the thumbnail size as its side (R233). -/
theorem blockWidth_eq : blockWidth (hashCoeffs p (4 * t)) = t := by
  rw [blockWidth, hashCoeffs_width p (thumb_side_le H.thumb_le_max), thumbScale]
  omega

theorem packWidth_eq (hs : Nat) : packWidth (hashCoeffs p (4 * t)) hs = min 32 (hs * 8 / t ^ 2) := by
  rw [packWidth, bitsPerCoeff, H.blockWidth_eq, ← sq, bppMax]

theorem packWidth_pos (ht : 2 ≤ t) {hs : Nat} (hbits : t ^ 2 ≤ hs * 8) :
    1 ≤ packWidth (hashCoeffs p (4 * t)) hs := by
  have hquot : 1 ≤ hs * 8 / t ^ 2 := (Nat.one_le_div_iff (by positivity)).mpr hbits
  rw [H.packWidth_eq]
  omega

end AcceptedHash

end hash

/-! ## The ends of `HASH` (R231) -/

section commands
variable {s : State} {a : StreamIdx} {b : PixelIdx} {t h : Nat} {e : Stop}

theorem exec_hash : exec (.hash a b) s =
    .next (s.endPack a (s.hashImage 0 (s.pixel b) s.arg[0].toNat s.arg[1].toNat (s.stream a))) := rfl

/-- A `Hash` that stops without an append changes only the status fields. -/
theorem hash_stopped
    (hstop : s.hashImage 0 (s.pixel b) s.arg[0].toNat s.arg[1].toNat (s.stream a) = (s.stream a, some e)) :
    exec (.hash a b) s = .next (s.stop e) := by
  rw [exec_hash, hstop, endPack_stopped]

/-- A size of 0 stands for its default, as an argument word and as a number. -/
theorem orDefault_word (v : Word) (d : Nat) : orDefault v.toNat d = if v = 0 then d else v.toNat :=
  if_congr (BitVec.toNat_eq (y := 0)).symm rfl rfl

theorem acceptedHash_of_args (hi : (s.pixel b).inv = true) (hp : (s.pixel b).isImage) (hts : s.arg[0].toNat ≤ 2900)
    (hhs : s.arg[1].toNat ≤ 2147483648) (ht : t = if s.arg[0] = 0 then 16 else s.arg[0].toNat)
    (hh : h = if s.arg[1] = 0 then 32 else s.arg[1].toNat) :
    AcceptedHash (s.pixel b) s.arg[0].toNat s.arg[1].toNat t h where
  inv := hi
  image := hp
  thumb_le := hts
  hash_le := hhs
  thumb_eq := ht.trans (orDefault_word ..).symm
  hash_eq := hh.trans (orDefault_word ..).symm

theorem hash_packs (H : AcceptedHash (s.pixel b) s.arg[0].toNat s.arg[1].toNat t h)
    (hmid : 4 * t * (s.pixel b).height.toNat ≤ bufMaxBytes) (hw : 2 * t < (s.pixel b).width.toNat)
    (hh : 2 * t < (s.pixel b).height.toNat) (hpool : s.poolHas (hashPeak (s.pixel b) (4 * t))) :
    exec (.hash a b) s = .next (s.endPack a (quantPack (hashCoeffs (s.pixel b) (4 * t)) h (s.stream a))) := by
  rw [exec_hash, H.packs_coefficients hmid hw hh (by rwa [Nat.zero_add])]

end commands

/-- Settles O50: the fields before the one that does not fit are one run of bits; `HASH` packs the coefficients of its
stages. -/
theorem packCapacityLimit : Obligations.PackCapacityLimit := by
  unfold Obligations.PackCapacityLimit
  refine ⟨fun a b s j hi hv hbw hh hs hbpp hj hfits hfull => ?_,
    fun a b s t h j hi hpi hp hts hhs ht hh ht2 hw hheight hbits hmid hpool hj hfits hfull => ?_⟩
  · obtain ⟨_, ⟨d, rfl, hd⟩, hpack⟩ := quantPack_full hi hbw hbpp hj hfits hfull
    exact ⟨d, by rw [qpack_accepted hv (Nat.one_le_of_lt hbw) hh hs, hpack]; rfl, hd⟩
  · have H := acceptedHash_of_args hpi hp hts hhs ht hh
    rw [← H.packWidth_eq] at hfits hfull ⊢
    obtain ⟨_, ⟨d, rfl, hd⟩, hpack⟩ := quantPack_full hi (by rwa [H.blockWidth_eq]) (H.packWidth_pos ht2 hbits)
      (by rwa [H.blockWidth_eq]) hfits hfull
    exact ⟨d, by rw [hash_packs H hmid hw hheight hpool, hpack]; rfl, hd⟩

/-- Settles O52: the stages have their storage and do not fault, and every field of their coefficients fits. -/
theorem hashCompletes : Obligations.HashCompletes := by
  unfold Obligations.HashCompletes
  intro a b s t h hi hpi hp hts hhs ht hh ht2 hw hheight hbits hmid hpool hfits
  have H := acceptedHash_of_args hpi hp hts hhs ht hh
  rw [← H.packWidth_eq] at hfits ⊢
  obtain ⟨_, -, ⟨d, rfl, hd⟩, hpack⟩ := quantPack_completes hi (by rwa [H.blockWidth_eq]) (H.packWidth_pos ht2 hbits)
    (by rwa [H.blockWidth_eq])
  rw [H.blockWidth_eq] at hpack hd
  exact ⟨d, by rw [hash_packs H hmid hw hheight hpool, hpack]; rfl, hd⟩

/-- Settles O54: the first stage that stops ends the command, and the stream stays. -/
theorem hashStops : Obligations.HashStops := by
  unfold Obligations.HashStops
  refine ⟨fun a b s hbad => hash_stopped (hashImage_refused (.inr hbad)), fun a b s t h hpi hp hts hhs ht hh => ?_⟩
  have H := acceptedHash_of_args hpi hp hts hhs ht hh
  have hzero (n : Nat) : s.poolHas (0 + n) ↔ s.poolHas n := by rw [Nat.zero_add]
  refine ⟨fun hfull => hash_stopped (H.thumb_outOfMemory (by rwa [hzero])),
    fun hmid hpool hsmall => hash_stopped (H.zeroWeight hmid (by rwa [hzero]) hsmall),
    fun hw hheight hfull => hash_stopped (H.transform_outOfMemory hw hheight (by rwa [hzero])),
    fun hone hpool hmid => ?_, fun ht2 hw hheight hbits hmid hpool => ?_⟩
  · subst hone
    obtain ⟨-, hw, hheight⟩ := hp
    rw [hash_packs H (by rwa [Nat.mul_one]) (by omega) (by omega) hpool, quantPack_avgEmpty H.blockWidth_eq,
      endPack_stopped]
    rfl
  · rw [hash_packs H hmid hw hheight hpool, quantPack_invalidResource (by rwa [H.blockWidth_eq])
      (by rwa [H.blockWidth_eq]), endPack_stopped]
    rfl

/-! ## The stages in a row (R230, R232) -/

section stagesInARow
variable {s s' : State} {held held' thumb : Nat} {p g q c : PixelSlot}
  {r : Except Stop PixelSlot} {a : PixelIdx}

/-- In an unbounded pool only the size of a buffer counts (R46). -/
theorem canAlloc_unbounded (h : s.cfg.poolBytes = none) (held n : Nat) :
    s.canAlloc held n = decide (n ≤ bufMaxBytes) := by
  simp only [State.canAlloc, h, Bool.and_true]

/-! So a stage ends alike in two states with an unbounded pool, whatever is held beside it. -/

theorem desaturate_unbounded (h : s.cfg.poolBytes = none) (h' : s'.cfg.poolBytes = none) :
    s.desaturate held p = s'.desaturate held' p := by
  simp only [State.desaturate, canAlloc_unbounded h, canAlloc_unbounded h']

theorem resample_unbounded (h : s.cfg.poolBytes = none) (h' : s'.cfg.poolBytes = none) (dw dh : Nat) :
    s.resample held p dw dh = s'.resample held' p dw dh := by
  simp only [State.resample, canAlloc_unbounded h, canAlloc_unbounded h']

theorem transform_unbounded (h : s.cfg.poolBytes = none) (h' : s'.cfg.poolBytes = none) :
    s.transform held p = s'.transform held' p := by
  simp only [State.transform, canAlloc_unbounded h, canAlloc_unbounded h']

theorem hashStages_of_stages (hgray : s.desaturate held p = .ok g)
    (hsmall : s.resample (held + g.cap.toNat) g (4 * thumb) (4 * thumb) = .ok q)
    (hcoeffs : s.transform (held + g.cap.toNat + q.cap.toNat) q = .ok c) : s.hashStages held p thumb = .ok c := by
  simp only [State.hashStages, thumbScale, hgray, hsmall, hcoeffs]

theorem stop_code_ne_success {e : Stop} (he : StopOk e) : (s.stop e).code ≠ .success := by
  cases e with
  | fail code sub => exact he.1
  | fault cause => exact Status.noConfusion

/-- What a processing command that ended with success left: the buffer its procedure answered in the destination, and the
streams and the parameters as they were. -/
structure Made (s : State) (a : PixelIdx) (r : Except Stop PixelSlot) (t : State) : Prop where
  answered : r = .ok (t.pixel a)
  bs : t.bs = s.bs
  cfg : t.cfg = s.cfg

theorem endCreate_made (hr : BufferOk s 0 r) {t : State}
    (ht : Host.Outcome.next (φ := Fault) (ρ := Refusal) (s.endCreate a
      (if (s.pixel a).isEmpty = false then .error (.plain .invalidArgument) else r)) = .next t)
    (hc : t.code = .success) : Made s a r t := by
  obtain rfl := Host.Outcome.next.inj ht
  split at hc
  · exact absurd hc Status.noConfusion
  · next hempty =>
    rw [if_neg hempty]
    cases r with
    | error e => exact absurd hc (stop_code_ne_success hr)
    | ok p => exact ⟨congrArg Except.ok (setPixel_pixel_self ..).symm, rfl, rfl⟩

variable {b : PixelIdx} {k : StreamIdx} {t : State}

theorem desat_made (h : exec (.desat a b) s = .next t) (hc : t.code = .success) :
    Made s a (s.desaturate 0 (s.pixel b)) t :=
  endCreate_made (desaturate_ok s 0 _) (exec_desat.symm.trans h) hc

theorem resize_made (hi : (s.pixel b).inv = true) (h : exec (.resize a b) s = .next t) (hc : t.code = .success) :
    Made s a (s.resample 0 (s.pixel b) s.arg[1].toNat s.arg[2].toNat) t :=
  endCreate_made (resample_ok s 0 _ _ _ hi (word_le _) (word_le _)) (exec_resize.symm.trans h) hc

theorem dct2d_made (h : exec (.dct2d a b) s = .next t) (hc : t.code = .success) :
    Made s a (s.transform 0 (s.pixel b)) t :=
  endCreate_made (transform_ok s 0 _) (exec_dct2d.symm.trans h) hc

/-- The gray buffer is a legal slot content (R31). -/
theorem gray_inv (h : Made s a (s.desaturate 0 p) t) : (t.pixel a).inv = true := by
  have hr := desaturate_ok s 0 p
  rw [h.answered] at hr
  exact hr.1

theorem qpack_succeeded (hi : (s.stream k).inv = true) (h : exec (.qpack k b) s = .next t) (hc : t.code = .success) :
    ∃ u, quantPack (s.pixel b) s.arg[1].toNat (s.stream k) = (u, none) ∧ t.stream k = u := by
  rw [exec_qpack] at h
  split at h
  · cases h
    exact absurd hc Status.noConfusion
  · obtain rfl := Host.Outcome.next.inj h
    have hstop := (quantPack_spec (s.pixel b) s.arg[1].toNat (s.stream k) hi).2.2.2.2.2
    generalize quantPack (s.pixel b) s.arg[1].toNat (s.stream k) = r at hstop hc
    obtain ⟨u, _ | e⟩ := r
    · exact ⟨u, rfl, setStream_stream_self ..⟩
    · exact absurd hc (stop_code_ne_success (hstop e rfl).1)

/-- The side `4 * thumbSize` as an argument word (R232). -/
theorem thumb_side_word {v : Word} (h : v.toNat ≤ 2900) : (4 * v).toNat = 4 * v.toNat := by
  bv_omega

end stagesInARow

/-- Settles O53: each command in the row answers the buffer its stage answers inside `HASH`. -/
theorem hashIsTheStagesInARow : Obligations.HashIsTheStagesInARow := by
  unfold Obligations.HashIsTheStagesInARow
  intro a b x y z s s₁ s₂ s₃ s₄ hInv hpool hp hts0 hts hhs0 hhs hdesat hc₁ hresize hc₂ hdct hc₃ hqpack hc₄
  have hgray := desat_made hdesat hc₁
  have hgrayInv : (s₁.pixel x).inv = true := gray_inv hgray
  have hsmall := resize_made (by exact hgrayInv) hresize hc₂
  have hcoeffs := dct2d_made hdct hc₃
  have hpool₁ : s₁.cfg.poolBytes = none := by rw [hgray.cfg, hpool]
  have hpool₂ : s₂.cfg.poolBytes = none := by rw [hsmall.cfg]; exact hpool₁
  have hbs : s₃.bs = s.bs := by rw [hcoeffs.bs, hsmall.bs]; exact hgray.bs
  have hstream : ({ s₃ with arg := s.arg } : State).stream a = s.stream a := congrArg (·[a]) hbs
  obtain ⟨u, hpack, hu⟩ := qpack_succeeded (by rw [hstream]; exact hInv.streams a) hqpack hc₄
  rw [hstream] at hpack
  have hstages : s.hashStages 0 (s.pixel b) s.arg[0].toNat = .ok (s₃.pixel z) := by
    refine hashStages_of_stages hgray.answered ?_ ((transform_unbounded hpool hpool₂).trans hcoeffs.answered)
    rw [← thumb_side_word hts]
    exact (resample_unbounded hpool hpool₁ _ _).trans hsmall.answered
  have H : AcceptedHash (s.pixel b) s.arg[0].toNat s.arg[1].toNat s.arg[0].toNat s.arg[1].toNat :=
    acceptedHash_of_args (hInv.pixels b) hp hts hhs (if_neg hts0).symm (if_neg hhs0).symm
  refine ⟨(s.setStream a u).succeed, ?_, rfl, (setStream_stream_self s a u).trans hu.symm⟩
  rw [exec_hash, H.hashImage_packed hstages]
  exact congrArg (fun r => Host.Outcome.next (s.endPack a r)) hpack

/-! ## One bit per coefficient (R243, R244) -/

section ranges
variable {C q : PixelSlot} {B : Nat}

/-- No coefficient of a square of side `N` is larger than `510 N` (R216). -/
theorem coeff_coeffsOf_natAbs_le {N : Nat} (hw : q.width.toNat = N) (hh : q.height.toNat = N)
    (hsize : 4 * N * N ≤ bufMaxBytes) {i j : Nat} (hi : i < N) (hj : j < N) :
    (coeff (coeffsOf q) i j).natAbs ≤ 510 * N := by
  subst hw
  have hsq := resultSample_sq_le q.data q.width.toNat q.height.toNat i j
  rw [← coeff_coeffsOf (by rwa [hh]) hi (by rwa [hh]), hh, ← sq, ← Nat.mul_pow] at hsq
  exact (Nat.pow_le_pow_iff_left (by decide)).mp hsq

theorem mem_block {c : Int} (hc : c ∈ block C) :
    ∃ i j, i < blockWidth C ∧ j < blockWidth C ∧ coeff C i j = c := by
  simp only [block, List.mem_flatMap, List.mem_map, List.mem_range] at hc
  obtain ⟨j, hj, i, hi, rfl⟩ := hc
  exact ⟨i, j, hi, hj, rfl⟩

theorem natAbs_sum_le : ∀ (l : List Int), (∀ c ∈ l, c.natAbs ≤ B) → l.sum.natAbs ≤ B * l.length
  | [], _ => Nat.zero_le _
  | c :: l, h => by
    have hhead := h c List.mem_cons_self
    have htail := natAbs_sum_le l fun c' hc' => h c' (List.mem_cons_of_mem _ hc')
    have hadd := Int.natAbs_add_le c l.sum
    rw [List.sum_cons, List.length_cons, Nat.mul_succ]
    omega

/-- The mean of coefficients of at most `B` is at most `B` (R234). -/
theorem blockAverage_natAbs_le (hbw : 1 ≤ blockWidth C) (hB : ∀ c ∈ block C, c.natAbs ≤ B) :
    (blockAverage C).natAbs ≤ B := by
  have hsum := natAbs_sum_le (block C).tail fun c hc => hB c (List.mem_of_mem_tail hc)
  have hcount : (((blockWidth C * blockWidth C : Nat) : Int) - 1).natAbs = blockWidth C ^ 2 - 1 := by
    have hpos : 1 ≤ blockWidth C * blockWidth C := Nat.mul_pos hbw hbw
    rw [sq]
    omega
  rw [List.length_tail, block_length, Nat.mul_comm] at hsum
  rw [blockAverage, tdiv, Int.natAbs_tdiv, hcount]
  exact Nat.div_le_of_le_mul hsum

/-- A coefficient that is nearer to the average than `tm` is quantised to 0 by the divisor `2 * tm`. -/
theorem quantise_of_natAbs_lt {average c : Int} {tm : Nat} (bpp : Nat) (h : (c - average).natAbs < tm) :
    quantise average tm (2 * tm) bpp c = 0 := by
  have hquot : tdiv (c - average + tm) (2 * tm : Nat) = 0 := Int.tdiv_eq_zero_of_lt (by omega) (by omega)
  rw [quantise, hquot, lowbits, Int.zero_emod]
  rfl

theorem quantDivisor_one (h : 1 ≤ twiceMax C) : quantDivisor C 1 = 2 * twiceMax C := by
  rw [quantDivisor, Nat.sub_self, Nat.pow_zero, Nat.div_one]
  omega

/-- One bit per coefficient: every bit is 0 where the coefficients are small against `twiceMax`. -/
theorem packedBit_eq_false {hs k : Nat} (hbpp : packWidth C hs = 1) (hB : ∀ c ∈ block C, c.natAbs ≤ B)
    (hlt : 2 * B < twiceMax C) (hk : k < blockWidth C ^ 2) : packedBit C hs k = false := by
  have hbw : 1 ≤ blockWidth C := Nat.pos_of_ne_zero fun h0 => by simp [h0] at hk
  have haverage := blockAverage_natAbs_le hbw hB
  have hmem : ∀ e ∈ blockFields C 1, e = 0 := by
    intro e he
    obtain ⟨c, hc, rfl⟩ := List.mem_map.mp he
    have hcB := hB c hc
    rw [quantDivisor_one (by omega)]
    exact quantise_of_natAbs_lt 1 (by omega)
  rw [← fieldBit_blockFields (by rwa [hbpp, Nat.one_mul]), hbpp, fieldBit, Nat.div_one,
    List.getD_eq_getElem _ _ (by simpa using hk), hmem _ (List.getElem_mem _), Nat.zero_testBit]

/-- The coefficients of a thumbnail are far below `twiceMax` (R243). -/
theorem packedBit_hashCoeffs {p : PixelSlot} {t hs k : Nat} (ht0 : 1 ≤ t) (ht : t ≤ thumbMax)
    (hbpp : packWidth (hashCoeffs p (4 * t)) hs = 1) (hk : k < blockWidth (hashCoeffs p (4 * t)) ^ 2) :
    packedBit (hashCoeffs p (4 * t)) hs k = false := by
  have hside := thumb_side_le ht
  refine packedBit_eq_false (B := 510 * (4 * t)) hbpp (fun c hc => ?_) ?_ hk
  · obtain ⟨i, j, hi, hj, rfl⟩ := mem_block hc
    rw [blockWidth, hashCoeffs_width p hside, thumbScale] at hi hj
    exact coeff_coeffsOf_natAbs_le (thumbOf_width _ hside) (thumbOf_height _ hside) (thumb_side_sq_le ht)
      (by omega) (by omega)
  · rw [twiceMax, hashCoeffs_width p hside, hashCoeffs_height p hside]
    nlinarith

/-- All bits appended to a fresh stream are 0, so its store stays empty. -/
theorem appended_fresh_of_false {u : StreamSlot} {n m : Nat} {src : Nat → Bool} (hi : u.inv = true)
    (h : Appended (.fresh n) u m src) (hsrc : ∀ k < m, src k = false) :
    u = { StreamSlot.fresh n with wcur := BitVec.ofNat 32 m } := by
  obtain ⟨d, rfl, hd⟩ := h
  have hempty : d = [] := eq_of_getBit (stream_data_wf hi) rfl fun c => by
    rw [hd c]
    split
    · exact (hsrc _ (by omega)).trans (by simp [Memory.getBit, Memory.read])
    · rfl
  rw [hempty]
  simp [StreamSlot.fresh]

end ranges

/-! ## The two hashes of fixed size (R242, R261) -/

section fixedSize
variable {s : State} {held : Nat} {p : PixelSlot}

/-- A `Hash` at one bit per coefficient into a fresh stream that holds it leaves only zero bits (R244). -/
theorem AcceptedHash.blank {thumbSize hashSize t h n : Nat} (H : AcceptedHash p thumbSize hashSize t h) (ht2 : 2 ≤ t)
    (hone : h * 8 / t ^ 2 = 1) (hn : t ^ 2 ≤ 8 * n) (hcap : 8 * n ≤ bufMaxBytes)
    (hmid : 4 * t * p.height.toNat ≤ bufMaxBytes) (hw : 2 * t < p.width.toNat) (hh : 2 * t < p.height.toNat)
    (hpool : s.poolHas (held + hashPeak p (4 * t))) :
    s.hashImage held p thumbSize hashSize (.fresh n) =
      ({ StreamSlot.fresh n with wcur := BitVec.ofNat 32 (t ^ 2) }, none) := by
  have hbpp : packWidth (hashCoeffs p (4 * t)) h = 1 := by rw [H.packWidth_eq, hone]; rfl
  have hcapbits : (StreamSlot.fresh n).capbits.toNat = 8 * n := toNat_ofNat_of_le hcap
  obtain ⟨u, hui, hu, hpack⟩ := quantPack_completes (C := hashCoeffs p (4 * t)) (hs := h) (fresh_inv n)
    (by rwa [H.blockWidth_eq]) hbpp.ge
    (by rw [hcapbits, hbpp, H.blockWidth_eq]; simpa [StreamSlot.fresh] using hn)
  rw [hbpp, Nat.one_mul, H.blockWidth_eq] at hu
  rw [H.packs_coefficients hmid hw hh hpool, hpack, appended_fresh_of_false hui hu fun k hk =>
    packedBit_hashCoeffs H.thumb_pos H.thumb_le_max hbpp (by rwa [H.blockWidth_eq])]

theorem canAlloc_eq_true {n : Nat} (hn : n ≤ bufMaxBytes) (h : s.poolHas (held + n)) : s.canAlloc held n ≠ false := by
  rw [(canAlloc_iff ..).mpr ⟨hn, h⟩]
  decide

theorem canAlloc_eq_false {n : Nat} (h : ¬s.poolHas (held + n)) : s.canAlloc held n = false := by
  rw [← Bool.not_eq_true, canAlloc_iff]
  exact fun hroom => h hroom.2

/-! `Hash64` (R242): thumbnails of side 32 and 64 bits. -/

theorem acceptedHash64 (hi : p.inv = true) (hp : p.isImage) : AcceptedHash p 8 8 8 8 :=
  ⟨hi, hp, by decide, by decide, rfl, rfl⟩

theorem hash64_stopped {e : Stop} (h8 : s.poolHas 8)
    (h : s.hashImage 8 p 8 8 (.fresh 8) = (.fresh 8, some e)) : s.hash64 p = .error e.wrap := by
  rw [State.hash64, if_neg (canAlloc_eq_true (by decide) h8), hash64Bytes, h]

theorem hash64_refused (hp : ¬p.isImage) (h8 : s.poolHas 8) : s.hash64 p = .error (.inner .invalidArgument) :=
  hash64_stopped h8 (hashImage_refused (.inl hp))

/-- The thumbnail is no larger than the image on either axis, so only the storage can be missing. -/
theorem hash64_outOfMemory
    (h : ¬s.poolHas 8 ∨ (p.inv = true ∧ p.isImage ∧ ¬s.poolHas (8 + hashPeak p 32))) :
    s.hash64 p = .error (.inner .outOfMemory) := by
  by_cases h8 : s.poolHas 8
  · obtain ⟨hi, hp, hpeak⟩ := h.resolve_left (not_not_intro h8)
    have H := acceptedHash64 hi hp
    obtain ⟨-, hw, hh⟩ := hp
    exact hash64_stopped h8 (H.transform_outOfMemory (by omega) (by omega) hpeak)
  · rw [State.hash64, if_pos (canAlloc_eq_false (by rwa [Nat.zero_add]))]

theorem hash64_completes (hi : p.inv = true) (hp : p.isImage) (hpool : s.poolHas (8 + hashPeak p 32)) :
    s.hash64 p = .ok 0 := by
  have hmid := image_intermediate_le hi hp (t := 8) (by decide)
  have H := acceptedHash64 hi hp
  obtain ⟨-, hw, hh⟩ := hp
  have hhash := H.blank (s := s) (held := 8) (n := 8) (by decide) (by decide) (by decide) (by decide) hmid (by omega)
    (by omega) hpool
  rw [State.hash64, hash64Bytes, if_neg (canAlloc_eq_true (by decide) (poolHas_mono (by omega) hpool)), hhash]
  rfl

/-! The hash of the comparator (R261): thumbnails of side 64 and 256 bits. -/

theorem acceptedDefaultHash (hi : p.inv = true) (hp : p.isImage) : AcceptedHash p 0 0 16 32 :=
  ⟨hi, hp, by decide, by decide, rfl, rfl⟩

theorem defaultHash_stopped {e : Stop} (h32 : s.poolHas (held + 32))
    (h : s.hashImage (held + 32) p 0 0 (.fresh 32) = (.fresh 32, some e)) :
    s.defaultHash held p = .error e.wrap := by
  rw [State.defaultHash, cmpBytes, if_neg (canAlloc_eq_true (by decide) h32), h]

theorem defaultHash_refused (hp : ¬p.isImage) (h32 : s.poolHas (held + 32)) :
    s.defaultHash held p = .error (.inner .invalidArgument) :=
  defaultHash_stopped h32 (hashImage_refused (.inl hp))

/-- No storage for the stream, for the thumbnail or, where the thumbnail can be made, for its transform. -/
theorem defaultHash_outOfMemory (h : ¬s.poolHas (held + 32) ∨ (p.inv = true ∧ p.isImage ∧
    (¬s.poolHas (held + 32 + thumbPeak p 64) ∨
      (33 ≤ p.width.toNat ∧ 33 ≤ p.height.toNat ∧ ¬s.poolHas (held + 32 + hashPeak p 64))))) :
    s.defaultHash held p = .error (.inner .outOfMemory) := by
  by_cases h32 : s.poolHas (held + 32)
  · obtain ⟨hi, hp, hpeak⟩ := h.resolve_left (not_not_intro h32)
    have H := acceptedDefaultHash hi hp
    rcases hpeak with hthumb | ⟨hw, hh, hpeak⟩
    · exact defaultHash_stopped h32 (H.thumb_outOfMemory fun hroom => hthumb hroom.2)
    · exact defaultHash_stopped h32 (H.transform_outOfMemory (by omega) (by omega) hpeak)
  · rw [State.defaultHash, cmpBytes, if_pos (canAlloc_eq_false h32)]

theorem defaultHash_completes (hi : p.inv = true) (hp : p.isImage) (hw : 33 ≤ p.width.toNat)
    (hh : 33 ≤ p.height.toNat) (hpool : s.poolHas (held + 32 + hashPeak p 64)) :
    s.defaultHash held p = .ok { StreamSlot.fresh 32 with wcur := 256 } := by
  have hhash := (acceptedDefaultHash hi hp).blank (s := s) (held := held + 32) (n := 32) (by decide) (by decide)
    (by decide) (by decide) (image_intermediate_le hi hp (by decide)) (by omega) (by omega) hpool
  rw [State.defaultHash, cmpBytes, if_neg (canAlloc_eq_true (by decide) (poolHas_mono (by omega) hpool)), hhash]
  rfl

end fixedSize

/-! ## The ends of the commands that hash an image (R242, R261, R262) -/

section ends
variable {s : State} {b c : PixelIdx} {e : Stop}

theorem exec_hash64_stopped (h : s.hash64 (s.pixel b) = .error e) : exec (.hash64 b) s = .next (s.stop e) := by
  simp only [exec, execHash64, h]

theorem exec_cmp64_stopped_first (h : s.hash64 (s.pixel b) = .error e) : exec (.cmp64 b c) s = .next (s.stop e) := by
  simp only [exec, execCmp64, State.compareImages64, h]

theorem exec_cmp64_stopped_second {v : BitVec 64} (hb : s.hash64 (s.pixel b) = .ok v)
    (hc : s.hash64 (s.pixel c) = .error e) : exec (.cmp64 b c) s = .next (s.stop e) := by
  simp only [exec, execCmp64, State.compareImages64, hb, hc]

theorem exec_cmp_stopped_first (h : s.defaultHash 0 (s.pixel b) = .error e) :
    exec (.cmp b c) s = .next (s.stop e) := by
  simp only [exec, execCmp, State.compareImages, h]

theorem exec_cmp_stopped_second {t : StreamSlot} (hb : s.defaultHash 0 (s.pixel b) = .ok t)
    (hc : s.defaultHash 32 (s.pixel c) = .error e) : exec (.cmp b c) s = .next (s.stop e) := by
  simp only [exec, execCmp, State.compareImages, cmpBytes, hb, hc]

end ends

/-- Settles O55: each image's hash is refused or lacks storage; the second image counts after the first one's hash. -/
theorem hashCommandsFail : Obligations.HashCommandsFail := by
  unfold Obligations.HashCommandsFail
  have hzero (s : State) (n : Nat) : s.poolHas (0 + n) ↔ s.poolHas n := by rw [Nat.zero_add]
  refine ⟨fun a b s hp => hash_stopped (hashImage_refused (.inl hp)), fun b c s => ⟨fun hp h8 => ?_, fun hp h32 => ?_,
    fun hfull => ?_, fun hfull => ?_⟩, fun b c s hi hp hpool => ?_, fun b c s hi hp hw hh hpool => ?_⟩
  · have hstop := hash64_refused hp h8
    exact ⟨exec_hash64_stopped hstop, exec_cmp64_stopped_first hstop⟩
  · exact exec_cmp_stopped_first (defaultHash_refused hp (by rwa [hzero]))
  · have hstop := hash64_outOfMemory hfull
    exact ⟨exec_hash64_stopped hstop, exec_cmp64_stopped_first hstop⟩
  · exact exec_cmp_stopped_first (defaultHash_outOfMemory (by rwa [Nat.zero_add]))
  · have hfirst := hash64_completes hi hp hpool
    exact ⟨fun hc => exec_cmp64_stopped_second hfirst (hash64_refused hc (poolHas_mono (by omega) hpool)),
      fun hci hc hfull => exec_cmp64_stopped_second hfirst (hash64_outOfMemory (.inr ⟨hci, hc, hfull⟩))⟩
  · have hfirst : s.defaultHash 0 (s.pixel b) = .ok _ := defaultHash_completes hi hp hw hh (by rwa [Nat.zero_add])
    have h64 : s.poolHas (32 + 32) := poolHas_mono (by rw [hashPeak]; omega) hpool
    exact ⟨fun hc => exec_cmp_stopped_second hfirst (defaultHash_refused hc h64),
      fun hci hc hfull => exec_cmp_stopped_second hfirst (defaultHash_outOfMemory (.inr ⟨hci, hc, hfull⟩))⟩

/-- Settles O56: at one bit per coefficient every bit of the hash is 0. -/
theorem hash64GivesZero : Obligations.Hash64GivesZero := by
  unfold Obligations.Hash64GivesZero
  intro b s hi hp hpool
  simp only [exec, execHash64, hash64_completes hi hp hpool]
  rfl

end Sys2Proof.Proofs

/-! The family of the comparator (spec/46_comparator.md): what its two loops count on equal hashes, the end of either
command after two hashes, and the fault of the default hash of an image 32 samples wide or high. Every accepted hash is
blank (`defaultHash_completes`, `hash64_completes`), so the two compared are equal. -/

namespace Sys2Proof.Proofs

open Sys2Proof.Machine Sys2Proof.Laws

-- As in the families above: the waiting threads of one text would each hold a stack.
set_option Elab.async false

/-! ## The loops on equal hashes (R261, R262) -/

section loops

/-- A turn of the loop of `CMP` reads one of the bits that remain (R154, R261). -/
theorem remaining_advance_one {t : StreamSlot} (h : t.rcur.toNat < t.wcur.toNat) :
    (t.advance 1).remaining = t.remaining - 1 := by
  have hcur : (BitVec.ofNat 32 (t.rcur.toNat + 1)).toNat = t.rcur.toNat + 1 :=
    toNat_ofNat_of_le (h.trans_le (word_le _))
  simp only [StreamSlot.remaining, StreamSlot.advance, hcur]
  omega

/-- A stream matches itself in every bit that the loop reads (R263(c)). -/
theorem matchBits_self : ∀ (fuel : Nat) (t : StreamSlot), matchBits fuel t t = min fuel t.remaining
  | 0, _ => (Nat.zero_min _).symm
  | fuel + 1, t => by
    rw [matchBits]
    split
    · next h =>
      obtain ⟨hmore, -⟩ := h
      rw [if_pos rfl, matchBits_self fuel, remaining_advance_one hmore, StreamSlot.remaining]
      omega
    · rw [StreamSlot.remaining]
      omega

/-- Equal 64-bit hashes differ in no bit (R263(a)). -/
theorem popcount64_xor_self (v : BitVec 64) : popcount64 (v ^^^ v) = 0 := by
  simp [popcount64]

/-- No differing bit is the similarity 1.0 under either divisor (R262). -/
theorem similarity256ths_zero (div : Cmp64Div) : similarity256ths div 0 = 256 := by
  cases div <;> rfl

end loops

/-! ## The ends of `CMP` and `CMP64` after two hashes (R261, R262) -/

section ends
variable {s : State} {b c : PixelIdx}

/-- `CMP` of two images with the same unread default hash counts each of its bits. -/
theorem exec_cmp_of_same_hash {t : StreamSlot} (hb : s.defaultHash 0 (s.pixel b) = .ok t)
    (hc : s.defaultHash 32 (s.pixel c) = .ok t) (hunread : t.rcur = 0) :
    exec (.cmp b c) s = .next (s.succeed (f32Of256ths t.wcur.toNat) (BitVec.ofNat 32 t.wcur.toNat)) := by
  have hmatch : matchBits t.wcur.toNat t t = t.wcur.toNat := by
    rw [matchBits_self, StreamSlot.remaining, hunread]
    exact Nat.min_self _
  simp only [exec, execCmp, State.compareImages, cmpBytes, hb, hc, if_neg (not_not_intro (rfl : t.wcur = t.wcur)),
    hmatch]

/-- `CMP64` of two images with the same 64-bit hash finds no differing bit. -/
theorem exec_cmp64_of_same_hash {v : BitVec 64} (hb : s.hash64 (s.pixel b) = .ok v)
    (hc : s.hash64 (s.pixel c) = .ok v) : exec (.cmp64 b c) s = .next (s.succeed (f32Of256ths 256) 0) := by
  simp only [exec, execCmp64, State.compareImages64, hb, hc, popcount64_xor_self, similarity256ths_zero]
  rfl

end ends

/-! ## The fault of the default hash (R197, R261) -/

section fault
variable {s : State} {held : Nat} {p : PixelSlot}

/-- A side of 32 samples, the least that `Hash` accepts, is too short for the default thumbnail of side 64. -/
theorem defaultHash_zeroWeight (hi : p.inv = true) (hp : p.isImage) (hside : p.width.toNat = 32 ∨ p.height.toNat = 32)
    (hpool : s.poolHas (held + 32 + thumbPeak p 64)) : s.defaultHash held p = .error (.fault .zeroWeight) :=
  defaultHash_stopped (poolHas_mono (by omega) hpool) ((acceptedDefaultHash hi hp).zeroWeight
    (image_intermediate_le hi hp (by decide)) hpool (hside.imp Eq.le Eq.le))

end fault

/-- Settles O57: both default hashes are the same blank stream of 256 bits. -/
theorem cmpGivesOne : Obligations.CmpGivesOne := by
  unfold Obligations.CmpGivesOne
  intro b c s hbi hci hb hc hbw hbh hcw hch hbpool hcpool
  have hfirst := defaultHash_completes (held := 0) hbi hb hbw hbh (by rwa [Nat.zero_add])
  have hsecond := defaultHash_completes (held := 32) hci hc hcw hch hcpool
  exact exec_cmp_of_same_hash hfirst hsecond rfl

/-- Settles O58: the default hash of the image with a side of 32 samples takes the fault, the second one's beside the
stream of the first. -/
theorem cmpTakesZeroWeight : Obligations.CmpTakesZeroWeight := by
  unfold Obligations.CmpTakesZeroWeight
  intro b c s hbi hb
  refine ⟨fun hside hpool => ?_, fun hbw hbh hbpool hci hc hside hcpool => ?_⟩
  · exact exec_cmp_stopped_first (defaultHash_zeroWeight hbi hb hside (by rwa [Nat.zero_add]))
  · have hfirst := defaultHash_completes (held := 0) hbi hb hbw hbh (by rwa [Nat.zero_add])
    exact exec_cmp_stopped_second hfirst (defaultHash_zeroWeight hci hc hside hcpool)

/-- Settles O59: both 64-bit hashes are 0. -/
theorem cmp64GivesOne : Obligations.Cmp64GivesOne := by
  unfold Obligations.Cmp64GivesOne
  intro b c s hbi hci hb hc hbpool hcpool
  exact exec_cmp64_of_same_hash (hash64_completes hbi hb hbpool) (hash64_completes hci hc hcpool)

end Sys2Proof.Proofs

/-! The family of the system command (spec/47_system.md) and of failures and faults (spec/60_exceptions.md): the commands
that always succeed, the engine while `FAULT` is 1, which command raises which fault, and what a failed command leaves. -/

namespace Sys2Proof.Proofs

open Sys2Proof.Machine Sys2Proof.Laws

-- One theorem after another, as in the tests: in one text with them, waiting threads would each hold a stack.
set_option Elab.async false

/-! ## The commands that always succeed -/

/-- The smaller of two words is one of them: no bit is lost. -/
theorem ofNat_min_toNat (v w : Word) : BitVec.ofNat 32 (min v.toNat w.toNat) = if v.toNat ≤ w.toNat then v else w := by
  rw [Nat.min_def, apply_ite (BitVec.ofNat 32)]
  simp only [BitVec.ofNat_toNat, BitVec.setWidth_eq]

/-- Settles O21: each command is one update of the state and `succeed`; the seek takes the smaller of two words. -/
theorem unconditionalCommandsComplete : Obligations.UnconditionalCommandsComplete := by
  unfold Obligations.UnconditionalCommandsComplete
  refine fun s => ⟨rfl, fun _ => rfl, fun _ => rfl, fun a => ?_⟩
  rw [exec_bsSeek, ofNat_min_toNat]
  rfl

/-! ## The engine while `FAULT` is 1 (R292, R77) -/

section faulted
variable {s t : State} {c : FaultCause} {off : Nat} {v : Word}

theorem writeCmd_faulted (hf : s.fault = some c) (w : Word) : s.writeCmd w = .next s := by
  rw [State.writeCmd, hf]
  rfl

theorem writeWindow_faulted (hf : s.fault = some c) (v : Word) : s.writeWindow v = s := by
  rw [State.writeWindow, hf]
  rfl

theorem readWindow_faulted (hf : s.fault = some c) : s.readWindow = (0, s) := by
  rw [State.readWindow, hf]
  rfl

/-- No read has a side effect, that of `WIN_DATA` included. -/
theorem hostRead_faulted (hf : s.fault = some c) (off : Nat) : (s.hostRead off).2 = s := by
  by_cases hwindow : off = 0x038
  · rw [State.hostRead, if_pos hwindow, readWindow_faulted hf]
  · rw [hostRead_of_ne_window s hwindow]

theorem writeCtrl_faulted (hf : s.fault = some c) (v : Word) :
    (s.writeCtrl v).fault = some c ∨ v.getLsbD 0 = true := by
  by_cases hreset : v.getLsbD 0 = true
  · exact .inr hreset
  · exact .inl (by rw [State.writeCtrl, if_neg hreset, hf])

/-- Of the writes only that of bit 0 to `CTRL` can clear the fault. -/
theorem hostWrite_faulted (hf : s.fault = some c) (h : s.hostWrite off v = .next t) :
    t.fault = some c ∨ off = 0x004 ∧ v.getLsbD 0 = true := by
  unfold State.hostWrite at h
  split at h
  case h_1 =>
    cases h
    exact (writeCtrl_faulted hf v).imp_right fun hreset => ⟨rfl, hreset⟩
  case h_2 =>
    rw [writeCmd_faulted hf] at h
    cases h
    exact .inl hf
  case h_9 =>
    rw [writeWindow_faulted hf] at h
    cases h
    exact .inl hf
  all_goals
    cases h
    exact .inl hf

/-- A move that has a next state is an access of the interface. -/
theorem atRegister_next {k : Host.Outcome State Fault Refusal} (h : atRegister off k = .next t) : k = .next t := by
  unfold atRegister at h
  split at h
  · cases h
  · split at h
    · cases h
    · exact h

/-- Only a reset leaves the fault state (R297). -/
theorem hostMove_faulted (hf : s.fault = some c) {m : HostMove} (h : hostMove s m = .next t) :
    t.fault = some c ∨ (∃ v, m = .write 0x004 v ∧ v.getLsbD 0 = true) ∨ m = .reset := by
  cases m with
  | read off =>
    cases atRegister_next h
    exact .inl ((congrArg State.fault (hostRead_faulted hf off)).trans hf)
  | write off v =>
    refine (hostWrite_faulted hf (atRegister_next h)).imp_right fun hreset => .inl ?_
    obtain ⟨rfl, hbit⟩ := hreset
    exact ⟨v, rfl, hbit⟩
  | reset => exact .inr (.inr rfl)

theorem step_faulted (hf : s.fault = some c) (h : step s = .next t) :
    t.fault = some c ∨ (∃ v r, s.pending = .write 0x004 v :: r ∧ v.getLsbD 0 = true) ∨ ∃ r, s.pending = .reset :: r := by
  cases hp : s.pending with
  | nil =>
    cases (step_of_idle hp).symm.trans h
    exact .inl hf
  | cons m rest =>
    rcases hostMove_faulted (s := { s with pending := rest }) hf ((step_of_pending hp).symm.trans h) with
      hstays | ⟨v, rfl, hbit⟩ | rfl
    · exact .inl hstays
    · exact .inr (.inl ⟨v, rest, rfl, hbit⟩)
    · exact .inr (.inr ⟨rest, rfl⟩)

end faulted

/-- Settles O10: the moves at `CMD` and `WIN_DATA` test the fault; the other registers are read, written and reset as in
an engine without one. -/
theorem faultedEngineIsFrozen : Obligations.FaultedEngineIsFrozen := by
  unfold Obligations.FaultedEngineIsFrozen
  intro s c rest hf
  have hf' : ({ s with pending := rest } : State).fault = some c := hf
  refine ⟨fun w hp => ?_, fun v hp => ?_, fun hp => ?_,
    fun off h4 hlt hne => registerReadsAreIdempotent.1 s off rest h4 hlt hne,
    fun i v => (registerWritesStore s v rest).1 i, fun v hp => step_write hp rfl (by decide),
    fun v hp => step_write hp rfl (by decide), (resetClearsEngine s rest).1, fun t => step_faulted hf⟩
  · exact (step_write hp rfl (by decide)).trans (writeCmd_faulted hf' w)
  · rw [step_writeWindow hp, writeWindow_faulted hf']
  · rw [step_readWindow hp, readWindow_faulted hf']

/-! ## The faults a procedure can raise (R291) -/

/-- A stop is a failure or one of the faults `F`. -/
def OnlyFaults (F : List FaultCause) (e : Stop) : Prop := ∀ c, e = .fault c → c ∈ F

/-- The procedure ends well, fails, or takes one of the faults `F`. -/
def RaisesOnly {α : Type} (F : List FaultCause) (r : Except Stop α) : Prop := ∀ e, r = .error e → OnlyFaults F e

section onlyFaults
variable {F : List FaultCause} {e : Stop}

theorem onlyFaults_plain (F : List FaultCause) (c : Status) : OnlyFaults F (.plain c) := nofun

theorem onlyFaults_inner (F : List FaultCause) (sub : Status) : OnlyFaults F (.inner sub) := nofun

theorem onlyFaults_fault {c : FaultCause} (h : c ∈ F) : OnlyFaults F (.fault c) := by
  rintro _ ⟨⟩
  exact h

/-- A fault stays the fault it is in the operation that called the stage (R288). -/
theorem OnlyFaults.wrap (h : OnlyFaults F e) : OnlyFaults F e.wrap := by
  cases e with
  | fail c sub => cases c <;> exact nofun
  | fault c => exact h

end onlyFaults

namespace RaisesOnly

variable {α : Type} {F : List FaultCause} {r r' : Except Stop α}

theorem ok (x : α) : RaisesOnly F (.ok x) := nofun

theorem error {e : Stop} (h : OnlyFaults F e) : RaisesOnly F (.error e : Except Stop α) := by
  rintro _ ⟨⟩
  exact h

theorem plain (c : Status) : RaisesOnly F (.error (.plain c) : Except Stop α) := error (onlyFaults_plain F c)

theorem inner (sub : Status) : RaisesOnly F (.error (.inner sub) : Except Stop α) := error (onlyFaults_inner F sub)

/-- A test of the procedure: each branch may use what the test said. -/
theorem ite {p : Prop} {_ : Decidable p} (h : p → RaisesOnly F r) (h' : ¬p → RaisesOnly F r') :
    RaisesOnly F (if p then r else r') := by
  by_cases hp : p
  · rw [if_pos hp]; exact h hp
  · rw [if_neg hp]; exact h' hp

/-- A test at which the procedure fails. -/
theorem guard {p : Prop} {_ : Decidable p} {c : Status} (h : RaisesOnly F r) :
    RaisesOnly F (if p then .error (.plain c) else r) := ite (fun _ => plain c) fun _ => h

end RaisesOnly

section procedures
variable {F : List FaultCause} {s : State} {held : Nat} {p : PixelSlot}

theorem allocZeroed_raisesOnly (f : Word) (w h : Nat) : RaisesOnly F (s.allocZeroed f w h) :=
  .ite (fun _ => .ok _) fun _ => .plain _

theorem createBuffer_raisesOnly (a : PixelIdx) (f : Word) (w h : Nat) : RaisesOnly F (s.createBuffer a f w h) :=
  .guard (.guard (.guard (.guard (.guard (allocZeroed_raisesOnly f w h)))))

theorem cloneBuffer_raisesOnly (a b : PixelIdx) : RaisesOnly F (s.cloneBuffer a b) :=
  .guard (.guard (.ite (fun _ => .ok _) fun _ => .plain _))

theorem redimBuffer_raisesOnly (a : PixelIdx) (w h : Nat) : RaisesOnly F (s.redimBuffer a w h) :=
  .guard (.guard (allocZeroed_raisesOnly _ w h))

theorem desaturate_raisesOnly (held : Nat) (p : PixelSlot) : RaisesOnly F (s.desaturate held p) :=
  .guard (.guard (.ok _))

theorem transform_raisesOnly (held : Nat) (p : PixelSlot) : RaisesOnly F (s.transform held p) :=
  .guard (.ite (fun _ => .inner _) fun _ => .ite (fun _ => .inner _) fun _ => .ok _)

/-- `Resize` takes one fault, for an axis with a sample of total weight 0 (R192, R197). -/
theorem resample_raisesOnly {dw dh : Nat}
    (hzero : (axisFaults p.width.toNat dw || axisFaults p.height.toNat dh) = true → .zeroWeight ∈ F) :
    RaisesOnly F (s.resample held p dw dh) := by
  rw [resample_eq]
  exact .guard (.ite (fun _ => .guard (.ok _)) fun _ =>
    .guard (.ite (fun hfaults => .error (onlyFaults_fault (hzero hfaults))) fun _ => .ok _))

/-! The buffers the stages of `Hash` pass on (R232). -/

theorem desaturate_eq_ok {g : PixelSlot} (h : s.desaturate held p = .ok g) : g = grayOf p := by
  rw [desaturate_eq] at h
  split at h
  · cases h
  · split at h
    · cases h
    · exact (Except.ok.inj h).symm

theorem transform_eq_ok {c : PixelSlot} (h : s.transform held p = .ok c) : c = coeffsOf p := by
  rw [transform_eq] at h
  split at h
  · cases h
  · split at h
    · cases h
    · exact (Except.ok.inj h).symm

theorem resample_width {q : PixelSlot} {dw dh : Nat} (hdw : dw ≤ bufMaxBytes) (h : s.resample held p dw dh = .ok q) :
    q.width.toNat = dw := by
  rw [resample_eq] at h
  split at h
  · cases h
  split at h
  case isTrue hsame =>
    split at h
    · cases h
    · cases h
      exact hsame.1.symm
  case isFalse =>
    split at h
    · cases h
    split at h
    · cases h
    · cases h
      exact buffer_width hdw

/-- `Hash` takes the fault of its resize, for an image too small for the thumbnail. -/
theorem hashStages_raisesOnly {t : Nat}
    (hzero : (axisFaults p.width.toNat (4 * t) || axisFaults p.height.toNat (4 * t)) = true → .zeroWeight ∈ F) :
    RaisesOnly F (s.hashStages held p t) := by
  unfold State.hashStages
  cases hgray : s.desaturate held p with
  | error e => exact .error (desaturate_raisesOnly held p e hgray).wrap
  | ok gray =>
    dsimp only
    have hresize : RaisesOnly F (s.resample (held + gray.cap.toNat) gray (thumbScale * t) (thumbScale * t)) :=
      resample_raisesOnly (by rwa [desaturate_eq_ok hgray, grayOf_width, grayOf_height])
    cases hsmall : s.resample (held + gray.cap.toNat) gray (thumbScale * t) (thumbScale * t) with
    | error e => exact .error (hresize e hsmall).wrap
    | ok small =>
      dsimp only
      cases hcoeffs : s.transform (held + gray.cap.toNat + small.cap.toNat) small with
      | error e => exact .error (transform_raisesOnly _ small e hcoeffs).wrap
      | ok coeffs => exact .ok coeffs

/-- The block of the coefficients has the thumbnail size as its side (R233). -/
theorem hashStages_blockWidth {t : Nat} {c : PixelSlot} (ht : t ≤ thumbMax) (h : s.hashStages held p t = .ok c) :
    blockWidth c = t := by
  unfold State.hashStages at h
  split at h
  · cases h
  split at h
  · cases h
  next small hsmall =>
    split at h
    · cases h
    next coeffs hcoeffs =>
      cases h
      have hwidth : small.width.toNat = 4 * t := resample_width (thumb_side_le ht) hsmall
      rw [transform_eq_ok hcoeffs, blockWidth, coeffsOf_width, hwidth, thumbScale]
      omega

end procedures

/-! ## The ends of the packing procedures (R233, R232, R289) -/

/-- `u` is the stream `t` with some number of bits appended, no more than fit. -/
def PartlyAppended (t u : StreamSlot) : Prop :=
  ∃ (d : Memory) (n : Nat), u = { t with wcur := BitVec.ofNat 32 (t.wcur.toNat + n), data := d } ∧
    t.wcur.toNat + n ≤ t.capbits.toNat ∧
    ∀ c, c < t.wcur.toNat ∨ t.wcur.toNat + n ≤ c → d.getBit c = t.data.getBit c

theorem partlyAppended_packFields (bpp : Nat) (es : List Nat) {t : StreamSlot} (hi : t.inv = true) :
    PartlyAppended t (packFields bpp es t).1 := by
  obtain ⟨hu, hcap, hrcur, hle, hbits⟩ := packFields_spec bpp es t hi
  generalize (packFields bpp es t).1 = u at hu hcap hrcur hle hbits
  obtain ⟨-, hwcur, -⟩ := (stream_inv_iff u).mp hu
  have hsum : t.wcur.toNat + (u.wcur.toNat - t.wcur.toNat) = u.wcur.toNat := by omega
  refine ⟨u.data, u.wcur.toNat - t.wcur.toNat, ?_, ?_, ?_⟩ <;> rw [hsum]
  · rw [BitVec.ofNat_toNat, BitVec.setWidth_eq, ← hcap, ← hrcur]
  · rwa [← hcap]
  · exact hbits

/-- The ways in which a procedure that packs into the stream `t` ends: all is packed, it stops before it packs, or the
stream is full before all is packed. -/
inductive PackEnd (F : List FaultCause) (t : StreamSlot) : StreamSlot × Option Stop → Prop
  | packed (u : StreamSlot) : PackEnd F t (u, none)
  | stopped {e : Stop} (he : OnlyFaults F e) : PackEnd F t (t, some e)
  | full {u : StreamSlot} (hu : t.inv = true → PartlyAppended t u) : PackEnd F t (u, some (.inner .capacityLimit))

section packEnd
variable {F : List FaultCause} {t : StreamSlot} {s : State} {held : Nat} {p : PixelSlot}

theorem PackEnd.ite {c : Prop} {_ : Decidable c} {r r' : StreamSlot × Option Stop} (h : c → PackEnd F t r)
    (h' : ¬c → PackEnd F t r') : PackEnd F t (if c then r else r') := by
  by_cases hc : c
  · rw [if_pos hc]; exact h hc
  · rw [if_neg hc]; exact h' hc

theorem PackEnd.guard {c : Prop} {_ : Decidable c} {r : StreamSlot × Option Stop} {code : Status}
    (h : ¬c → PackEnd F t r) : PackEnd F t (if c then (t, some (.plain code)) else r) :=
  .ite (fun _ => .stopped (onlyFaults_plain F code)) h

theorem PackEnd.onlyFaults {r : StreamSlot × Option Stop} (h : PackEnd F t r) {e : Stop} (he : r.2 = some e) :
    OnlyFaults F e := by
  cases h with
  | packed u => cases he
  | stopped hstop => cases he; exact hstop
  | full hu => cases he; exact onlyFaults_inner F _

/-- `QuantPack` takes one fault, for a block of one coefficient (R234). -/
theorem quantPack_packEnd (hs : Nat) (havg : blockWidth p = 1 → .avgEmpty ∈ F) : PackEnd F t (quantPack p hs t) := by
  refine .ite (fun hone => .stopped (onlyFaults_fault (havg hone))) fun _ => .guard fun _ => ?_
  have hpart := partlyAppended_packFields (min bppMax (bitsPerCoeff p hs))
    (blockFields p (min bppMax (bitsPerCoeff p hs))) (t := t)
  dsimp only
  split
  · exact .packed _
  next u heq =>
    rw [heq] at hpart
    exact .full hpart

/-- The faults of `Hash` are those of its resize and of its packing (R232). -/
theorem hashImage_packEnd (held thumbSize hashSize : Nat)
    (hzero : p.isImage → (axisFaults p.width.toNat (4 * orDefault thumbSize thumbDefault) ||
      axisFaults p.height.toNat (4 * orDefault thumbSize thumbDefault)) = true → .zeroWeight ∈ F)
    (havg : orDefault thumbSize thumbDefault = 1 → .avgEmpty ∈ F) :
    PackEnd F t (s.hashImage held p thumbSize hashSize t) := by
  refine .guard fun hv => .guard fun hdims => .guard fun hts => .guard fun _ => ?_
  rw [srcMinDim, not_or, not_lt, not_lt] at hdims
  have himage : p.isImage := ⟨Bool.not_eq_false _ ▸ hv, hdims⟩
  have hthumb : orDefault thumbSize thumbDefault ≤ thumbMax := by
    unfold orDefault
    split
    · decide
    · exact Nat.le_of_not_lt hts
  cases hstages : s.hashStages held p (orDefault thumbSize thumbDefault) with
  | error e => exact .stopped (hashStages_raisesOnly (hzero himage) e hstages)
  | ok coeffs => exact quantPack_packEnd _ fun hone => havg ((hashStages_blockWidth hthumb hstages).symm.trans hone)

end packEnd

/-! ## The faults of the comparators (R242, R261, R262) -/

section comparators
variable {F : List FaultCause} {s : State}

/-- No axis of an image is too short for thumbnails of side 32, and their block has 64 coefficients (R242, R291). -/
theorem hash64_raisesOnly (p : PixelSlot) : RaisesOnly F (s.hash64 p) := by
  have hend : PackEnd F (.fresh hash64Bytes) (s.hashImage hash64Bytes p 8 8 (.fresh hash64Bytes)) := by
    refine hashImage_packEnd _ _ _ (fun himage hfaults => ?_) (fun hone => absurd hone (by decide))
    obtain ⟨-, hw, hh⟩ := himage
    have hthumb : orDefault 8 thumbDefault = 8 := rfl
    rw [hthumb, Bool.or_eq_true, axisFaults_four_mul_iff (by omega) (by omega),
      axisFaults_four_mul_iff (by omega) (by omega)] at hfaults
    omega
  refine .ite (fun _ => .inner _) fun _ => ?_
  split
  next e heq => exact .error (hend.onlyFaults (by rw [heq])).wrap
  next => exact .ok _

/-- The block of a default thumbnail has 256 coefficients. -/
theorem defaultHash_raisesOnly (held : Nat) (p : PixelSlot) : RaisesOnly [.zeroWeight] (s.defaultHash held p) := by
  have hend : PackEnd [.zeroWeight] (.fresh cmpBytes) (s.hashImage (held + cmpBytes) p 0 0 (.fresh cmpBytes)) :=
    hashImage_packEnd _ _ _ (fun _ _ => List.mem_singleton_self _) (fun hone => absurd hone (by decide))
  refine .ite (fun _ => .inner _) fun _ => ?_
  split
  next e heq => exact .error (hend.onlyFaults (by rw [heq])).wrap
  next => exact .ok _

theorem compareImages_raisesOnly (p q : PixelSlot) : RaisesOnly [.zeroWeight] (s.compareImages p q) := by
  unfold State.compareImages
  cases hfirst : s.defaultHash 0 p with
  | error e => exact .error (defaultHash_raisesOnly 0 p e hfirst)
  | ok t =>
    dsimp only
    cases hsecond : s.defaultHash cmpBytes q with
    | error e => exact .error (defaultHash_raisesOnly cmpBytes q e hsecond)
    | ok u => exact .ite (fun _ => .inner _) fun _ => .ok _

theorem compareImages64_raisesOnly (p q : PixelSlot) : RaisesOnly F (s.compareImages64 p q) := by
  unfold State.compareImages64
  cases hfirst : s.hash64 p with
  | error e => exact .error (hash64_raisesOnly p e hfirst)
  | ok v =>
    dsimp only
    cases hsecond : s.hash64 q with
    | error e => exact .error (hash64_raisesOnly q e hsecond)
    | ok w => exact .ok _

end comparators

/-! ## The ends of a command (R289 to R291) -/

/-- The faults a command can raise (R291). -/
def raises : Instr → List FaultCause
  | .resize _ _ | .cmp _ _ => [.zeroWeight]
  | .qpack _ _ => [.avgEmpty]
  | .hash _ _ => [.zeroWeight, .avgEmpty]
  | _ => []

/-- The state a failed command leaves, but for the status and the results: `BS_RESIZE` has emptied its slot (R141). -/
def failState : Instr → State → State
  | .bsResize a, s => s.setStream a .empty
  | _, s => s

/-- How the command `i` run in `s` ends: it succeeds and takes no fault; it stops and leaves `failState`; or it packs until
its stream is full. -/
inductive CommandEnd (i : Instr) (s : State) : State → Prop
  | completed {t : State} (hcode : t.code = .success) (hfault : t.fault = s.fault) : CommandEnd i s t
  | stopped {e : Stop} (he : OnlyFaults (raises i) e) : CommandEnd i s ((failState i s).stop e)
  | full {a : StreamIdx} {b : PixelIdx} {u : StreamSlot} (hi : i = .qpack a b ∨ i = .hash a b)
      (hu : (s.stream a).inv = true → PartlyAppended (s.stream a) u) :
      CommandEnd i s ((s.setStream a u).stop (.inner .capacityLimit))

/-- The next state of an outcome, where it has one, is an end of the command `i` run in `s`. -/
def EndsCommand (i : Instr) (s : State) (o : Host.Outcome State Fault Refusal) : Prop :=
  ∀ t, o = .next t → CommandEnd i s t

namespace EndsCommand

variable {i : Instr} {s : State} {o : Host.Outcome State Fault Refusal}

theorem next {t : State} (h : CommandEnd i s t) : EndsCommand i s (.next t) := by
  rintro _ ⟨⟩
  exact h

theorem succeeds {t : State} (r0 r1 : Word) (h : t.fault = s.fault) : EndsCommand i s (.next (t.succeed r0 r1)) :=
  next (.completed rfl h)

/-- A test of the command's rule that ends it with a code where it holds. -/
theorem guard {p : Prop} {_ : Decidable p} {c : Status} (h : EndsCommand i s o) :
    EndsCommand i s (if p then .next ((failState i s).fail c) else o) := by
  by_cases hp : p
  · rw [if_pos hp]; exact next (.stopped (onlyFaults_plain _ c))
  · rwa [if_neg hp]

/-! The commands that fail in the state they began in are all but `BS_RESIZE`. -/

variable (hs : failState i s = s)
include hs

theorem stops {e : Stop} (he : OnlyFaults (raises i) e) : EndsCommand i s (.next (s.stop e)) := by
  have hend : CommandEnd i s ((failState i s).stop e) := .stopped he
  rw [hs] at hend
  exact next hend

theorem creates (a : PixelIdx) {r : Except Stop PixelSlot} (hr : RaisesOnly (raises i) r) :
    EndsCommand i s (.next (s.endCreate a r)) := by
  cases r with
  | ok p => exact succeeds 0 0 rfl
  | error e => exact stops hs (hr e rfl)

theorem appends (a : StreamIdx) (r : Option StreamSlot) : EndsCommand i s (.next (s.endAppend a r)) := by
  cases r with
  | some u => exact succeeds 0 0 rfl
  | none => exact stops hs (onlyFaults_plain _ .capacityLimit)

/-- A stop before anything is packed stores the stream that was in the slot. -/
theorem packs {a : StreamIdx} {b : PixelIdx} (hi : i = .qpack a b ∨ i = .hash a b) {r : StreamSlot × Option Stop}
    (hr : PackEnd (raises i) (s.stream a) r) : EndsCommand i s (.next (s.endPack a r)) := by
  cases hr with
  | packed u => exact succeeds 0 0 rfl
  | stopped he => rw [endPack_stopped]; exact stops hs he
  | full hu => exact next (.full hi hu)

end EndsCommand

open EndsCommand

section commands
variable {s : State}

theorem execHash64_ends (b : PixelIdx) : EndsCommand (.hash64 b) s (execHash64 b s) := by
  unfold execHash64
  cases h : s.hash64 (s.pixel b) with
  | ok v => exact succeeds _ _ rfl
  | error e => exact stops rfl (hash64_raisesOnly _ e h)

theorem execCmp_ends (b c : PixelIdx) : EndsCommand (.cmp b c) s (execCmp b c s) := by
  unfold execCmp
  cases h : s.compareImages (s.pixel b) (s.pixel c) with
  | ok m => exact succeeds _ _ rfl
  | error e => exact stops rfl (compareImages_raisesOnly _ _ e h)

theorem execCmp64_ends (b c : PixelIdx) : EndsCommand (.cmp64 b c) s (execCmp64 b c s) := by
  unfold execCmp64
  cases h : s.compareImages64 (s.pixel b) (s.pixel c) with
  | ok d => exact succeeds _ _ rfl
  | error e => exact stops rfl (compareImages64_raisesOnly _ _ e h)

theorem execQpack_ends (a : StreamIdx) (b : PixelIdx) : EndsCommand (.qpack a b) s (execQpack a b s) :=
  guard (guard (packs rfl (.inl rfl) (quantPack_packEnd _ fun _ => List.mem_singleton_self _)))

theorem execHash_ends (a : StreamIdx) (b : PixelIdx) : EndsCommand (.hash a b) s (execHash a b s) :=
  packs rfl (.inr rfl) (hashImage_packEnd 0 _ _ (fun _ _ => List.mem_cons_self)
    fun _ => List.mem_cons_of_mem _ (List.mem_singleton_self _))

end commands

/-- ALL THE WAYS IN WHICH A COMMAND ENDS: its tests in their order, then the end that its rule gives it. -/
theorem exec_ends (i : Instr) (s : State) : EndsCommand i s (exec i s) := by
  cases i with
  | nop => exact succeeds 0 0 rfl
  | pbCreate a => exact creates rfl a (createBuffer_raisesOnly a _ _ _)
  | pbDestroy a => exact succeeds 0 0 rfl
  | pbClone a b => exact creates rfl a (cloneBuffer_raisesOnly a b)
  | pbRedim a => exact creates rfl a (redimBuffer_raisesOnly a _ _)
  | pbPitch a => exact guard (succeeds _ _ rfl)
  | pbBlkoff a => exact guard (guard (succeeds _ 0 rfl))
  | bsResize a => exact guard (guard (succeeds _ 0 rfl))
  | bsDestroy a => exact succeeds 0 0 rfl
  | bsLoad a => exact guard (guard (guard (succeeds 0 0 rfl)))
  | bsCopy a b => exact guard (guard (succeeds 0 0 rfl))
  | bsWbit a => exact appends rfl a _
  | bsWbyte a => exact appends rfl a _
  | bsWbits a => exact guard (appends rfl a _)
  | bsWbytes a => exact guard (appends rfl a _)
  | bsRbit a => exact guard (succeeds _ 0 rfl)
  | bsRbyte a => exact guard (succeeds _ 0 rfl)
  | bsRbits a => exact guard (succeeds _ 0 rfl)
  | bsRbytes a => exact guard (guard (succeeds _ 0 rfl))
  | bsSeek a => exact succeeds 0 0 rfl
  | bsEq a b => exact succeeds _ 0 rfl
  | desat a b => exact guard (creates rfl a (desaturate_raisesOnly 0 _))
  | resize a b => exact guard (creates rfl a (resample_raisesOnly fun _ => List.mem_singleton_self _))
  | dct2d a b => exact guard (creates rfl a (transform_raisesOnly 0 _))
  | qpack a b => exact execQpack_ends a b
  | hash a b => exact execHash_ends a b
  | hash64 b => exact execHash64_ends b
  | cmp b c => exact execCmp_ends b c
  | cmp64 b c => exact execCmp64_ends b c

/-! ## Which command raises which fault (R291) -/

/-- A stop changes the fault only by taking one. -/
theorem stop_fault_cases (s : State) (e : Stop) :
    (s.stop e).fault = s.fault ∨ ∃ c, e = .fault c ∧ (s.stop e).fault = some c := by
  cases e with
  | fail code sub => exact .inl rfl
  | fault c => exact .inr ⟨c, rfl, rfl⟩

theorem failState_fault (i : Instr) (s : State) : (failState i s).fault = s.fault := by
  unfold failState
  split <;> rfl

/-- A fault that a command changed is one of those its rule raises. -/
theorem CommandEnd.fault_mem_raises {i : Instr} {s t : State} (h : CommandEnd i s t) (hne : t.fault ≠ s.fault) :
    ∃ c ∈ raises i, t.fault = some c := by
  cases h with
  | completed hcode hfault => exact absurd hfault hne
  | @stopped e he =>
    rcases stop_fault_cases (failState i s) e with hkept | ⟨c, hc, htaken⟩
    · exact absurd (hkept.trans (failState_fault i s)) hne
    · exact ⟨c, he c hc, htaken⟩
  | full hi hu => exact absurd rfl hne

/-- The table of `raises` read backwards. -/
theorem mem_raises {i : Instr} {c : FaultCause} (h : c ∈ raises i) :
    (c = .zeroWeight ∧ ((∃ a b, i = .resize a b) ∨ (∃ a b, i = .hash a b) ∨ ∃ b c, i = .cmp b c)) ∨
      (c = .avgEmpty ∧ ((∃ a b, i = .qpack a b) ∨ ∃ a b, i = .hash a b)) := by
  unfold raises at h
  split at h
  case h_5 => exact absurd h List.not_mem_nil
  all_goals simp only [List.mem_cons, List.not_mem_nil, or_false] at h
  case h_1 a b => exact .inl ⟨h, .inl ⟨a, b, rfl⟩⟩
  case h_2 b c => exact .inl ⟨h, .inr (.inr ⟨b, c, rfl⟩)⟩
  case h_3 a b => exact .inr ⟨h, .inl ⟨a, b, rfl⟩⟩
  case h_4 a b =>
    exact h.imp (fun hc => ⟨hc, .inr (.inl ⟨a, b, rfl⟩)⟩) fun hc => ⟨hc, .inr ⟨a, b, rfl⟩⟩

/-- Settles O13: the fault a command leaves is one its rule raises, or the one it found. -/
theorem faultsComeOnlyFromTheirCommands : Obligations.FaultsComeOnlyFromTheirCommands := by
  unfold Obligations.FaultsComeOnlyFromTheirCommands
  intro i s t h hne
  obtain ⟨c, hc, hfault⟩ := (exec_ends i s t h).fault_mem_raises hne
  rw [hfault, Option.some.injEq, Option.some.injEq]
  exact mem_raises hc

/-! ## What a failed command leaves (R289, R290) -/

section failed
variable {i : Instr} {s t : State}

theorem failState_pb (i : Instr) (s : State) : (failState i s).pb = s.pb := by
  unfold failState
  split <;> rfl

theorem failState_xbuf (i : Instr) (s : State) : (failState i s).xbuf = s.xbuf := by
  unfold failState
  split <;> rfl

theorem failState_of_ne_bsResize (h : ∀ a, i ≠ .bsResize a) (s : State) : failState i s = s := by
  unfold failState
  split
  next a => exact absurd rfl (h a)
  next => rfl

/-- The pool's account depends on the slots alone (R45). -/
theorem stop_poolUsed (s : State) (e : Stop) : (s.stop e).poolUsed = s.poolUsed := by
  rw [State.poolUsed, stop_pb, stop_bs, State.poolUsed]

/-- A slot emptied gives its bytes back to the pool. -/
theorem poolUsed_clearStream (s : State) (a : StreamIdx) :
    (s.setStream a .empty).poolUsed + (s.stream a).capbits.toNat / 8 = s.poolUsed := poolUsed_setStream s a .empty

/-- Appended bits take no storage. -/
theorem poolUsed_setStream_partlyAppended {a : StreamIdx} {u : StreamSlot} (h : PartlyAppended (s.stream a) u) :
    (s.setStream a u).poolUsed = s.poolUsed := by
  have hpool := poolUsed_setStream s a u
  obtain ⟨d, n, rfl, -⟩ := h
  exact Nat.add_right_cancel hpool

/-- A command that did not succeed has results 0 and left the pixel slots and `XBUF`. -/
theorem CommandEnd.failed_keeps (h : CommandEnd i s t) (hcode : t.code ≠ .success) :
    t.res = #v[0, 0, 0, 0] ∧ t.pb = s.pb ∧ t.xbuf = s.xbuf := by
  cases h with
  | completed hc => exact absurd hc hcode
  | stopped => exact ⟨stop_res _ _, by rw [stop_pb, failState_pb], by rw [stop_xbuf, failState_xbuf]⟩
  | full => exact ⟨rfl, rfl, rfl⟩

theorem CommandEnd.failed_poolUsed (h : CommandEnd i s t) (hInv : s.Inv) (hcode : t.code ≠ .success) :
    t.poolUsed = (failState i s).poolUsed := by
  cases h with
  | completed hc => exact absurd hc hcode
  | stopped => exact stop_poolUsed _ _
  | @full a b u hi hu =>
    rw [stop_poolUsed, poolUsed_setStream_partlyAppended (hu (hInv.streams a))]
    rcases hi with rfl | rfl <;> rfl

/-- The stream slots after a command that did not succeed and does not pack. -/
theorem CommandEnd.failed_bs (h : CommandEnd i s t) (hcode : t.code ≠ .success)
    (hi : ∀ a b, i ≠ .qpack a b ∧ i ≠ .hash a b) : t.bs = (failState i s).bs := by
  cases h with
  | completed hc => exact absurd hc hcode
  | stopped => exact stop_bs _ _
  | full hpack => exact absurd hpack (not_or.mpr (hi _ _))

/-- And after one that packs: only a full stream leaves bits behind. -/
theorem CommandEnd.failed_pack_bs (h : CommandEnd i s t) (hInv : s.Inv) (hcode : t.code ≠ .success) {a : StreamIdx}
    {b : PixelIdx} (hi : i = .qpack a b ∨ i = .hash a b) :
    t.bs = s.bs ∨ (t.code = .executionFailure ∧ t.subcode = .capacityLimit ∧
      ∃ (d : Memory) (n : Nat), t.bs = s.bs.set a { s.stream a with
          wcur := BitVec.ofNat 32 ((s.stream a).wcur.toNat + n), data := d } ∧
        (s.stream a).wcur.toNat + n ≤ (s.stream a).capbits.toNat ∧
        ∀ c, c < (s.stream a).wcur.toNat ∨ (s.stream a).wcur.toNat + n ≤ c →
          d.getBit c = (s.stream a).data.getBit c) := by
  cases h with
  | completed hc => exact absurd hc hcode
  | stopped =>
    refine .inl ((stop_bs _ _).trans ?_)
    rcases hi with rfl | rfl <;> rfl
  | @full a' b' u hi' hu =>
    obtain rfl : a' = a := by
      rcases hi with rfl | rfl <;> rcases hi' with hi' | hi' <;> cases hi' <;> rfl
    obtain ⟨d, n, rfl, hle, hbits⟩ := hu (hInv.streams a')
    exact .inr ⟨rfl, rfl, d, n, rfl, hle, hbits⟩

end failed

/-- Settles O14: the registers by the frame of every command, the slots and the pool by the ends of a failed one. -/
theorem failedCommandsChangeNothingElse : Obligations.FailedCommandsChangeNothingElse := by
  unfold Obligations.FailedCommandsChangeNothingElse
  intro i s t hInv h hcode
  obtain ⟨harg, hcmd, hslot, hkind, hoff, hcfg, hpending, hrdata, -⟩ := commandsTouchOnlyTheirOwn i s t h
  have hend := exec_ends i s t h
  obtain ⟨hres, hpb, hxbuf⟩ := hend.failed_keeps hcode
  have hpool := hend.failed_poolUsed hInv hcode
  refine ⟨hres, hpb, hxbuf, harg, hcmd, hslot, hkind, hoff, hcfg, hpending, hrdata, fun hne => ?_, ?_, ?_⟩
  · rw [hpool, failState_of_ne_bsResize hne]
  · rintro a rfl
    rw [hpool]
    exact poolUsed_clearStream s a
  · split
    next a => exact hend.failed_bs hcode fun _ _ => ⟨nofun, nofun⟩
    next a b => exact hend.failed_pack_bs hInv hcode (.inl rfl)
    next a b => exact hend.failed_pack_bs hInv hcode (.inr rfl)
    next hresize hqpack hhash =>
      rw [hend.failed_bs hcode fun a b => ⟨hqpack a b, hhash a b⟩, failState_of_ne_bsResize hresize]

end Sys2Proof.Proofs
